-- ==== Sys2Proof/Word.lean ====
section
/-! DEFINITION. The bit vectors the spec names, each under the spec's own word
(00_scope R5 to R8).  Counts, positions and lengths are `Nat`. -/

namespace Sys2Proof

/-- A byte, or the content of an 8-bit register (00_scope R7). -/
abbrev Byte := BitVec 8

/-- A 16-bit register word, a `BUF` entry, a response `VALUE` (00_scope R7, 10_state R27). -/
abbrev Word16 := BitVec 16

/-- A 7-bit device address (00_scope R5). -/
abbrev DevAddr := BitVec 7

/-- An 8-bit register address, for both data widths (00_scope R5, 20_memory R52). -/
abbrev RegAddr := BitVec 8

/-- A timeout in milliseconds; 0 means that no timeout is enforced (10_state R23). -/
abbrev Millis := BitVec 16

/-- The 64-bit command word (30_encoding R90). -/
abbrev CommandWord := BitVec 64

/-- The 32-bit response word (30_encoding R96). -/
abbrev ResponseWord := BitVec 32

/-- The bus handle.  DESIGN CHOICE (log 1): the spec leaves the type open (92 D29) and the block
never inspects a handle. -/
abbrev BusId := Nat

/-- The register word width `W` of an operation (00_scope R5). -/
inductive Width where
  /-- `W = 8`. -/
  | w8
  /-- `W = 16`. -/
  | w16
deriving DecidableEq, Repr

/-- `W` as a number of bits. -/
def Width.bits : Width → Nat
  | .w8 => 8
  | .w16 => 16

/-- `W / 8`, the bytes of one unit (41_field_access R140). -/
def Width.bytes : Width → Nat
  | .w8 => 1
  | .w16 => 2

end Sys2Proof
end

