-- ==== Sys2Proof/Syntax.lean ====
section
/-! DEFINITION. The 23 commands of 30_encoding R94, one constructor per row of
spec/opcode_table.json, with the operands of 30_encoding R97 in the written order of R98. -/

namespace Sys2Proof

/-- A field specification: the position of the field's least significant bit and the number of
its bits (00_scope R13, 40_codec R120). -/
structure FieldSpec where
  /-- `bitStart`, 0..15. -/
  bitStart : Nat
  /-- `length`, 1..16. -/
  length : Nat
deriving DecidableEq, Repr, Inhabited

/-- Valid for width `W`: the field lies inside the word (00_scope R13, 40_codec R127). -/
abbrev FieldSpec.validFor (f : FieldSpec) (W : Width) : Prop := f.bitStart + f.length ≤ W.bits

/-- The field of one bit at `bitNum` (40_codec R132). -/
def FieldSpec.bit (bitNum : Nat) : FieldSpec := { bitStart := bitNum, length := 1 }

/-- A command with its operands.  `timeout` is `some t` for an explicit timeout (`TOV = 1`) and
`none` where the default is used (30_encoding R97, R98). -/
inductive Instr where
  /-- 41_field_access R142. -/
  | readBit (dev : DevAddr) (reg : RegAddr) (bitNum : Nat) (timeout : Option Millis)
  /-- 41_field_access R143. -/
  | readBitW (dev : DevAddr) (reg : RegAddr) (bitNum : Nat) (timeout : Option Millis)
  /-- 41_field_access R144. -/
  | readBits (dev : DevAddr) (reg : RegAddr) (spec : FieldSpec) (timeout : Option Millis)
  /-- 41_field_access R145. -/
  | readBitsW (dev : DevAddr) (reg : RegAddr) (spec : FieldSpec) (timeout : Option Millis)
  /-- 42_unit_array_access R161. -/
  | readByte (dev : DevAddr) (reg : RegAddr) (timeout : Option Millis)
  /-- 42_unit_array_access R162. -/
  | readWord (dev : DevAddr) (reg : RegAddr) (timeout : Option Millis)
  /-- 42_unit_array_access R164. -/
  | readBytes (dev : DevAddr) (reg : RegAddr) (count : Nat) (timeout : Option Millis)
  /-- 42_unit_array_access R166. -/
  | readWords (dev : DevAddr) (reg : RegAddr) (count : Nat) (timeout : Option Millis)
  /-- 42_unit_array_access R165. -/
  | readBytesNoRegAddress (dev : DevAddr) (count : Nat) (timeout : Option Millis)
  /-- 41_field_access R146. -/
  | writeBit (dev : DevAddr) (reg : RegAddr) (bitNum : Nat) (bit : BitVec 1)
  /-- 41_field_access R147. -/
  | writeBitW (dev : DevAddr) (reg : RegAddr) (bitNum : Nat) (bit : BitVec 1)
  /-- 41_field_access R148. -/
  | writeBits (dev : DevAddr) (reg : RegAddr) (spec : FieldSpec) (value : Byte)
  /-- 41_field_access R149. -/
  | writeBitsW (dev : DevAddr) (reg : RegAddr) (spec : FieldSpec) (value : Word16)
  /-- 42_unit_array_access R167. -/
  | writeByte (dev : DevAddr) (reg : RegAddr) (value : Byte)
  /-- 42_unit_array_access R168. -/
  | writeWord (dev : DevAddr) (reg : RegAddr) (value : Word16)
  /-- 42_unit_array_access R169. -/
  | writeBytes (dev : DevAddr) (reg : RegAddr) (count : Nat)
  /-- 42_unit_array_access R170. -/
  | writeWords (dev : DevAddr) (reg : RegAddr) (count : Nat)
  /-- 40_codec R122. -/
  | extractField8 (rv : Byte) (spec : FieldSpec)
  /-- 40_codec R123. -/
  | extractField16 (rv : Word16) (spec : FieldSpec)
  /-- 40_codec R125. -/
  | injectField8 (rv : Byte) (spec : FieldSpec) (value : Byte)
  /-- 40_codec R126. -/
  | injectField16 (rv : Word16) (spec : FieldSpec) (value : Word16)
  /-- 43_config R190. -/
  | setDefaultTimeout (ms : Millis)
  /-- 43_config R191. -/
  | getDefaultTimeout
deriving DecidableEq, Repr, Inhabited

end Sys2Proof
end

