-- ==== Sys2Proof/WellFormed.lean ====
section
/-! DEFINITION. The operand values that a command word can carry (30_encoding R91, R97).
A field specification that does not fit the word width is well formed: 30_encoding R95 makes it
legal and 40_codec R128 gives its result. -/

namespace Sys2Proof

/-- `BS` holds 0..15 (30_encoding R91). -/
abbrev encodableBit (bitNum : Nat) : Prop := bitNum ≤ 15

/-- `BS` holds 0..15 and `LM1` holds `length - 1`, so that `length` is 1..16 (30_encoding R91). -/
abbrev FieldSpec.encodable (f : FieldSpec) : Prop :=
  encodableBit f.bitStart ∧ 1 ≤ f.length ∧ f.length ≤ 16

/-- `CNT` holds 0..255 (30_encoding R91). -/
abbrev encodableCount (n : Nat) : Prop := n ≤ 255

/-- Every operand is one the command word can carry (30_encoding R97). -/
def Instr.wf : Instr → Bool
  | .readBit _ _ b _ => decide (encodableBit b)
  | .readBitW _ _ b _ => decide (encodableBit b)
  | .readBits _ _ f _ => decide f.encodable
  | .readBitsW _ _ f _ => decide f.encodable
  | .readByte _ _ _ => true
  | .readWord _ _ _ => true
  | .readBytes _ _ n _ => decide (encodableCount n)
  | .readWords _ _ n _ => decide (encodableCount n)
  | .readBytesNoRegAddress _ n _ => decide (encodableCount n)
  | .writeBit _ _ b _ => decide (encodableBit b)
  | .writeBitW _ _ b _ => decide (encodableBit b)
  | .writeBits _ _ f _ => decide f.encodable
  | .writeBitsW _ _ f _ => decide f.encodable
  | .writeByte _ _ _ => true
  | .writeWord _ _ _ => true
  | .writeBytes _ _ n => decide (encodableCount n)
  | .writeWords _ _ n => decide (encodableCount n)
  | .extractField8 _ f => decide f.encodable
  | .extractField16 _ f => decide f.encodable
  | .injectField8 _ f _ => decide f.encodable
  | .injectField16 _ f _ => decide f.encodable
  | .setDefaultTimeout _ => true
  | .getDefaultTimeout => true

end Sys2Proof
end

