-- ==== Sys2Proof/Decode.lean ====
section
/-! DEFINITION. Decoding of the 64-bit command word and the encoder, both from the tables of
30_encoding R91 to R97. -/

namespace Sys2Proof

/-! ### The fields of the word (30_encoding R91) -/

/-- `OP`, bits 63:56. -/
def fieldOp (w : CommandWord) : BitVec 8 := w.extractLsb' 56 8

/-- `TOV`, bit 55. -/
def fieldTov (w : CommandWord) : BitVec 1 := w.extractLsb' 55 1

/-- `DEV`, bits 54:48. -/
def fieldDev (w : CommandWord) : DevAddr := w.extractLsb' 48 7

/-- `REG`, bits 47:40. -/
def fieldReg (w : CommandWord) : RegAddr := w.extractLsb' 40 8

/-- `BS`, bits 39:36. -/
def fieldBs (w : CommandWord) : BitVec 4 := w.extractLsb' 36 4

/-- `LM1`, bits 35:32. -/
def fieldLm1 (w : CommandWord) : BitVec 4 := w.extractLsb' 32 4

/-- `CNT`, bits 39:32. -/
def fieldCnt (w : CommandWord) : BitVec 8 := w.extractLsb' 32 8

/-- `VAL`, bits 31:16. -/
def fieldVal (w : CommandWord) : Word16 := w.extractLsb' 16 16

/-- `VAL[7:0]`, bits 23:16. -/
def fieldVal8 (w : CommandWord) : Byte := w.extractLsb' 16 8

/-- `VAL[0]`, bit 16. -/
def fieldVal1 (w : CommandWord) : BitVec 1 := w.extractLsb' 16 1

/-- `TMO`, bits 15:0; the same bits are `RV` in the codec commands. -/
def fieldTmo (w : CommandWord) : Word16 := w.extractLsb' 0 16

/-- `RV[7:0]`, bits 7:0. -/
def fieldRv8 (w : CommandWord) : Byte := w.extractLsb' 0 8

/-! ### Operands (30_encoding R97) -/

/-- The explicit timeout, if the command carries one. -/
def operandTimeout (w : CommandWord) : Option Millis :=
  if fieldTov w = 1#1 then some (fieldTmo w) else none

/-- `bitStart = BS`, `length = LM1 + 1`. -/
def operandSpec (w : CommandWord) : FieldSpec :=
  { bitStart := (fieldBs w).toNat, length := (fieldLm1 w).toNat + 1 }

/-- `bitNum = BS`. -/
def operandBitNum (w : CommandWord) : Nat := (fieldBs w).toNat

/-- `count = CNT`. -/
def operandCount (w : CommandWord) : Nat := (fieldCnt w).toNat

/-! ### The opcode map (30_encoding R92, R94) -/

/-- The eight formats (30_encoding R92). -/
inductive Format where
  /-- Field read. -/
  | fr
  /-- Field write. -/
  | fw
  /-- Unit read. -/
  | ur
  /-- Unit write. -/
  | uw
  /-- Array read. -/
  | ar
  /-- Array write. -/
  | aw
  /-- Codec. -/
  | k
  /-- Configuration. -/
  | c
deriving DecidableEq, Repr

/-- The formats with a `TOV` field (30_encoding R93 (3)). -/
def Format.hasTov : Format → Bool
  | .fr => true
  | .ur => true
  | .ar => true
  | .fw => false
  | .uw => false
  | .aw => false
  | .k => false
  | .c => false

/-- One row of the opcode map. -/
structure OpcodeRow where
  /-- `OP`. -/
  opcode : BitVec 8
  /-- The format. -/
  format : Format
  /-- The column `match`. -/
  pattern : CommandWord
  /-- The column `mask`. -/
  mask : CommandWord
  /-- The command with the operands of 30_encoding R97. -/
  operands : CommandWord → Instr

/-- The access reads of the opcode map (30_encoding R94). -/
def readRows : List OpcodeRow :=
  [ ⟨0x00, .fr, 0x0000000000000000, 0xFF00000FFFFF0000,
      fun w => .readBit (fieldDev w) (fieldReg w) (operandBitNum w) (operandTimeout w)⟩,
    ⟨0x01, .fr, 0x0100000000000000, 0xFF00000FFFFF0000,
      fun w => .readBitW (fieldDev w) (fieldReg w) (operandBitNum w) (operandTimeout w)⟩,
    ⟨0x02, .fr, 0x0200000000000000, 0xFF000000FFFF0000,
      fun w => .readBits (fieldDev w) (fieldReg w) (operandSpec w) (operandTimeout w)⟩,
    ⟨0x03, .fr, 0x0300000000000000, 0xFF000000FFFF0000,
      fun w => .readBitsW (fieldDev w) (fieldReg w) (operandSpec w) (operandTimeout w)⟩,
    ⟨0x04, .ur, 0x0400000000000000, 0xFF0000FFFFFF0000,
      fun w => .readByte (fieldDev w) (fieldReg w) (operandTimeout w)⟩,
    ⟨0x05, .ur, 0x0500000000000000, 0xFF0000FFFFFF0000,
      fun w => .readWord (fieldDev w) (fieldReg w) (operandTimeout w)⟩,
    ⟨0x06, .ar, 0x0600000000000000, 0xFF000000FFFF0000,
      fun w => .readBytes (fieldDev w) (fieldReg w) (operandCount w) (operandTimeout w)⟩,
    ⟨0x07, .ar, 0x0700000000000000, 0xFF000000FFFF0000,
      fun w => .readWords (fieldDev w) (fieldReg w) (operandCount w) (operandTimeout w)⟩,
    ⟨0x08, .ar, 0x0800000000000000, 0xFF00FF00FFFF0000,
      fun w => .readBytesNoRegAddress (fieldDev w) (operandCount w) (operandTimeout w)⟩ ]

/-- The access writes of the opcode map (30_encoding R94). -/
def writeRows : List OpcodeRow :=
  [ ⟨0x10, .fw, 0x1000000000000000, 0xFF80000FFFFEFFFF,
      fun w => .writeBit (fieldDev w) (fieldReg w) (operandBitNum w) (fieldVal1 w)⟩,
    ⟨0x11, .fw, 0x1100000000000000, 0xFF80000FFFFEFFFF,
      fun w => .writeBitW (fieldDev w) (fieldReg w) (operandBitNum w) (fieldVal1 w)⟩,
    ⟨0x12, .fw, 0x1200000000000000, 0xFF800000FF00FFFF,
      fun w => .writeBits (fieldDev w) (fieldReg w) (operandSpec w) (fieldVal8 w)⟩,
    ⟨0x13, .fw, 0x1300000000000000, 0xFF8000000000FFFF,
      fun w => .writeBitsW (fieldDev w) (fieldReg w) (operandSpec w) (fieldVal w)⟩,
    ⟨0x14, .uw, 0x1400000000000000, 0xFF8000FFFF00FFFF,
      fun w => .writeByte (fieldDev w) (fieldReg w) (fieldVal8 w)⟩,
    ⟨0x15, .uw, 0x1500000000000000, 0xFF8000FF0000FFFF,
      fun w => .writeWord (fieldDev w) (fieldReg w) (fieldVal w)⟩,
    ⟨0x16, .aw, 0x1600000000000000, 0xFF800000FFFFFFFF,
      fun w => .writeBytes (fieldDev w) (fieldReg w) (operandCount w)⟩,
    ⟨0x17, .aw, 0x1700000000000000, 0xFF800000FFFFFFFF,
      fun w => .writeWords (fieldDev w) (fieldReg w) (operandCount w)⟩ ]

/-- The codec and configuration commands of the opcode map (30_encoding R94). -/
def codecRows : List OpcodeRow :=
  [ ⟨0x20, .k, 0x2000000000000000, 0xFFFFFF00FFFFFF00,
      fun w => .extractField8 (fieldRv8 w) (operandSpec w)⟩,
    ⟨0x21, .k, 0x2100000000000000, 0xFFFFFF00FFFF0000,
      fun w => .extractField16 (fieldTmo w) (operandSpec w)⟩,
    ⟨0x22, .k, 0x2200000000000000, 0xFFFFFF00FF00FF00,
      fun w => .injectField8 (fieldRv8 w) (operandSpec w) (fieldVal8 w)⟩,
    ⟨0x23, .k, 0x2300000000000000, 0xFFFFFF0000000000,
      fun w => .injectField16 (fieldTmo w) (operandSpec w) (fieldVal w)⟩,
    ⟨0x30, .c, 0x3000000000000000, 0xFFFFFFFFFFFF0000,
      fun w => .setDefaultTimeout (fieldTmo w)⟩,
    ⟨0x31, .c, 0x3100000000000000, 0xFFFFFFFFFFFFFFFF,
      fun _ => .getDefaultTimeout⟩ ]

/-- The opcode map: 23 rows (30_encoding R94). -/
def opcodeRows : List OpcodeRow := readRows ++ writeRows ++ codecRows

/-- The row of an opcode. -/
def rowOf (op : BitVec 8) : Option OpcodeRow := opcodeRows.find? (fun r => r.opcode == op)

/-! ### Decoding (30_encoding R93) -/

/-- Why a word is illegal (30_encoding R95).  No block state holds the reason (60_exceptions R205);
it names the refusal of the decoder only. -/
inductive Illegal where
  /-- `OP` names no command. -/
  | unknownOpcode (op : BitVec 8)
  /-- A bit reserved for the command is 1. -/
  | reservedBits (op : BitVec 8)
  /-- `TMO` is not 0 although `TOV` is 0. -/
  | timeoutWithoutTov (op : BitVec 8)
deriving DecidableEq, Repr

/-- Decoding, total on every word (30_encoding R93). -/
def decode (w : CommandWord) : Except Illegal Instr :=
  match rowOf (fieldOp w) with
  | none => .error (.unknownOpcode (fieldOp w))
  | some row =>
    if w &&& row.mask = row.pattern then
      if row.format.hasTov = true ∧ fieldTov w = 0#1 ∧ fieldTmo w ≠ 0#16 then
        .error (.timeoutWithoutTov (fieldOp w))
      else .ok (row.operands w)
    else .error (.reservedBits (fieldOp w))

/-! ### Encoding (30_encoding R91, R92) -/

/-- The contents of the word's fields.  `mid` is bits 39:32: `BS` and `LM1`, or `CNT`. -/
structure WordFields where
  /-- `OP`. -/
  op : BitVec 8
  /-- `TOV`. -/
  tov : BitVec 1 := 0
  /-- `DEV`. -/
  dev : DevAddr := 0
  /-- `REG`. -/
  reg : RegAddr := 0
  /-- `BS` and `LM1`, or `CNT`. -/
  mid : BitVec 8 := 0
  /-- `VAL`. -/
  val : Word16 := 0
  /-- `TMO` or `RV`. -/
  tmo : Word16 := 0
deriving DecidableEq, Repr

/-- The word that has these fields (30_encoding R91). -/
def WordFields.word (f : WordFields) : CommandWord :=
  f.op ++ f.tov ++ f.dev ++ f.reg ++ f.mid ++ f.val ++ f.tmo

/-- `TOV` of an optional timeout (30_encoding R97). -/
def encodeTov : Option Millis → BitVec 1
  | none => 0
  | some _ => 1

/-- `TMO` of an optional timeout; 0 when `TOV = 0` (30_encoding R92). -/
def encodeTmo : Option Millis → Word16
  | none => 0
  | some t => t

/-- Bits 39:32 of a field command. -/
def encodeSpec (f : FieldSpec) : BitVec 8 :=
  BitVec.ofNat 4 f.bitStart ++ BitVec.ofNat 4 (f.length - 1)

/-- Bits 39:32 of a single-bit command: `LM1` is 0. -/
def encodeBitNum (b : Nat) : BitVec 8 := BitVec.ofNat 4 b ++ 0#4

/-- Bits 39:32 of an array command. -/
def encodeCount (n : Nat) : BitVec 8 := BitVec.ofNat 8 n

/-- The fields of a command's word (30_encoding R92, R94, R97). -/
def encodeFields : Instr → WordFields
  | .readBit d r b t =>
    { op := 0x00, tov := encodeTov t, dev := d, reg := r, mid := encodeBitNum b, tmo := encodeTmo t }
  | .readBitW d r b t =>
    { op := 0x01, tov := encodeTov t, dev := d, reg := r, mid := encodeBitNum b, tmo := encodeTmo t }
  | .readBits d r f t =>
    { op := 0x02, tov := encodeTov t, dev := d, reg := r, mid := encodeSpec f, tmo := encodeTmo t }
  | .readBitsW d r f t =>
    { op := 0x03, tov := encodeTov t, dev := d, reg := r, mid := encodeSpec f, tmo := encodeTmo t }
  | .readByte d r t =>
    { op := 0x04, tov := encodeTov t, dev := d, reg := r, tmo := encodeTmo t }
  | .readWord d r t =>
    { op := 0x05, tov := encodeTov t, dev := d, reg := r, tmo := encodeTmo t }
  | .readBytes d r n t =>
    { op := 0x06, tov := encodeTov t, dev := d, reg := r, mid := encodeCount n, tmo := encodeTmo t }
  | .readWords d r n t =>
    { op := 0x07, tov := encodeTov t, dev := d, reg := r, mid := encodeCount n, tmo := encodeTmo t }
  | .readBytesNoRegAddress d n t =>
    { op := 0x08, tov := encodeTov t, dev := d, mid := encodeCount n, tmo := encodeTmo t }
  | .writeBit d r b v =>
    { op := 0x10, dev := d, reg := r, mid := encodeBitNum b, val := v.setWidth 16 }
  | .writeBitW d r b v =>
    { op := 0x11, dev := d, reg := r, mid := encodeBitNum b, val := v.setWidth 16 }
  | .writeBits d r f v =>
    { op := 0x12, dev := d, reg := r, mid := encodeSpec f, val := v.setWidth 16 }
  | .writeBitsW d r f v =>
    { op := 0x13, dev := d, reg := r, mid := encodeSpec f, val := v }
  | .writeByte d r v =>
    { op := 0x14, dev := d, reg := r, val := v.setWidth 16 }
  | .writeWord d r v =>
    { op := 0x15, dev := d, reg := r, val := v }
  | .writeBytes d r n =>
    { op := 0x16, dev := d, reg := r, mid := encodeCount n }
  | .writeWords d r n =>
    { op := 0x17, dev := d, reg := r, mid := encodeCount n }
  | .extractField8 rv f =>
    { op := 0x20, mid := encodeSpec f, tmo := rv.setWidth 16 }
  | .extractField16 rv f =>
    { op := 0x21, mid := encodeSpec f, tmo := rv }
  | .injectField8 rv f v =>
    { op := 0x22, mid := encodeSpec f, val := v.setWidth 16, tmo := rv.setWidth 16 }
  | .injectField16 rv f v =>
    { op := 0x23, mid := encodeSpec f, val := v, tmo := rv }
  | .setDefaultTimeout ms => { op := 0x30, tmo := ms }
  | .getDefaultTimeout => { op := 0x31 }

/-- The word of a command. -/
def encode (i : Instr) : CommandWord := (encodeFields i).word

/-- The instruction the decoder reads from the low `nbits` bits of `w`, bit 0 of the command word
being bit 0 of `w`; the bits above `nbits` are 0. -/
def decodeTableWord (nbits w : Nat) : Option Instr :=
  match decode (BitVec.ofNat 64 (w % 2 ^ nbits)) with
  | .ok i => some i
  | .error _ => none

end Sys2Proof
end

