-- ==== Sys2Proof/Config.lean ====
section
/-! DEFINITION. What the spec leaves open: the open parameters of 92_eei_decisions, the two
policies of 93_implementation_defined U1 and U4, and the free values (`draw`, 00_scope R11).
Every `opaque` constant here has no body, so no proof can see its value. -/

namespace Sys2Proof

/-- What a codec result is for a field specification out of range (93 U1). -/
inductive FieldPolicy where
  /-- The formulas applied literally (40_codec R128, 92 D7): the default. -/
  | literal
  /-- Any value of `W` bits. -/
  | garbage
deriving DecidableEq, Repr

/-- What an array command of count 0 does (93 U4). -/
inductive ZeroCountPolicy where
  /-- No transport request (42_unit_array_access R163, 92 D13): the default. -/
  | noRequest
  /-- A transport request of length 0, whose outcome the transport chooses. -/
  | emptyRequest
deriving DecidableEq, Repr

/-- The two settings a block has for good (93 U1, U4; logs 11 and 12). -/
structure Policy where
  /-- 93 U1. -/
  fieldSpec : FieldPolicy
  /-- 93 U4. -/
  zeroCount : ZeroCountPolicy
deriving DecidableEq, Repr

/-- The settings the spec takes as its defaults (92 D7, D13). -/
def Policy.default : Policy := { fieldSpec := .literal, zeroCount := .noRequest }

/-- `TIMEOUT_RESET`, the compiled default of the default timeout: any 16-bit value
(00_scope R6, 10_state R36; log 3). -/
opaque Config.timeoutReset : Millis

/-- `N_CTX - 1`: how many contexts there are beside the one there always is
(00_scope R6, 92 D17; log 2). -/
opaque Config.extraContexts : Nat

/-- A free 16-bit value under no law (00_scope R11), one for each `tick` of the machine, context
number and lane of that step (log 5). -/
opaque Config.draw16 (tick ctx lane : Nat) : Word16

/-- The unspecified command in `CMDL` after a reset (10_state R36; log 4). -/
opaque Config.drawInstr (tick ctx : Nat) : Instr

/-- The unspecified bus handle in `CMDL` after a reset (10_state R36; log 4). -/
opaque Config.drawBus (tick ctx : Nat) : BusId

/-- The unspecified timeout in `CMDL` after a reset (10_state R36; log 4). -/
opaque Config.drawTimeout (tick ctx : Nat) : Option Millis

/-- The free integer behind `SENTINEL_A` (00_scope R6; log 16). -/
opaque Config.sentinelSeedA : Int

/-- The free integer behind `SENTINEL_B` (00_scope R6; log 16). -/
opaque Config.sentinelSeedB : Int

/-- The integers outside 0..255, numbered by all integers. -/
def outsideByteRange (x : Int) : Int := if 0 ≤ x then x + 256 else x

/-- `SENTINEL_A`: any value that is not in 0..255 (00_scope R6, 30_encoding R100). -/
def Config.sentinelA : Int := outsideByteRange Config.sentinelSeedA

/-- `SENTINEL_B`: any value that is not in 0..255 and is not `SENTINEL_A`
(00_scope R6, 30_encoding R100). -/
def Config.sentinelB : Int :=
  outsideByteRange
    (if Config.sentinelSeedA ≤ Config.sentinelSeedB then Config.sentinelSeedB + 1
     else Config.sentinelSeedB)

end Sys2Proof
end

