-- ==== Sys2Proof/Machine/State.lean ====
section
/-! DEFINITION. The state of the block (10_state R20 to R36), what its surroundings do to it
(00_scope R15), and why a step can stop. -/

namespace Sys2Proof.Machine

/-! ### The transport port (20_memory R56 to R59) -/

/-- A request on the transport port. -/
inductive Request where
  /-- `TRead(bus, dev, reg, len, t)` (20_memory R56). -/
  | read (bus : BusId) (dev : DevAddr) (reg : Option RegAddr) (len : Nat) (timeout : Millis)
  /-- `TWrite(bus, dev, reg, bytes)` (20_memory R58). -/
  | write (bus : BusId) (dev : DevAddr) (reg : RegAddr) (bytes : List Byte)
deriving DecidableEq, Repr

/-- The reply to a read request (20_memory R57). -/
inductive ReadReply where
  /-- `Bytes(b)`, the first byte delivered first. -/
  | bytes (b : List Byte)
  /-- `BusError`. -/
  | busError
  /-- `Timeout`. -/
  | timeout
deriving DecidableEq, Repr

/-- The reply to a write request (20_memory R59). -/
inductive WriteReply where
  /-- `Ok`. -/
  | ok
  /-- `Error`. -/
  | error
deriving DecidableEq, Repr

/-! ### One execution context (10_state R24 to R27, R32) -/

/-- `ctx.PHASE` (10_state R24). -/
inductive Phase where
  /-- `IDLE`. -/
  | idle
  /-- `RD_WAIT`. -/
  | rdWait
  /-- `WR_WAIT`. -/
  | wrWait
deriving DecidableEq, Repr

/-- `ctx.CMDL` (10_state R25).  `timeout` is the effective timeout computed at the issue step; the
plain writes compute none (10_state R28, 42_unit_array_access R160; log 14). -/
structure Latched where
  /-- The decoded command in progress. -/
  cmd : Instr
  /-- Its bus handle. -/
  bus : BusId
  /-- The effective timeout `t`. -/
  timeout : Option Millis
deriving DecidableEq, Repr

/-- One execution context (10_state R20). -/
structure Context where
  /-- `ctx.PHASE` (10_state R24). -/
  phase : Phase
  /-- `ctx.CMDL` (10_state R25). -/
  cmdl : Latched
  /-- `ctx.RVL` (10_state R26). -/
  rvl : Word16
  /-- `ctx.BUF` (10_state R27). -/
  buf : Vector Word16 256
  /-- `ctx.RESP` (10_state R32). -/
  resp : ResponseWord
  /-- The transport request that is outstanding, at most one (10_state R24, 20_memory R61). -/
  outstanding : Option Request
deriving DecidableEq, Repr

/-! ### What the surroundings do (00_scope R15; log 6) -/

/-- One move of the host, of the transport or of the reset line. -/
inductive Input where
  /-- The host presents a bus handle and a command word to a context (10_state R28). -/
  | command (ctx : Nat) (bus : BusId) (word : CommandWord)
  /-- The transport answers a context's read request (10_state R29). -/
  | readReply (ctx : Nat) (reply : ReadReply)
  /-- The transport answers a context's write request (10_state R30). -/
  | writeReply (ctx : Nat) (reply : WriteReply)
  /-- The host writes an entry of `BUF` (10_state R27). -/
  | hostWriteBuf (ctx : Nat) (index : BitVec 8) (value : Word16)
  /-- The host reads an entry of `BUF` (10_state R27). -/
  | hostReadBuf (ctx : Nat) (index : BitVec 8)
  /-- The host reads `RESP` (10_state R32). -/
  | hostReadResp (ctx : Nat)
  /-- Reset of the whole block (70_reset R230, R231). -/
  | reset
  /-- The reply to the request at this place of `State.abandoned` comes and is discarded
  (70_reset R231). -/
  | abandonedReply (index : Nat)
deriving DecidableEq, Repr

/-! ### The whole block -/

/-- The state.  The first three fields are the spec's (10_state R20), `abandoned` is the spec's
(70_reset R231), the others are the model's own (logs 5, 6, 11, 18). -/
structure State where
  /-- `DEFAULT_TIMEOUT` (10_state R23). -/
  defaultTimeout : Millis
  /-- Context 0, which every configuration has (00_scope R6). -/
  ctx0 : Context
  /-- Contexts 1, 2, … up to `N_CTX - 1` (10_state R20). -/
  more : List Context
  /-- Requests whose reply a reset leaves to be discarded (70_reset R231). -/
  abandoned : List Request
  /-- The settings of 93 U1 and U4; no step changes them. -/
  policy : Policy
  /-- What the surroundings do next, the next move first. -/
  inputs : List Input
  /-- Advanced by every move, so that every draw is fresh. -/
  tick : Nat
  /-- What the last host read step returned. -/
  hostData : Option (BitVec 32)
deriving DecidableEq, Repr

/-! ### Stops -/

/-- The block has no fault: every failure is a response, and the block goes on
(60_exceptions R207, R210; log 20). -/
inductive Fault where
deriving DecidableEq, Repr

/-- Moves the surroundings do not have.  Nothing is said of the block when one is tried, so each is
safe: a claim about what happens after it cannot be proved. -/
inductive Refusal where
  /-- An instruction without a meaning.  Raised by no arm of this model; safe. -/
  | notModelled (mnemonic : String)
  /-- A move names a context beyond `N_CTX`.  Raised by `step` and by every meaning; safe. -/
  | noSuchContext
  /-- The host presents a command to a busy context or touches its `BUF`
  (60_exceptions R217 (g), 93 U7).  Raised by `step` and by every meaning; safe. -/
  | hostWhileBusy
  /-- A reply that no request of the context awaits (20_memory R57, R59, 92 D19: one answer per
  request).  Raised by `step` and by every meaning; safe. -/
  | replyNotAwaited
  /-- More bytes than were asked for (20_memory R57).  Raised by the commands that read; safe. -/
  | tooManyBytes
  /-- `Timeout` to a request without a timeout (20_memory R57).  Raised by the commands that read;
  safe. -/
  | timeoutWithoutLimit
  /-- A reply to an abandoned request that does not exist (70_reset R231).  Raised by `step`;
  safe. -/
  | noSuchAbandonedRequest
  /-- A meaning is asked for although the next move is neither a command nor a reply.  Raised by
  every meaning, never in `step`; safe. -/
  | noCommandMove
deriving DecidableEq, Repr

/-! ### Reset (10_state R36, 70_reset R230) -/

/-- Context number `c` after a reset at `tick`: `IDLE`, nothing outstanding, everything else a free
value (10_state R36; log 4).  Lanes 0 to 255 are `BUF`, 256 `RVL`, 257 and 258 `RESP`. -/
def Context.afterReset (tick c : Nat) : Context :=
  { phase := .idle
    cmdl := { cmd := Config.drawInstr tick c
              bus := Config.drawBus tick c
              timeout := Config.drawTimeout tick c }
    rvl := Config.draw16 tick c 256
    buf := Vector.ofFn fun i => Config.draw16 tick c i.val
    resp := Config.draw16 tick c 257 ++ Config.draw16 tick c 258
    outstanding := none }

/-- Contexts 1 to `n` after a reset at `tick`. -/
def resetContexts (tick n : Nat) : List Context :=
  (List.range n).map fun j => Context.afterReset tick (j + 1)

/-- The block right after reset (10_state R36), with nothing to come.  Its free values are those of
tick 0, which no step draws. -/
def State.reset : State :=
  { defaultTimeout := Config.timeoutReset
    ctx0 := Context.afterReset 0 0
    more := resetContexts 0 Config.extraContexts
    abandoned := []
    policy := Policy.default
    inputs := []
    tick := 1
    hostData := none }

end Sys2Proof.Machine
end

