-- ==== Sys2Proof/Machine/Flags.lean ====
section
/-! DEFINITION. The block has no flags (10_state R33); its only status is the response word
(30_encoding R96) and what software makes of it (30_encoding R100). -/

namespace Sys2Proof.Machine

/-- The abstract responses (00_scope R11). -/
inductive Response where
  /-- The result of a bit, field, byte or word read; `value` is unspecified after a failure. -/
  | boolRead (success : Bool) (value : Word16)
  /-- The result of a write. -/
  | write (success : Bool)
  /-- Units transferred by an array read. -/
  | count (k : Nat)
  /-- Device or bus error of an array read. -/
  | sentinelA
  /-- Timeout of an array read. -/
  | sentinelB
  /-- The result of a command that cannot fail. -/
  | value (v : Word16)
  /-- A refused command word. -/
  | illegal
deriving DecidableEq, Repr

/-- The fields of the response word, `OK KIND 0 COUNT VALUE` (30_encoding R96). -/
def responseWord (ok : Bool) (kind : BitVec 2) (count : BitVec 8) (value : Word16) : ResponseWord :=
  BitVec.ofBool ok ++ kind ++ 0#5 ++ count ++ value

/-- The encoding of each response (30_encoding R96). -/
def Response.word : Response → ResponseWord
  | .boolRead success v => responseWord success 0 0 v
  | .write success => responseWord success 0 0 0
  | .count k => responseWord true 0 (BitVec.ofNat 8 k) 0
  | .sentinelA => responseWord false 1 0 0
  | .sentinelB => responseWord false 2 0 0
  | .value v => responseWord true 0 0 v
  | .illegal => responseWord false 3 0 0

/-- `OK`, bit 31. -/
def respOk (p : ResponseWord) : Bool := p.getLsbD 31

/-- `KIND`, bits 30:29. -/
def respKind (p : ResponseWord) : BitVec 2 := p.extractLsb' 29 2

/-- Bits 28:24, always 0. -/
def respReserved (p : ResponseWord) : BitVec 5 := p.extractLsb' 24 5

/-- `COUNT`, bits 23:16. -/
def respCount (p : ResponseWord) : BitVec 8 := p.extractLsb' 16 8

/-- `VALUE`, bits 15:0. -/
def respValue (p : ResponseWord) : Word16 := p.extractLsb' 0 16

/-- What software sees of a response (30_encoding R100). -/
inductive SoftwareResult where
  /-- A Boolean-result read: the value, if it succeeded. -/
  | read (value : Option Nat)
  /-- An array read: a count or a sentinel. -/
  | arrayRead (result : Int)
  /-- A write. -/
  | write (success : Bool)
  /-- A codec or configuration command, which cannot fail. -/
  | value (v : Nat)
  /-- No counterpart in the source: the word was illegal, or the response is none of the command's. -/
  | noCounterpart
deriving DecidableEq, Repr

/-- The view of a Boolean-result read whose value has `bits` bits (30_encoding R100). -/
def softwareRead (bits : Nat) (p : ResponseWord) : SoftwareResult :=
  .read (if respOk p then some ((respValue p).toNat % 2 ^ bits) else none)

/-- The view of an array read (30_encoding R100). -/
def softwareArrayRead (p : ResponseWord) : SoftwareResult :=
  if respOk p then .arrayRead (respCount p).toNat
  else if respKind p = 1 then .arrayRead Config.sentinelA
  else if respKind p = 2 then .arrayRead Config.sentinelB
  else .noCounterpart

/-- The software view of the response of a command (30_encoding R100). -/
def softwareView (i : Instr) (p : ResponseWord) : SoftwareResult :=
  if respKind p = 3 then .noCounterpart
  else
    match i with
    | .readBit _ _ _ _ => softwareRead 1 p
    | .readBitW _ _ _ _ => softwareRead 1 p
    | .readBits _ _ _ _ => softwareRead 8 p
    | .readBitsW _ _ _ _ => softwareRead 16 p
    | .readByte _ _ _ => softwareRead 8 p
    | .readWord _ _ _ => softwareRead 16 p
    | .readBytes _ _ _ _ => softwareArrayRead p
    | .readWords _ _ _ _ => softwareArrayRead p
    | .readBytesNoRegAddress _ _ _ => softwareArrayRead p
    | .writeBit _ _ _ _ => .write (respOk p)
    | .writeBitW _ _ _ _ => .write (respOk p)
    | .writeBits _ _ _ _ => .write (respOk p)
    | .writeBitsW _ _ _ _ => .write (respOk p)
    | .writeByte _ _ _ => .write (respOk p)
    | .writeWord _ _ _ => .write (respOk p)
    | .writeBytes _ _ _ => .write (respOk p)
    | .writeWords _ _ _ => .write (respOk p)
    | .extractField8 _ _ => .value (respValue p).toNat
    | .extractField16 _ _ => .value (respValue p).toNat
    | .injectField8 _ _ _ => .value (respValue p).toNat
    | .injectField16 _ _ _ => .value (respValue p).toNat
    | .setDefaultTimeout _ => .value (respValue p).toNat
    | .getDefaultTimeout => .value (respValue p).toNat

end Sys2Proof.Machine
end

