-- ==== Sys2Proof/Machine/Operands.lean ====
section
/-! DEFINITION. The operand forms: the codec's two formulas (40_codec R121, R124, R128), bytes and
units (20_memory R54, 41_field_access R140, R141), the effective timeout (30_encoding R97), and the
table of requests (20_memory R64). -/

namespace Sys2Proof.Machine

/-! ### The codec, on naturals (00_scope R8) -/

/-- `a &~ m`: clears in `a` every bit that is set in `m` (00_scope R8). -/
def andNot (a m : Nat) : Nat := a - (a &&& m)

/-- The mask of a field at its place, `((1 << length) - 1) << bitStart` (40_codec R124). -/
def fieldMask (bitStart length : Nat) : Nat := ((1 <<< length) - 1) <<< bitStart

/-- `extract_W` (40_codec R121), literally also for a field that does not fit `W` (R128). -/
def extractW (W r bitStart length : Nat) : Nat :=
  ((r >>> bitStart) &&& ((1 <<< length) - 1)) % 2 ^ W

/-- `inject_W` (40_codec R124), literally also for a field that does not fit `W` (R128). -/
def injectW (W r bitStart length v : Nat) : Nat :=
  (andNot r (fieldMask bitStart length) ||| ((v <<< bitStart) &&& fieldMask bitStart length)) % 2 ^ W

/-- A codec result under the block's policy: the formula's value for a valid field specification;
for one out of range the formula's value too, or under the other setting of 93 U1 any value of `W`
bits (a free value of this tick and context). -/
def State.codecResult (s : State) (c : Nat) (W : Width) (f : FieldSpec) (literal : Nat) : Word16 :=
  if f.validFor W ∨ s.policy.fieldSpec = .literal then BitVec.ofNat 16 literal
  else BitVec.ofNat 16 ((Config.draw16 s.tick c 0).toNat % 2 ^ W.bits)

/-- The field of a register value, in context `c` (40_codec R121, R128). -/
def State.extract (s : State) (c : Nat) (W : Width) (f : FieldSpec) (r : Nat) : Word16 :=
  s.codecResult c W f (extractW W.bits r f.bitStart f.length)

/-- The register value with a field replaced, in context `c` (40_codec R124, R128). -/
def State.inject (s : State) (c : Nat) (W : Width) (f : FieldSpec) (r v : Nat) : Word16 :=
  s.codecResult c W f (injectW W.bits r f.bitStart f.length v)

/-! ### Bytes and units -/

/-- `word_of(b0, b1)`: the first byte delivered is the high one (20_memory R54, 92 D11). -/
def wordOf (b0 b1 : Byte) : Word16 := b0 ++ b1

/-- `x[15:8]`. -/
def highByte (x : Word16) : Byte := x.extractLsb' 8 8

/-- `x[7:0]`. -/
def lowByte (x : Word16) : Byte := x.extractLsb' 0 8

/-- `bytes_W(x)`: the bytes of one unit in the order sent (41_field_access R141). -/
def unitBytes (W : Width) (x : Word16) : List Byte :=
  match W with
  | .w8 => [lowByte x]
  | .w16 => [highByte x, lowByte x]

/-- The register value of a reply that holds exactly one unit (41_field_access R140). -/
def unitValue (W : Width) (b : List Byte) : Option Word16 :=
  match W, b with
  | .w8, [b0] => some (b0.setWidth 16)
  | .w16, [b0, b1] => some (wordOf b0 b1)
  | _, _ => none

/-- `ReadUnit_W`: `Got(r)` or `Failed` (41_field_access R140). -/
def ReadReply.unit (W : Width) : ReadReply → Option Word16
  | .bytes b => unitValue W b
  | .busError => none
  | .timeout => none

/-- The words of a run of bytes; an odd last byte is dropped (42_unit_array_access R163). -/
def wordsOfBytes : List Byte → List Word16
  | b0 :: b1 :: rest => wordOf b0 b1 :: wordsOfBytes rest
  | _ => []

/-- The `BUF` entries that delivered bytes make (42_unit_array_access R163). -/
def unitsOfBytes (W : Width) (b : List Byte) : List Word16 :=
  match W with
  | .w8 => b.map fun x => x.setWidth 16
  | .w16 => wordsOfBytes b

/-- The first `n` entries of `BUF` (42_unit_array_access R169). -/
def Context.entries (k : Context) (n : Nat) : List Word16 := k.buf.toList.take n

/-- The bytes an array write sends: one byte per entry, bits 7:0, or two, the high one first
(42_unit_array_access R169, R170). -/
def Context.sendBytes (k : Context) (W : Width) (n : Nat) : List Byte :=
  (k.entries n).flatMap (unitBytes W)

/-! ### The effective timeout -/

/-- The explicit timeout, or the default as it stands now (30_encoding R97, 10_state R28). -/
def State.effectiveTimeout (s : State) (explicit : Option Millis) : Millis :=
  explicit.getD s.defaultTimeout

/-! ### The requests of each command (20_memory R64) -/

/-- The explicit timeout of a command that carries one (30_encoding R97). -/
def explicitTimeout : Instr → Option Millis
  | .readBit _ _ _ t => t
  | .readBitW _ _ _ t => t
  | .readBits _ _ _ t => t
  | .readBitsW _ _ _ t => t
  | .readByte _ _ t => t
  | .readWord _ _ t => t
  | .readBytes _ _ _ t => t
  | .readWords _ _ _ t => t
  | .readBytesNoRegAddress _ _ t => t
  | .writeBit _ _ _ _ => none
  | .writeBitW _ _ _ _ => none
  | .writeBits _ _ _ _ => none
  | .writeBitsW _ _ _ _ => none
  | .writeByte _ _ _ => none
  | .writeWord _ _ _ => none
  | .writeBytes _ _ _ => none
  | .writeWords _ _ _ => none
  | .extractField8 _ _ => none
  | .extractField16 _ _ => none
  | .injectField8 _ _ _ => none
  | .injectField16 _ _ _ => none
  | .setDefaultTimeout _ => none
  | .getDefaultTimeout => none

/-- The column "read request" of 20_memory R64, as a function of the bus handle and the effective
timeout. -/
def readRequest (bus : BusId) (t : Millis) : Instr → Option Request
  | .readBit d r _ _ => some (.read bus d (some r) 1 t)
  | .readBitW d r _ _ => some (.read bus d (some r) 2 t)
  | .readBits d r _ _ => some (.read bus d (some r) 1 t)
  | .readBitsW d r _ _ => some (.read bus d (some r) 2 t)
  | .readByte d r _ => some (.read bus d (some r) 1 t)
  | .readWord d r _ => some (.read bus d (some r) 2 t)
  | .readBytes d r n _ => some (.read bus d (some r) n t)
  | .readWords d r n _ => some (.read bus d (some r) (n * 2) t)
  | .readBytesNoRegAddress d n _ => some (.read bus d none n t)
  | .writeBit d r _ _ => some (.read bus d (some r) 1 t)
  | .writeBitW d r _ _ => some (.read bus d (some r) 2 t)
  | .writeBits d r _ _ => some (.read bus d (some r) 1 t)
  | .writeBitsW d r _ _ => some (.read bus d (some r) 2 t)
  | .writeByte _ _ _ => none
  | .writeWord _ _ _ => none
  | .writeBytes _ _ _ => none
  | .writeWords _ _ _ => none
  | .extractField8 _ _ => none
  | .extractField16 _ _ => none
  | .injectField8 _ _ _ => none
  | .injectField16 _ _ _ => none
  | .setDefaultTimeout _ => none
  | .getDefaultTimeout => none

/-- The column "write request" of 20_memory R64, as a function of the context: a bit or field write
sends the value latched in `RVL` (10_state R26), an array write its entries of `BUF`. -/
def writeRequest (k : Context) (bus : BusId) : Instr → Option Request
  | .readBit _ _ _ _ => none
  | .readBitW _ _ _ _ => none
  | .readBits _ _ _ _ => none
  | .readBitsW _ _ _ _ => none
  | .readByte _ _ _ => none
  | .readWord _ _ _ => none
  | .readBytes _ _ _ _ => none
  | .readWords _ _ _ _ => none
  | .readBytesNoRegAddress _ _ _ => none
  | .writeBit d r _ _ => some (.write bus d r (unitBytes .w8 k.rvl))
  | .writeBitW d r _ _ => some (.write bus d r (unitBytes .w16 k.rvl))
  | .writeBits d r _ _ => some (.write bus d r (unitBytes .w8 k.rvl))
  | .writeBitsW d r _ _ => some (.write bus d r (unitBytes .w16 k.rvl))
  | .writeByte d r v => some (.write bus d r [v])
  | .writeWord d r v => some (.write bus d r [highByte v, lowByte v])
  | .writeBytes d r n => some (.write bus d r (k.sendBytes .w8 n))
  | .writeWords d r n => some (.write bus d r (k.sendBytes .w16 n))
  | .extractField8 _ _ => none
  | .extractField16 _ _ => none
  | .injectField8 _ _ _ => none
  | .injectField16 _ _ _ => none
  | .setDefaultTimeout _ => none
  | .getDefaultTimeout => none

end Sys2Proof.Machine
end

