-- ==== Sys2Proof/Machine/Ops.lean ====
section
/-! DEFINITION. The operations every meaning is made of: the contexts, `respond` (00_scope R11; the
block's only form of taking an exception, 60_exceptions R207), the requests sent at the issue and
read-reply steps (10_state R28, R29), the rules shared by a family, the illegal word, the host's
steps and the reset event. -/

namespace Sys2Proof.Machine

/-- What one move of the block answers. -/
abbrev Result := Host.Outcome State Fault Refusal

/-! ### Contexts -/

/-- Context number `c`, if there is one (10_state R20). -/
def State.ctx? (s : State) (c : Nat) : Option Context :=
  match c with
  | 0 => some s.ctx0
  | j + 1 => s.more[j]?

/-- Replaces context number `c`. -/
def State.setCtx (s : State) (c : Nat) (k : Context) : State :=
  match c with
  | 0 => { s with ctx0 := k }
  | j + 1 => { s with more := s.more.set j k }

/-! ### Ending a command -/

/-- `respond X` (00_scope R11): writes `RESP`, goes to `IDLE`; the request has been answered, so none
is outstanding (60_exceptions R207).  Success and failure end a command alike. -/
def State.respond (s : State) (c : Nat) (k : Context) (r : Response) : State :=
  s.setCtx c { k with phase := .idle, resp := r.word, outstanding := none }

/-- A fresh unspecified value of this step (00_scope R11; log 5). -/
def State.draw (s : State) (c lane : Nat) : Word16 := Config.draw16 s.tick c lane

/-! ### Requests -/

/-- Sends the one read request of a command at its issue step (10_state R28). -/
def State.sendRead (s : State) (c : Nat) (k : Context) (bus : BusId) (cmd : Instr)
    (dev : DevAddr) (reg : Option RegAddr) (len : Nat) (t : Millis) : State :=
  s.setCtx c { k with
    phase := .rdWait
    cmdl := { cmd := cmd, bus := bus, timeout := some t }
    outstanding := some (.read bus dev reg len t) }

/-- Sends the one write request of a plain write at its issue step (10_state R28). -/
def State.sendWrite (s : State) (c : Nat) (k : Context) (bus : BusId) (cmd : Instr)
    (dev : DevAddr) (reg : RegAddr) (bytes : List Byte) : State :=
  s.setCtx c { k with
    phase := .wrWait
    cmdl := { cmd := cmd, bus := bus, timeout := none }
    outstanding := some (.write bus dev reg bytes) }

/-- Latches a new register value and sends it back, at the read-reply step of a bit or field write
(10_state R29, 41_field_access R141). -/
def State.sendBack (s : State) (c : Nat) (k : Context) (W : Width)
    (dev : DevAddr) (reg : RegAddr) (value : Word16) : State :=
  s.setCtx c { k with
    phase := .wrWait
    rvl := value
    outstanding := some (.write k.cmdl.bus dev reg (unitBytes W value)) }

/-! ### Replies -/

/-- How a reply breaks the two constraints on the transport (20_memory R57), if it does. -/
def ReadReply.breach (len : Nat) (t : Millis) : ReadReply → Option Refusal
  | .bytes b => if len < b.length then some .tooManyBytes else none
  | .busError => none
  | .timeout => if t = 0#16 then some .timeoutWithoutLimit else none

/-- The end of a single-unit, bit or field read: `f` makes the value of the register
(41_field_access R142 to R145, 42_unit_array_access R161, R162). -/
def State.reportRead (s : State) (W : Width) (f : Nat → Word16 → Word16)
    (c : Nat) (k : Context) (reply : ReadReply) : State :=
  match reply.unit W with
  | none => s.respond c k (.boolRead false (s.draw c 0))
  | some r => s.respond c k (.boolRead true (f c r))

/-- The write-reply step: `respond Write(reply = Ok)` (10_state R30). -/
def State.reportWrite (s : State) (c : Nat) (k : Context) (reply : WriteReply) : State :=
  s.respond c k (.write (reply == .ok))

/-- The read-reply step of `Rmw_W` (41_field_access R141): nothing is written after a failed read. -/
def State.modify (s : State) (W : Width) (dev : DevAddr) (reg : RegAddr) (f : FieldSpec)
    (value : Nat) (c : Nat) (k : Context) (reply : ReadReply) : State :=
  match reply.unit W with
  | none => s.respond c k (.write false)
  | some r => s.sendBack c k W dev reg (s.inject c W f r.toNat value)

/-- `BUF` after an array read of `n` units that delivered `us`: the delivered entries, draws up to
`n`, the old entries from `n` on (42_unit_array_access R163). -/
def State.fillBuf (s : State) (c : Nat) (k : Context) (n : Nat) (us : List Word16) :
    Vector Word16 256 :=
  Vector.ofFn fun i =>
    us[i.val]?.getD (if i.val < n then s.draw c i.val else k.buf[i.val])

/-- The read-reply step of `ArrayRead_W` (42_unit_array_access R163).  A failed read of count 0,
which only the other setting of 93 U4 can make, still answers `Count(0)`. -/
def State.reportArray (s : State) (W : Width) (n : Nat)
    (c : Nat) (k : Context) (reply : ReadReply) : State :=
  match reply with
  | .bytes b =>
    s.respond c { k with buf := s.fillBuf c k n (unitsOfBytes W b) }
      (.count (unitsOfBytes W b).length)
  | .busError =>
    s.respond c { k with buf := s.fillBuf c k n [] } (if n = 0 then .count 0 else .sentinelA)
  | .timeout =>
    s.respond c { k with buf := s.fillBuf c k n [] } (if n = 0 then .count 0 else .sentinelB)

/-! ### The rule of a command, cut into its steps (10_state R28 to R30) -/

/-- What a command does at each step it has.  A missing step means that the command's rule never
awaits that reply. -/
structure CommandRule where
  /-- The issue step (10_state R28). -/
  issue : Nat → Context → BusId → State
  /-- The read-reply step (10_state R29). -/
  readReply : Option (Nat → Context → ReadReply → State)
  /-- The write-reply step (10_state R30). -/
  writeReply : Option (Nat → Context → WriteReply → State)

/-- Runs the step of a command that the next move asks for: the issue step in an idle context, a
reply step in a context that awaits that reply. -/
def State.run (s : State) (rule : CommandRule) : Result :=
  match s.inputs.head? with
  | some (.command c bus _) =>
    match s.ctx? c with
    | none => .refused .noSuchContext
    | some k =>
      match k.phase with
      | .idle => .next (rule.issue c k bus)
      | .rdWait => .refused .hostWhileBusy
      | .wrWait => .refused .hostWhileBusy
  | some (.readReply c reply) =>
    match s.ctx? c with
    | none => .refused .noSuchContext
    | some k =>
      match k.phase, k.outstanding, rule.readReply with
      | .rdWait, some (.read _ _ _ len t), some f =>
        match reply.breach len t with
        | none => .next (f c k reply)
        | some r => .refused r
      | _, _, _ => .refused .replyNotAwaited
  | some (.writeReply c reply) =>
    match s.ctx? c with
    | none => .refused .noSuchContext
    | some k =>
      match k.phase, k.outstanding, rule.writeReply with
      | .wrWait, some (.write _ _ _ _), some f => .next (f c k reply)
      | _, _, _ => .refused .replyNotAwaited
  | _ => .refused .noCommandMove

/-! ### The rules the commands share -/

/-- A command that executes wholly inside its issue step (10_state R28). -/
def immediateRule (issue : Nat → Context → BusId → State) : CommandRule :=
  { issue := issue, readReply := none, writeReply := none }

/-- A codec command: answers the value `f` makes in that context (40_codec R122 to R126). -/
def State.valueRule (s : State) (f : Nat → Word16) : CommandRule :=
  immediateRule fun c k _ => s.respond c k (.value (f c))

/-- A command that is one read of a full register (41_field_access R140). -/
def State.unitReadRule (s : State) (cmd : Instr) (W : Width) (dev : DevAddr) (reg : RegAddr)
    (timeout : Option Millis) (f : Nat → Word16 → Word16) : CommandRule :=
  { issue := fun c k bus =>
      s.sendRead c k bus cmd dev (some reg) W.bytes (s.effectiveTimeout timeout)
    readReply := some (s.reportRead W f)
    writeReply := none }

/-- The read-modify-write protocol `Rmw_W` (41_field_access R141). -/
def State.rmwRule (s : State) (cmd : Instr) (W : Width) (dev : DevAddr) (reg : RegAddr)
    (f : FieldSpec) (value : Nat) : CommandRule :=
  { issue := fun c k bus => s.sendRead c k bus cmd dev (some reg) W.bytes (s.effectiveTimeout none)
    readReply := some (s.modify W dev reg f value)
    writeReply := some s.reportWrite }

/-- `ArrayRead_W` (42_unit_array_access R163). -/
def State.arrayReadRule (s : State) (cmd : Instr) (W : Width) (dev : DevAddr)
    (reg : Option RegAddr) (n : Nat) (timeout : Option Millis) : CommandRule :=
  { issue := fun c k bus =>
      if n = 0 ∧ s.policy.zeroCount = .noRequest then s.respond c k (.count 0)
      else s.sendRead c k bus cmd dev reg (n * W.bytes) (s.effectiveTimeout timeout)
    readReply := some (s.reportArray W n)
    writeReply := none }

/-- A plain write of one unit (42_unit_array_access R167, R168). -/
def State.unitWriteRule (s : State) (cmd : Instr) (dev : DevAddr) (reg : RegAddr)
    (bytes : List Byte) : CommandRule :=
  { issue := fun c k bus => s.sendWrite c k bus cmd dev reg bytes
    readReply := none
    writeReply := some s.reportWrite }

/-- An array write (42_unit_array_access R169, R170). -/
def State.arrayWriteRule (s : State) (cmd : Instr) (W : Width) (dev : DevAddr) (reg : RegAddr)
    (n : Nat) : CommandRule :=
  { issue := fun c k bus =>
      if n = 0 ∧ s.policy.zeroCount = .noRequest then s.respond c k (.write true)
      else s.sendWrite c k bus cmd dev reg (k.sendBytes W n)
    readReply := none
    writeReply := some s.reportWrite }

/-- An illegal command word: answered at the issue step, nothing else changes (10_state R28,
30_encoding R95, 60_exceptions R205). -/
def State.answerIllegal (s : State) : Result :=
  s.run (immediateRule fun c k _ => s.respond c k .illegal)

/-! ### The host's steps on `BUF` and `RESP` (10_state R27, R32, 60_exceptions R217) -/

/-- The host writes an entry of the `BUF` of an idle context. -/
def State.hostWriteBuf (s : State) (c : Nat) (index : BitVec 8) (value : Word16) : Result :=
  match s.ctx? c with
  | none => .refused .noSuchContext
  | some k =>
    if k.phase = .idle then
      .next (s.setCtx c { k with buf := k.buf.set index.toNat value index.isLt })
    else .refused .hostWhileBusy

/-- The host reads an entry of the `BUF` of an idle context. -/
def State.hostReadBuf (s : State) (c : Nat) (index : BitVec 8) : Result :=
  match s.ctx? c with
  | none => .refused .noSuchContext
  | some k =>
    if k.phase = .idle then
      .next { s with hostData := some ((k.buf[index.toNat]'index.isLt).setWidth 32) }
    else .refused .hostWhileBusy

/-- The host reads `RESP`, at any time. -/
def State.hostReadResp (s : State) (c : Nat) : Result :=
  match s.ctx? c with
  | none => .refused .noSuchContext
  | some k => .next { s with hostData := some k.resp }

/-! ### Reset (70_reset R230, R231) -/

/-- All contexts, context 0 first. -/
def State.contexts (s : State) : List Context := s.ctx0 :: s.more

/-- The reset event: every context to `IDLE` with nothing outstanding, the default timeout to its
compiled default, everything else unspecified anew; the requests that were outstanding are
abandoned and get no response (70_reset R230, R231; log 10). -/
def State.resetEvent (s : State) : State :=
  { s with
    defaultTimeout := Config.timeoutReset
    ctx0 := Context.afterReset s.tick 0
    more := resetContexts s.tick s.more.length
    abandoned := s.abandoned ++ s.contexts.filterMap Context.outstanding
    hostData := none }

/-- The reply to an abandoned request comes and is discarded (70_reset R231). -/
def State.discardReply (s : State) (index : Nat) : Result :=
  if index < s.abandoned.length then .next { s with abandoned := s.abandoned.eraseIdx index }
  else .refused .noSuchAbandonedRequest

end Sys2Proof.Machine
end

