-- ==== Sys2Proof/Machine/Codec.lean ====
section
/-! DEFINITION. The codec commands (40_codec R120 to R132).  The field specification is never
checked (R127, R128). -/

namespace Sys2Proof.Machine

/-- `extractField8` (40_codec R122). -/
def execExtractField8 (rv : Byte) (f : FieldSpec) (s : State) : Result :=
  s.run (s.valueRule fun c => s.extract c .w8 f rv.toNat)

/-- `extractField16` (40_codec R123). -/
def execExtractField16 (rv : Word16) (f : FieldSpec) (s : State) : Result :=
  s.run (s.valueRule fun c => s.extract c .w16 f rv.toNat)

/-- `injectField8` (40_codec R125). -/
def execInjectField8 (rv : Byte) (f : FieldSpec) (value : Byte) (s : State) : Result :=
  s.run (s.valueRule fun c => s.inject c .w8 f rv.toNat value.toNat)

/-- `injectField16` (40_codec R126). -/
def execInjectField16 (rv : Word16) (f : FieldSpec) (value : Word16) (s : State) : Result :=
  s.run (s.valueRule fun c => s.inject c .w16 f rv.toNat value.toNat)

end Sys2Proof.Machine
end

