-- ==== Sys2Proof/Machine/Configuration.lean ====
section
/-! DEFINITION. The configuration commands (43_config R190 to R194). -/

namespace Sys2Proof.Machine

/-- `setDefaultTimeout` (43_config R190). -/
def execSetDefaultTimeout (ms : Millis) (s : State) : Result :=
  s.run (immediateRule fun c k _ => { s with defaultTimeout := ms }.respond c k (.value 0))

/-- `getDefaultTimeout` (43_config R191). -/
def execGetDefaultTimeout (s : State) : Result :=
  s.run (s.valueRule fun _ => s.defaultTimeout)

end Sys2Proof.Machine
end

