-- ==== Sys2Proof/Machine/FieldAccess.lean ====
section
/-! DEFINITION. Bit and bit-field access, the read-modify-write controller
(41_field_access R140 to R150). -/

namespace Sys2Proof.Machine

/-- `readBit` (41_field_access R142). -/
def execReadBit (dev : DevAddr) (reg : RegAddr) (b : Nat) (t : Option Millis) (s : State) : Result :=
  s.run (s.unitReadRule (.readBit dev reg b t) .w8 dev reg t fun c r =>
    s.extract c .w8 (FieldSpec.bit b) r.toNat)

/-- `readBitW` (41_field_access R143). -/
def execReadBitW (dev : DevAddr) (reg : RegAddr) (b : Nat) (t : Option Millis) (s : State) : Result :=
  s.run (s.unitReadRule (.readBitW dev reg b t) .w16 dev reg t fun c r =>
    s.extract c .w16 (FieldSpec.bit b) r.toNat)

/-- `readBits` (41_field_access R144). -/
def execReadBits (dev : DevAddr) (reg : RegAddr) (f : FieldSpec) (t : Option Millis) (s : State) :
    Result :=
  s.run (s.unitReadRule (.readBits dev reg f t) .w8 dev reg t fun c r => s.extract c .w8 f r.toNat)

/-- `readBitsW` (41_field_access R145). -/
def execReadBitsW (dev : DevAddr) (reg : RegAddr) (f : FieldSpec) (t : Option Millis) (s : State) :
    Result :=
  s.run (s.unitReadRule (.readBitsW dev reg f t) .w16 dev reg t fun c r =>
    s.extract c .w16 f r.toNat)

/-- `writeBit` (41_field_access R146). -/
def execWriteBit (dev : DevAddr) (reg : RegAddr) (b : Nat) (bit : BitVec 1) (s : State) : Result :=
  s.run (s.rmwRule (.writeBit dev reg b bit) .w8 dev reg (FieldSpec.bit b) bit.toNat)

/-- `writeBitW` (41_field_access R147). -/
def execWriteBitW (dev : DevAddr) (reg : RegAddr) (b : Nat) (bit : BitVec 1) (s : State) : Result :=
  s.run (s.rmwRule (.writeBitW dev reg b bit) .w16 dev reg (FieldSpec.bit b) bit.toNat)

/-- `writeBits` (41_field_access R148). -/
def execWriteBits (dev : DevAddr) (reg : RegAddr) (f : FieldSpec) (value : Byte) (s : State) :
    Result :=
  s.run (s.rmwRule (.writeBits dev reg f value) .w8 dev reg f value.toNat)

/-- `writeBitsW` (41_field_access R149). -/
def execWriteBitsW (dev : DevAddr) (reg : RegAddr) (f : FieldSpec) (value : Word16) (s : State) :
    Result :=
  s.run (s.rmwRule (.writeBitsW dev reg f value) .w16 dev reg f value.toNat)

end Sys2Proof.Machine
end

