-- ==== Sys2Proof/Machine/UnitArray.lean ====
section
/-! DEFINITION. Unit and array access (42_unit_array_access R160 to R172). -/

namespace Sys2Proof.Machine

/-- `readByte` (42_unit_array_access R161). -/
def execReadByte (dev : DevAddr) (reg : RegAddr) (t : Option Millis) (s : State) : Result :=
  s.run (s.unitReadRule (.readByte dev reg t) .w8 dev reg t fun _ r => r)

/-- `readWord` (42_unit_array_access R162). -/
def execReadWord (dev : DevAddr) (reg : RegAddr) (t : Option Millis) (s : State) : Result :=
  s.run (s.unitReadRule (.readWord dev reg t) .w16 dev reg t fun _ r => r)

/-- `readBytes` (42_unit_array_access R164). -/
def execReadBytes (dev : DevAddr) (reg : RegAddr) (n : Nat) (t : Option Millis) (s : State) :
    Result :=
  s.run (s.arrayReadRule (.readBytes dev reg n t) .w8 dev (some reg) n t)

/-- `readWords` (42_unit_array_access R166). -/
def execReadWords (dev : DevAddr) (reg : RegAddr) (n : Nat) (t : Option Millis) (s : State) :
    Result :=
  s.run (s.arrayReadRule (.readWords dev reg n t) .w16 dev (some reg) n t)

/-- `readBytesNoRegAddress` (42_unit_array_access R165). -/
def execReadBytesNoRegAddress (dev : DevAddr) (n : Nat) (t : Option Millis) (s : State) : Result :=
  s.run (s.arrayReadRule (.readBytesNoRegAddress dev n t) .w8 dev none n t)

/-- `writeByte` (42_unit_array_access R167). -/
def execWriteByte (dev : DevAddr) (reg : RegAddr) (value : Byte) (s : State) : Result :=
  s.run (s.unitWriteRule (.writeByte dev reg value) dev reg [value])

/-- `writeWord` (42_unit_array_access R168). -/
def execWriteWord (dev : DevAddr) (reg : RegAddr) (value : Word16) (s : State) : Result :=
  s.run (s.unitWriteRule (.writeWord dev reg value) dev reg [highByte value, lowByte value])

/-- `writeBytes` (42_unit_array_access R169). -/
def execWriteBytes (dev : DevAddr) (reg : RegAddr) (n : Nat) (s : State) : Result :=
  s.run (s.arrayWriteRule (.writeBytes dev reg n) .w8 dev reg n)

/-- `writeWords` (42_unit_array_access R170). -/
def execWriteWords (dev : DevAddr) (reg : RegAddr) (n : Nat) (s : State) : Result :=
  s.run (s.arrayWriteRule (.writeWords dev reg n) .w16 dev reg n)

end Sys2Proof.Machine
end

