-- ==== Sys2Proof/Machine/Dispatch.lean ====
section
/-! DEFINITION. One arm per command: the step of that command that the next move asks for
(10_state R28 to R30). -/

namespace Sys2Proof.Machine

def exec (i : Instr) (s : State) : Host.Outcome State Fault Refusal :=
  match i with
  | .readBit dev reg b t => Sys2Proof.Machine.execReadBit dev reg b t s
  | .readBitW dev reg b t => Sys2Proof.Machine.execReadBitW dev reg b t s
  | .readBits dev reg f t => Sys2Proof.Machine.execReadBits dev reg f t s
  | .readBitsW dev reg f t => Sys2Proof.Machine.execReadBitsW dev reg f t s
  | .readByte dev reg t => Sys2Proof.Machine.execReadByte dev reg t s
  | .readWord dev reg t => Sys2Proof.Machine.execReadWord dev reg t s
  | .readBytes dev reg n t => Sys2Proof.Machine.execReadBytes dev reg n t s
  | .readWords dev reg n t => Sys2Proof.Machine.execReadWords dev reg n t s
  | .readBytesNoRegAddress dev n t => Sys2Proof.Machine.execReadBytesNoRegAddress dev n t s
  | .writeBit dev reg b bit => Sys2Proof.Machine.execWriteBit dev reg b bit s
  | .writeBitW dev reg b bit => Sys2Proof.Machine.execWriteBitW dev reg b bit s
  | .writeBits dev reg f v => Sys2Proof.Machine.execWriteBits dev reg f v s
  | .writeBitsW dev reg f v => Sys2Proof.Machine.execWriteBitsW dev reg f v s
  | .writeByte dev reg v => Sys2Proof.Machine.execWriteByte dev reg v s
  | .writeWord dev reg v => Sys2Proof.Machine.execWriteWord dev reg v s
  | .writeBytes dev reg n => Sys2Proof.Machine.execWriteBytes dev reg n s
  | .writeWords dev reg n => Sys2Proof.Machine.execWriteWords dev reg n s
  | .extractField8 rv f => Sys2Proof.Machine.execExtractField8 rv f s
  | .extractField16 rv f => Sys2Proof.Machine.execExtractField16 rv f s
  | .injectField8 rv f v => Sys2Proof.Machine.execInjectField8 rv f v s
  | .injectField16 rv f v => Sys2Proof.Machine.execInjectField16 rv f v s
  | .setDefaultTimeout ms => Sys2Proof.Machine.execSetDefaultTimeout ms s
  | .getDefaultTimeout => Sys2Proof.Machine.execGetDefaultTimeout s

end Sys2Proof.Machine
end

