-- ==== Sys2Proof/Machine/Moves.lean ====
section
/-! DEFINITION. The parts of a move that `step` puts together: decoding a presented word, finding the
command a reply belongs to, and passing to the next input. -/

namespace Sys2Proof.Machine

/-- The input just handled is gone, and the draws of the next step are new ones (log 5). -/
def State.advance (s : State) : State := { s with inputs := s.inputs.tail, tick := s.tick + 1 }

/-- `State.advance` on a next state. -/
def finish : Result → Result
  | .next s => .next s.advance
  | .fault r => .fault r
  | .refused r => .refused r

/-- The issue step for a command word (10_state R28). -/
def stepCommand (w : CommandWord) (s : State) : Result :=
  match decode w with
  | .ok i => exec i s
  | .error _ => s.answerIllegal

/-- A reply step: the rest of the rule of the command in progress (10_state R29, R30). -/
def stepReply (c : Nat) (s : State) : Result :=
  match s.ctx? c with
  | none => .refused .noSuchContext
  | some k =>
    match k.phase with
    | .idle => .refused .replyNotAwaited
    | .rdWait => exec k.cmdl.cmd s
    | .wrWait => exec k.cmdl.cmd s

end Sys2Proof.Machine
end

