-- ==== Sys2Proof/Machine/Step.lean ====
section
/-! DEFINITION. One move of the block: the next input is taken and the step it asks for is run
(10_state R28 to R31). -/

namespace Sys2Proof.Machine

/-- One move.  With no input the block waits, for ever if none comes (10_state R31, 93 U14; log 7). -/
def step (s : State) : Host.Outcome State Fault Refusal :=
  match s.inputs with
  | [] => .next s
  | .command _ _ w :: _ => finish (stepCommand w s)
  | .readReply c _ :: _ => finish (stepReply c s)
  | .writeReply c _ :: _ => finish (stepReply c s)
  | .hostWriteBuf c i v :: _ => finish (s.hostWriteBuf c i v)
  | .hostReadBuf c i :: _ => finish (s.hostReadBuf c i)
  | .hostReadResp c :: _ => finish (s.hostReadResp c)
  | .reset :: _ => finish (.next s.resetEvent)
  | .abandonedReply j :: _ => finish (s.discardReply j)

/-- Context 0 ready for a command (10_state R24): `IDLE`, nothing outstanding. -/
def State.readyContext0 (s : State) : State :=
  { s with ctx0 := { s.ctx0 with phase := .idle, outstanding := none } }

/-- The host's next move presents the command word `w` to context 0, with bus handle 0 (log 17). -/
def State.withFetchWord (s : State) (nbits w : Nat) : State :=
  { s.readyContext0 with
    inputs := .command 0 0 (BitVec.ofNat 64 (w % 2 ^ nbits)) :: s.inputs }

end Sys2Proof.Machine
end

