-- ==== Sys2Proof/Machine/Memory.lean ====
section
/-! DEFINITION. Byte memory for the reference devices (20_memory R73): a list of cells in one
canonical form.  The block itself holds no memory but `BUF` (10_state R34, 20_memory R50). -/

namespace Sys2Proof.Machine

/-- Cells with strictly rising addresses, none equal to what an unlisted address reads as. -/
abbrev Memory := List Host.Cell

/-- What an unlisted address reads as: 0, the start of every test program
(95_test_vectors Part 8). -/
def Memory.blank : Byte := 0

/-- The byte at an address. -/
def Memory.read : Memory → Nat → Byte
  | [], _ => Memory.blank
  | (b, x) :: m, a => if a = b then x else Memory.read m a

/-- The memory with one byte replaced, in canonical form. -/
def Memory.write : Memory → Nat → Byte → Memory
  | [], a, v => if v = Memory.blank then [] else [(a, v)]
  | (b, x) :: m, a, v =>
    if a < b then (if v = Memory.blank then (b, x) :: m else (a, v) :: (b, x) :: m)
    else if a = b then (if v = Memory.blank then m else (b, v) :: m)
    else (b, x) :: Memory.write m a v

/-- Every address of the list is above `a`, rising, and no cell is blank. -/
def Memory.wfAbove (a : Nat) : Memory → Bool
  | [] => true
  | (b, x) :: m => decide (a < b) && (x != Memory.blank) && Memory.wfAbove b m

/-- The canonical form. -/
def Memory.wf : Memory → Bool
  | [] => true
  | (b, x) :: m => (x != Memory.blank) && Memory.wfAbove b m

end Sys2Proof.Machine
end

