-- ==== Sys2Proof/Machine/RefDevices.lean ====
section
/-! DEFINITION. The three reference environments of 20_memory R73.  They are no part of the hardware
and no meaning mentions them; they answer the requests of a context in the programs of
95_test_vectors (log 21). -/

namespace Sys2Proof.Machine

/-- The number of the device `(bus, dev)`. -/
def deviceKey (bus : BusId) (dev : DevAddr) : Nat := bus * 128 + dev.toNat

/-- The number of the register `(bus, dev, reg)` (20_memory R50). -/
def registerKey (bus : BusId) (dev : DevAddr) (reg : RegAddr) : Nat :=
  deviceKey bus dev * 256 + reg.toNat

/-! ### StoreDev8 -/

/-- `StoreDev8`: the bytes `M8`, by register, and the pointers `P`, by device. -/
structure StoreDev8 where
  /-- `M8` of every device. -/
  regs : Memory
  /-- `P` of every device. -/
  pointers : Memory
deriving DecidableEq, Repr

/-- Every byte 0 and every pointer 0, as the programs of 95_test_vectors Part 8 start. -/
def StoreDev8.initial : StoreDev8 := { regs := [], pointers := [] }

/-- `len` bytes from register `r` on, modulo 256. -/
def StoreDev8.load (d : StoreDev8) (bus : BusId) (dev : DevAddr) (r : RegAddr) : Nat → List Byte
  | 0 => []
  | n + 1 => d.regs.read (registerKey bus dev r) :: d.load bus dev (r + 1) n

/-- Bytes stored from register `r` on, modulo 256, in order. -/
def storeBytes (m : Memory) (bus : BusId) (dev : DevAddr) (r : RegAddr) : List Byte → Memory
  | [] => m
  | b :: bs => storeBytes (m.write (registerKey bus dev r) b) bus dev (r + 1) bs

/-- The pointer `P` of a device. -/
def StoreDev8.pointer (d : StoreDev8) (bus : BusId) (dev : DevAddr) : RegAddr :=
  d.pointers.read (deviceKey bus dev)

/-- Sets the pointer `P` of a device. -/
def StoreDev8.point (d : StoreDev8) (bus : BusId) (dev : DevAddr) (p : RegAddr) : StoreDev8 :=
  { d with pointers := d.pointers.write (deviceKey bus dev) p }

/-- The answer to a request of context `c`, and the device after it. -/
def StoreDev8.answer (d : StoreDev8) (c : Nat) : Request → Input × StoreDev8
  | .read bus dev reg len _ =>
    (.readReply c (.bytes (d.load bus dev (reg.getD (d.pointer bus dev)) len)),
      d.point bus dev (reg.getD (d.pointer bus dev) + BitVec.ofNat 8 len))
  | .write bus dev reg bytes =>
    (.writeReply c .ok,
      { d with regs := storeBytes d.regs bus dev reg bytes }.point bus dev
        (reg + BitVec.ofNat 8 bytes.length))

/-! ### StoreDev16 -/

/-- `StoreDev16`: the words `M16`, the high byte of a register at twice its number, the low byte
next to it. -/
structure StoreDev16 where
  /-- `M16` of every device. -/
  regs : Memory
deriving DecidableEq, Repr

/-- Every word 0, as the programs of 95_test_vectors Part 8 start. -/
def StoreDev16.initial : StoreDev16 := { regs := [] }

/-- `n` words from register `r` on, modulo 256, each as its two bytes, the high one first. -/
def StoreDev16.load (d : StoreDev16) (bus : BusId) (dev : DevAddr) (r : RegAddr) : Nat → List Byte
  | 0 => []
  | n + 1 =>
    d.regs.read (2 * registerKey bus dev r) :: d.regs.read (2 * registerKey bus dev r + 1) ::
      d.load bus dev (r + 1) n

/-- Pairs of bytes stored as words from register `r` on, modulo 256, in order. -/
def storeWords (m : Memory) (bus : BusId) (dev : DevAddr) (r : RegAddr) : List Byte → Memory
  | b0 :: b1 :: bs =>
    storeWords ((m.write (2 * registerKey bus dev r) b0).write (2 * registerKey bus dev r + 1) b1)
      bus dev (r + 1) bs
  | _ => m

/-- The answer to a request of context `c`, and the device after it: an odd length or no register
address is an error. -/
def StoreDev16.answer (d : StoreDev16) (c : Nat) : Request → Input × StoreDev16
  | .read bus dev reg len _ =>
    match reg with
    | none => (.readReply c .busError, d)
    | some r =>
      if len % 2 = 0 then (.readReply c (.bytes (d.load bus dev r (len / 2))), d)
      else (.readReply c .busError, d)
  | .write bus dev reg bytes =>
    if bytes.length % 2 = 0 then
      (.writeReply c .ok, { regs := storeWords d.regs bus dev reg bytes })
    else (.writeReply c .error, d)

/-! ### FailRead -/

/-- `FailRead`: counts the writes. -/
structure FailRead where
  /-- `writes`. -/
  writes : Nat
deriving DecidableEq, Repr

/-- The counter starts at 0 (20_memory R73). -/
def FailRead.initial : FailRead := { writes := 0 }

/-- Every read fails, every write is counted. -/
def FailRead.answer (d : FailRead) (c : Nat) : Request → Input × FailRead
  | .read _ _ _ _ _ => (.readReply c .busError, d)
  | .write _ _ _ _ => (.writeReply c .ok, { writes := d.writes + 1 })

end Sys2Proof.Machine
end

