-- ==== Sys2Proof/Machine/Bench.lean ====
section
/-! DEFINITION. A block and an environment that answers its requests, one command after another, as
the programs of 95_test_vectors Part 8 run.  Nothing of the machine depends on it. -/

namespace Sys2Proof.Machine

/-- One move on a given input, if the block makes it. -/
def State.feed (s : State) (i : Input) : Option State :=
  match step { s with inputs := [i] } with
  | .next s' => some s'
  | .fault _ => none
  | .refused _ => none

/-- The environment answers the outstanding request of context `c`, if there is one. -/
def serve {D : Type} (answer : D → Nat → Request → Input × D) (c : Nat) (x : State × D) :
    Option (State × D) :=
  match x.1.ctx? c with
  | none => none
  | some k =>
    match k.outstanding with
    | none => some x
    | some req =>
      match x.1.feed (answer x.2 c req).1 with
      | none => none
      | some s => some (s, (answer x.2 c req).2)

/-- A whole command on context `c`: presented, then at most two requests answered
(41_field_access R141). -/
def runCommand {D : Type} (answer : D → Nat → Request → Input × D) (c : Nat) (bus : BusId)
    (w : CommandWord) (x : State × D) : Option (State × D) :=
  match x.1.feed (.command c bus w) with
  | none => none
  | some s => (serve answer c (s, x.2)).bind (serve answer c)

end Sys2Proof.Machine
end

