-- ==== Sys2Proof/Safety.lean ====
section
/-! DEFINITION. What the claims speak of: the states a run reaches (10_state R24 to R26,
20_memory R56, R58), the moves the surroundings have (60_exceptions R217, 20_memory R57), and what a
move leaves alone. -/

namespace Sys2Proof.Machine

/-! ### Illegal words -/

/-- The word is illegal: its opcode names no row, or a bit its row reserves is wrong, or its format has
`TOV`, `TOV = 0` and `TMO` is not 0 (30_encoding R95). -/
def illegalWord (w : CommandWord) : Prop :=
  rowOf (fieldOp w) = none ∨
    ∃ row, rowOf (fieldOp w) = some row ∧
      (w &&& row.mask ≠ row.pattern ∨
        (row.format.hasTov = true ∧ fieldTov w = 0#1 ∧ fieldTmo w ≠ 0#16))

/-! ### States that runs reach -/

/-- The number of bytes a request moves. -/
def Request.size : Request → Nat
  | .read _ _ _ len _ => len
  | .write _ _ _ bytes => bytes.length

/-- The commands that send a whole byte back after reading it (41_field_access R146, R148). -/
def isByteModify : Instr → Bool
  | .readBit _ _ _ _ => false
  | .readBitW _ _ _ _ => false
  | .readBits _ _ _ _ => false
  | .readBitsW _ _ _ _ => false
  | .readByte _ _ _ => false
  | .readWord _ _ _ => false
  | .readBytes _ _ _ _ => false
  | .readWords _ _ _ _ => false
  | .readBytesNoRegAddress _ _ _ => false
  | .writeBit _ _ _ _ => true
  | .writeBitW _ _ _ _ => false
  | .writeBits _ _ _ _ => true
  | .writeBitsW _ _ _ _ => false
  | .writeByte _ _ _ => false
  | .writeWord _ _ _ => false
  | .writeBytes _ _ _ => false
  | .writeWords _ _ _ => false
  | .extractField8 _ _ => false
  | .extractField16 _ _ => false
  | .injectField8 _ _ _ => false
  | .injectField16 _ _ _ => false
  | .setDefaultTimeout _ => false
  | .getDefaultTimeout => false

/-- What `PHASE` says of the rest of a context.  `IDLE`: nothing is outstanding.  `RD_WAIT`: the
outstanding request is the read request of the latched command, with the latched timeout, which is
the command's own where it carries one.  `WR_WAIT`: it is the write request of the latched command,
with the value latched in `RVL` (10_state R24, R25, R26). -/
abbrev Context.coherent (k : Context) : Prop :=
  match k.phase with
  | .idle => k.outstanding = none
  | .rdWait =>
    k.outstanding.isSome = true ∧
      k.outstanding = k.cmdl.timeout.bind (fun t => readRequest k.cmdl.bus t k.cmdl.cmd) ∧
      (explicitTimeout k.cmdl.cmd = none ∨ explicitTimeout k.cmdl.cmd = k.cmdl.timeout)
  | .wrWait =>
    k.outstanding.isSome = true ∧
      k.outstanding = writeRequest k k.cmdl.bus k.cmdl.cmd ∧
      (isByteModify k.cmdl.cmd = true → k.rvl.toNat < 256)

/-- The outstanding request of a context moves 1 to 510 bytes; 0 bytes are possible only under the
other setting of 93 U4 (20_memory R56, R58). -/
def State.requestSized (s : State) (k : Context) : Prop :=
  ∀ r, k.outstanding = some r →
    r.size ≤ 510 ∧ (s.policy.zeroCount = .noRequest → 1 ≤ r.size)

/-- A context of a state that a run reaches. -/
structure State.ContextInv (s : State) (k : Context) : Prop where
  /-- The parts of the context fit together. -/
  coherent : k.coherent
  /-- A latched command is one the decoder gave. -/
  wf : k.phase ≠ .idle → k.cmdl.cmd.wf = true
  /-- Its request has a legal length. -/
  sized : s.requestSized k

/-- The invariant: every context is as a run leaves it. -/
def State.Inv (s : State) : Prop := ∀ c k, s.ctx? c = some k → s.ContextInv k

/-! ### Moves the surroundings have -/

/-- The next move is one that the host or the transport may make: a command or an access to `BUF` in
an idle context, a reply that is awaited and keeps the constraints of 20_memory R57
(60_exceptions R217). -/
def State.Admits (s : State) : Prop :=
  match s.inputs with
  | [] => True
  | .command c _ _ :: _ => ∃ k, s.ctx? c = some k ∧ k.phase = .idle
  | .readReply c reply :: _ =>
    ∃ k bus dev reg len t, s.ctx? c = some k ∧ k.phase = .rdWait ∧
      k.outstanding = some (.read bus dev reg len t) ∧ reply.breach len t = none
  | .writeReply c _ :: _ => ∃ k, s.ctx? c = some k ∧ k.phase = .wrWait
  | .hostWriteBuf c _ _ :: _ => ∃ k, s.ctx? c = some k ∧ k.phase = .idle
  | .hostReadBuf c _ :: _ => ∃ k, s.ctx? c = some k ∧ k.phase = .idle
  | .hostReadResp c :: _ => ∃ k, s.ctx? c = some k
  | .reset :: _ => True
  | .abandonedReply j :: _ => j < s.abandoned.length

/-- The context a move is addressed to. -/
def Input.target : Input → Option Nat
  | .command c _ _ => some c
  | .readReply c _ => some c
  | .writeReply c _ => some c
  | .hostWriteBuf c _ _ => some c
  | .hostReadBuf c _ => some c
  | .hostReadResp c => some c
  | .reset => none
  | .abandonedReply _ => none

/-- The move answers a request of context `c`, or is a reset. -/
def Input.endsWait (c : Nat) : Input → Bool
  | .command _ _ _ => false
  | .readReply d _ => c == d
  | .writeReply d _ => c == d
  | .hostWriteBuf _ _ _ => false
  | .hostReadBuf _ _ => false
  | .hostReadResp _ => false
  | .reset => true
  | .abandonedReply _ => false

/-! ### Situations a meaning runs in -/

/-- The host presents a command to context `c`, which is idle (10_state R28). -/
structure State.Issuing (s : State) (c : Nat) (bus : BusId) (k : Context) : Prop where
  /-- The move is a command for `c` with this bus handle. -/
  move : ∃ w rest, s.inputs = .command c bus w :: rest
  /-- `k` is context `c`. -/
  ctx : s.ctx? c = some k
  /-- It is idle. -/
  idle : k.phase = .idle

/-- The transport answers the read request of context `c` within the constraints of 20_memory R57
(10_state R29). -/
structure State.ReadAnswered (s : State) (c : Nat) (k : Context) (reply : ReadReply) : Prop where
  /-- The move is this reply for `c`. -/
  move : ∃ rest, s.inputs = .readReply c reply :: rest
  /-- `k` is context `c`. -/
  ctx : s.ctx? c = some k
  /-- It waits for a read. -/
  waits : k.phase = .rdWait
  /-- The reply is one the transport may give to its request. -/
  allowed : ∃ bus dev reg len t,
    k.outstanding = some (.read bus dev reg len t) ∧ reply.breach len t = none

/-- The transport answers the write request of context `c` (10_state R30). -/
structure State.WriteAnswered (s : State) (c : Nat) (k : Context) (reply : WriteReply) : Prop where
  /-- The move is this reply for `c`. -/
  move : ∃ rest, s.inputs = .writeReply c reply :: rest
  /-- `k` is context `c`. -/
  ctx : s.ctx? c = some k
  /-- It waits for a write. -/
  waits : k.phase = .wrWait
  /-- A write request is outstanding. -/
  awaited : ∃ bus dev reg bytes, k.outstanding = some (.write bus dev reg bytes)

/-! ### What a meaning leaves alone -/

/-- `t` is `s` with context `c` equal to `k'` and nothing else changed. -/
structure OnlyContext (s t : State) (c : Nat) (k' : Context) : Prop where
  /-- Context `c` is `k'`. -/
  here : t.ctx? c = some k'
  /-- Every other context is as before. -/
  others : ∀ d, d ≠ c → t.ctx? d = s.ctx? d
  /-- `DEFAULT_TIMEOUT` is as before. -/
  defaultTimeout : t.defaultTimeout = s.defaultTimeout
  /-- The abandoned requests are as before. -/
  abandoned : t.abandoned = s.abandoned
  /-- The policy is as before. -/
  policy : t.policy = s.policy
  /-- The moves to come are as before. -/
  inputs : t.inputs = s.inputs
  /-- The draw counter is as before. -/
  tick : t.tick = s.tick
  /-- The host's read data are as before. -/
  hostData : t.hostData = s.hostData

/-- A context in which a command has ended (00_scope R11): the response, `IDLE`, nothing outstanding;
`CMDL` and `RVL` as before. -/
structure Ended (k k' : Context) (p : ResponseWord) : Prop where
  /-- `RESP`. -/
  resp : k'.resp = p
  /-- `PHASE`. -/
  phase : k'.phase = .idle
  /-- No request. -/
  outstanding : k'.outstanding = none
  /-- `CMDL` is as before. -/
  cmdl : k'.cmdl = k.cmdl
  /-- `RVL` is as before. -/
  rvl : k'.rvl = k.rvl

/-- A command has ended and `BUF` is as before. -/
structure Answered (k k' : Context) (p : ResponseWord) : Prop extends Ended k k' p where
  /-- `BUF` is as before. -/
  buf : k'.buf = k.buf

/-- A context after an issue step that sends a request (10_state R28): `RVL`, `BUF` and `RESP` as
before. -/
structure Sent (k k' : Context) (phase : Phase) (cmdl : Latched) (r : Request) : Prop where
  /-- `PHASE`. -/
  phase : k'.phase = phase
  /-- `CMDL`. -/
  cmdl : k'.cmdl = cmdl
  /-- The request. -/
  outstanding : k'.outstanding = some r
  /-- `RVL` is as before. -/
  rvl : k'.rvl = k.rvl
  /-- `BUF` is as before. -/
  buf : k'.buf = k.buf
  /-- `RESP` is as before. -/
  resp : k'.resp = k.resp

/-- A context after the read-reply step of a bit or field write that sends the word back
(10_state R29): `CMDL`, `BUF` and `RESP` as before. -/
structure SentBack (k k' : Context) (rvl : Word16) (r : Request) : Prop where
  /-- `PHASE`. -/
  phase : k'.phase = .wrWait
  /-- `RVL`. -/
  rvl : k'.rvl = rvl
  /-- The request. -/
  outstanding : k'.outstanding = some r
  /-- `CMDL` is as before. -/
  cmdl : k'.cmdl = k.cmdl
  /-- `BUF` is as before. -/
  buf : k'.buf = k.buf
  /-- `RESP` is as before. -/
  resp : k'.resp = k.resp

/-- The meaning of `i` answers a next state that differs from `s` in context `c` only, and that
context has `P`. -/
def Moves (i : Instr) (s : State) (c : Nat) (P : Context → Prop) : Prop :=
  ∃ t k', exec i s = .next t ∧ OnlyContext s t c k' ∧ P k'

/-- The codec's formulas give the result: the field specification is valid, or the block computes
the others literally too (40_codec R128, 93 U1). -/
abbrev State.definite (s : State) (W : Width) (f : FieldSpec) : Prop :=
  f.validFor W ∨ s.policy.fieldSpec = .literal

/-! ### Comparing two blocks -/

/-- Two results of one kind: both stop for the same reason, or both go on in states that `R` relates. -/
def SameOutcome (R : State → State → Prop) (x y : Result) : Prop :=
  match x, y with
  | .next s, .next t => R s t
  | .refused r, .refused q => r = q
  | _, _ => False

/-- Two blocks that agree on context `c`, on `DEFAULT_TIMEOUT`, and on what the model adds to the state. -/
structure AgreeOn (c : Nat) (u s : State) : Prop where
  /-- Context `c`. -/
  ctx : u.ctx? c = s.ctx? c
  /-- `DEFAULT_TIMEOUT`. -/
  defaultTimeout : u.defaultTimeout = s.defaultTimeout
  /-- The moves to come. -/
  inputs : u.inputs = s.inputs
  /-- The policy. -/
  policy : u.policy = s.policy
  /-- The draw counter. -/
  tick : u.tick = s.tick
  /-- The host's read data. -/
  hostData : u.hostData = s.hostData

/-- Two contexts that differ at most in `RESP`, `RVL` and, in `IDLE`, `CMDL`. -/
structure SameWork (k q : Context) : Prop where
  /-- `PHASE`. -/
  phase : k.phase = q.phase
  /-- The request. -/
  outstanding : k.outstanding = q.outstanding
  /-- `BUF`. -/
  buf : k.buf = q.buf
  /-- `CMDL`, while a command is in progress. -/
  cmdl : k.phase ≠ .idle → k.cmdl = q.cmdl

end Sys2Proof.Machine
end

