-- ==== Sys2Proof/Certificates/Slice0/Obligations.lean ====
section
/-! DEFINITION. The statements.  Each docstring names the rule of spec/ it formalises. -/

open Sys2Proof Sys2Proof.Machine

/-! ### Encoding (30_encoding) -/

/-- Decoding gives back every command the encoder wrote, with every operand at every value the word
can carry (30_encoding R91, R92, R94, R97). -/
def Obligations.DecodeOfEncodeIsIdentity : Prop :=
  ∀ i : Instr, i.wf = true → decode (encode i) = .ok i

/-- A legal word is the word of the command it decodes to, whose operands the word can carry; so two
legal words never decode to one command (30_encoding R93). -/
def Obligations.LegalWordIsEncodingOfItsCommand : Prop :=
  (∀ w i, decode w = .ok i → encode i = w ∧ i.wf = true) ∧
  (∀ w v i, decode w = .ok i → decode v = .ok i → w = v)

/-- A word is illegal exactly when its opcode names no row, or a bit its row reserves is wrong, or its
format has `TOV`, `TOV = 0` and `TMO ≠ 0`; 233 of the 256 opcodes name no row (30_encoding R95). -/
def Obligations.IllegalWordsAreTheReservedOnes : Prop :=
  (∀ w, (∃ e, decode w = .error e) ↔ illegalWord w) ∧
  ((List.range 256).filter fun n => (rowOf (BitVec.ofNat 8 n)).isNone).length = 233

/-- No word matches two rows of the opcode map: at any two places of the list, no word has the fixed
bits of both rows (30_encoding R94). -/
def Obligations.OpcodeRowsNeverOverlap : Prop :=
  opcodeRows.Pairwise fun r q =>
    ∀ w : CommandWord, ¬ (w &&& r.mask = r.pattern ∧ w &&& q.mask = q.pattern)

/-- Words of 95_test_vectors 7.3 decode to the commands written there. -/
def Obligations.SpecWordsDecode : Prop :=
  decode 0x00686B6000000000 = .ok (.readBit 0x68 0x6B 6 none) ∧
  decode 0x0340054700000000 = .ok (.readBitsW 0x40 0x05 ⟨4, 8⟩ none) ∧
  decode 0x05C0020000000064 = .ok (.readWord 0x40 0x02 (some 100)) ∧
  decode 0x08D0000400000014 = .ok (.readBytesNoRegAddress 0x50 4 (some 20)) ∧
  decode 0x12681C43000F0000 = .ok (.writeBits 0x68 0x1C ⟨4, 4⟩ 0x0F) ∧
  decode 0x1540050010000000 = .ok (.writeWord 0x40 0x05 0x1000) ∧
  decode 0x1740060200000000 = .ok (.writeWords 0x40 0x06 2) ∧
  decode 0x2300003600551234 = .ok (.injectField16 0x1234 ⟨3, 7⟩ 0x55) ∧
  decode 0x30000000000000FA = .ok (.setDefaultTimeout 250)

/-! ### The codec (40_codec) -/

/-- `extract_W` is the formula, is `floor(r / 2^bitStart) mod 2^length`, and is below `2^length`
(40_codec R121). -/
def Obligations.ExtractIsShiftAndMask : Prop :=
  ∀ (W : Width) (r : Nat) (f : FieldSpec), r < 2 ^ W.bits →
    extractW W.bits r f.bitStart f.length =
      ((r >>> f.bitStart) &&& ((1 <<< f.length) - 1)) % 2 ^ W.bits ∧
    extractW W.bits r f.bitStart f.length = r / 2 ^ f.bitStart % 2 ^ f.length ∧
    extractW W.bits r f.bitStart f.length < 2 ^ f.length

/-- `inject_W` is the formula, also for a field out of range; for a valid field specification its bits
inside the field are the low bits of the value and its bits elsewhere those of the register value
(40_codec R124). -/
def Obligations.InjectReplacesExactlyTheField : Prop :=
  ∀ (W : Width) (r v : Nat) (f : FieldSpec), r < 2 ^ W.bits →
    injectW W.bits r f.bitStart f.length v =
      ((r - (r &&& (((1 <<< f.length) - 1) <<< f.bitStart))) |||
        ((v <<< f.bitStart) &&& (((1 <<< f.length) - 1) <<< f.bitStart))) % 2 ^ W.bits ∧
    (f.validFor W → ∀ i, (injectW W.bits r f.bitStart f.length v).testBit i =
      if f.bitStart ≤ i ∧ i < f.bitStart + f.length then v.testBit (i - f.bitStart)
      else r.testBit i)

/-- Round trip, idempotence, and locality for one bit (40_codec R129). -/
def Obligations.CodecRoundTripIdempotenceLocality : Prop :=
  ∀ (W : Width) (r v : Nat), r < 2 ^ W.bits → v < 2 ^ W.bits →
    (∀ f : FieldSpec, f.encodable → f.validFor W →
      extractW W.bits (injectW W.bits r f.bitStart f.length v) f.bitStart f.length =
        v % 2 ^ f.length ∧
      injectW W.bits (injectW W.bits r f.bitStart f.length v) f.bitStart f.length v =
        injectW W.bits r f.bitStart f.length v) ∧
    (∀ b i, b < W.bits → i ≠ b → (injectW W.bits r b 1 v).testBit i = r.testBit i)

/-- The further laws: no bit outside the field changes; injecting what is there changes nothing; only
`v mod 2^length` matters; the full field; and, for a field out of range, the first laws with `length`
replaced by `W - bitStart`, and nothing at all from `W` on (40_codec R130).
The spec derives these laws itself; those for a field out of range rest on its decision R128 (92 D7,
93 U1), the literal setting of log 11. -/
def Obligations.CodecFurtherLaws : Prop :=
  ∀ (W : Width) (r v : Nat) (f : FieldSpec), r < 2 ^ W.bits → v < 2 ^ W.bits → f.encodable →
    (f.validFor W →
      andNot (injectW W.bits r f.bitStart f.length v) (fieldMask f.bitStart f.length) =
        andNot r (fieldMask f.bitStart f.length) ∧
      injectW W.bits r f.bitStart f.length (extractW W.bits r f.bitStart f.length) = r ∧
      injectW W.bits r f.bitStart f.length v =
        injectW W.bits r f.bitStart f.length (v % 2 ^ f.length)) ∧
    (extractW W.bits r 0 W.bits = r ∧ injectW W.bits r 0 W.bits v = v) ∧
    (¬ f.validFor W → f.bitStart < W.bits →
      extractW W.bits (injectW W.bits r f.bitStart f.length v) f.bitStart f.length =
        v % 2 ^ (W.bits - f.bitStart) ∧
      injectW W.bits (injectW W.bits r f.bitStart f.length v) f.bitStart f.length v =
        injectW W.bits r f.bitStart f.length v ∧
      andNot (injectW W.bits r f.bitStart f.length v)
          (fieldMask f.bitStart (W.bits - f.bitStart)) =
        andNot r (fieldMask f.bitStart (W.bits - f.bitStart)) ∧
      injectW W.bits r f.bitStart f.length v =
        injectW W.bits r f.bitStart f.length (v % 2 ^ (W.bits - f.bitStart))) ∧
    (W.bits ≤ f.bitStart →
      extractW W.bits r f.bitStart f.length = 0 ∧ injectW W.bits r f.bitStart f.length v = r)

/-- The single bit: `extract_W(r, b, 1) = r[b]`, and `inject_W(r, b, 1, v)` sets bit `b` to `v[0]` and
leaves the rest (40_codec R132). -/
def Obligations.SingleBitIsLengthOne : Prop :=
  ∀ (W : Width) (r v b : Nat), r < 2 ^ W.bits → b < W.bits →
    extractW W.bits r b 1 = (r.testBit b).toNat ∧
    ∀ i, (injectW W.bits r b 1 v).testBit i = if i = b then v.testBit 0 else r.testBit i

/-! ### The codec commands (40_codec R122 to R128) -/

/-- An extract command answers `floor(rv / 2^bitStart) mod 2^length` in its issue step and changes
nothing but `RESP` (40_codec R122, R123), for every field the codec's formulas decide.
A field out of range is decided by the model's policy (log 11); that `CMDL` and `RVL` stay is the
model's reading (log 13). -/
def Obligations.ExtractCommandsAnswerTheField : Prop :=
  ∀ s c bus k, s.Issuing c bus k → ∀ f : FieldSpec,
    (∀ rv : Byte, s.definite .w8 f →
      Moves (.extractField8 rv f) s c fun k' =>
        Answered k k' (BitVec.ofNat 32 (0x80000000 + rv.toNat / 2 ^ f.bitStart % 2 ^ f.length))) ∧
    (∀ rv : Word16, s.definite .w16 f →
      Moves (.extractField16 rv f) s c fun k' =>
        Answered k k' (BitVec.ofNat 32 (0x80000000 + rv.toNat / 2 ^ f.bitStart % 2 ^ f.length)))

/-- An inject command answers the word with the field replaced in its issue step and changes nothing
but `RESP` (40_codec R125, R126), for every field the codec's formulas decide.
A field out of range is decided by the model's policy (log 11); that `CMDL` and `RVL` stay is the
model's reading (log 13). -/
def Obligations.InjectCommandsAnswerTheNewWord : Prop :=
  ∀ s c bus k, s.Issuing c bus k → ∀ f : FieldSpec,
    (∀ rv v : Byte, s.definite .w8 f →
      Moves (.injectField8 rv f v) s c fun k' =>
        Answered k k'
          (BitVec.ofNat 32 (0x80000000 + injectW 8 rv.toNat f.bitStart f.length v.toNat))) ∧
    (∀ rv v : Word16, s.definite .w16 f →
      Moves (.injectField16 rv f v) s c fun k' =>
        Answered k k'
          (BitVec.ofNat 32 (0x80000000 + injectW 16 rv.toNat f.bitStart f.length v.toNat)))

/-- Whatever the field specification and the policy, a codec command completes with `OK = 1` and some
value of `W` bits: a field out of range is never reported (40_codec R127, R128; 93 U1).
The policy is the model's (log 11). -/
def Obligations.CodecCommandsNeverFail : Prop :=
  ∀ s c bus k, s.Issuing c bus k → ∀ f : FieldSpec,
    (∀ rv : Byte, Moves (.extractField8 rv f) s c fun k' =>
      ∃ x : Nat, x < 2 ^ 8 ∧ Answered k k' (BitVec.ofNat 32 (0x80000000 + x))) ∧
    (∀ rv : Word16, Moves (.extractField16 rv f) s c fun k' =>
      ∃ x : Nat, x < 2 ^ 16 ∧ Answered k k' (BitVec.ofNat 32 (0x80000000 + x))) ∧
    (∀ rv v : Byte, Moves (.injectField8 rv f v) s c fun k' =>
      ∃ x : Nat, x < 2 ^ 8 ∧ Answered k k' (BitVec.ofNat 32 (0x80000000 + x))) ∧
    (∀ rv v : Word16, Moves (.injectField16 rv f v) s c fun k' =>
      ∃ x : Nat, x < 2 ^ 16 ∧ Answered k k' (BitVec.ofNat 32 (0x80000000 + x)))

/-! ### Bit and field access (41_field_access) -/

/-- The issue step of a bit or field read sends one read of the whole register, with the explicit
timeout or else the default (41_field_access R142 to R145, 10_state R28). -/
def Obligations.FieldReadsSendOneRead : Prop :=
  ∀ s c bus k, s.Issuing c bus k →
    ∀ (dev : DevAddr) (reg : RegAddr) (b : Nat) (f : FieldSpec) (t : Option Millis),
    (Moves (.readBit dev reg b t) s c fun k' =>
      Sent k k' .rdWait ⟨.readBit dev reg b t, bus, some (t.getD s.defaultTimeout)⟩
        (.read bus dev (some reg) 1 (t.getD s.defaultTimeout))) ∧
    (Moves (.readBitW dev reg b t) s c fun k' =>
      Sent k k' .rdWait ⟨.readBitW dev reg b t, bus, some (t.getD s.defaultTimeout)⟩
        (.read bus dev (some reg) 2 (t.getD s.defaultTimeout))) ∧
    (Moves (.readBits dev reg f t) s c fun k' =>
      Sent k k' .rdWait ⟨.readBits dev reg f t, bus, some (t.getD s.defaultTimeout)⟩
        (.read bus dev (some reg) 1 (t.getD s.defaultTimeout))) ∧
    (Moves (.readBitsW dev reg f t) s c fun k' =>
      Sent k k' .rdWait ⟨.readBitsW dev reg f t, bus, some (t.getD s.defaultTimeout)⟩
        (.read bus dev (some reg) 2 (t.getD s.defaultTimeout)))

/-- A full reply to a bit or field read is answered with that bit, or with the field right-aligned
(41_field_access R142 to R145); a bit or field that does not fit is decided by the policy.
That policy is the model's (log 11), the byte order the spec's decision (log 15). -/
def Obligations.FieldReadsAnswerTheField : Prop :=
  ∀ s c k (dev : DevAddr) (reg : RegAddr) (b : Nat) (f : FieldSpec) (t : Option Millis),
    (∀ b0 : Byte, s.ReadAnswered c k (.bytes [b0]) →
      (s.definite .w8 (FieldSpec.bit b) →
        Moves (.readBit dev reg b t) s c fun k' =>
          Answered k k' (BitVec.ofNat 32 (0x80000000 + (b0.toNat.testBit b).toNat))) ∧
      (s.definite .w8 f →
        Moves (.readBits dev reg f t) s c fun k' =>
          Answered k k'
            (BitVec.ofNat 32 (0x80000000 + b0.toNat / 2 ^ f.bitStart % 2 ^ f.length)))) ∧
    (∀ b0 b1 : Byte, s.ReadAnswered c k (.bytes [b0, b1]) →
      (s.definite .w16 (FieldSpec.bit b) →
        Moves (.readBitW dev reg b t) s c fun k' =>
          Answered k k'
            (BitVec.ofNat 32 (0x80000000 + ((b0.toNat * 256 + b1.toNat).testBit b).toNat))) ∧
      (s.definite .w16 f →
        Moves (.readBitsW dev reg f t) s c fun k' =>
          Answered k k' (BitVec.ofNat 32
            (0x80000000 + (b0.toNat * 256 + b1.toNat) / 2 ^ f.bitStart % 2 ^ f.length))))

/-- Any reply but a full unit ends a bit, field, byte or word read with `OK = 0`, `KIND = 0`,
`COUNT = 0` and some `VALUE`, whatever the cause (41_field_access R140, 60_exceptions R201 to R203). -/
def Obligations.FailedReadsCollapse : Prop :=
  ∀ s c k reply, s.ReadAnswered c k reply →
    ∀ (dev : DevAddr) (reg : RegAddr) (b : Nat) (f : FieldSpec) (t : Option Millis),
    ((∀ b0 : Byte, reply ≠ .bytes [b0]) →
      ∀ i ∈ [Instr.readBit dev reg b t, .readBits dev reg f t, .readByte dev reg t],
        Moves i s c fun k' => ∃ v : Word16, Answered k k' (v.setWidth 32)) ∧
    ((∀ b0 b1 : Byte, reply ≠ .bytes [b0, b1]) →
      ∀ i ∈ [Instr.readBitW dev reg b t, .readBitsW dev reg f t, .readWord dev reg t],
        Moves i s c fun k' => ∃ v : Word16, Answered k k' (v.setWidth 32))

/-- The issue step of a bit or field write sends one read of the whole register, with the default
timeout (41_field_access R141, 10_state R28). -/
def Obligations.FieldWritesReadFirst : Prop :=
  ∀ s c bus k, s.Issuing c bus k →
    ∀ (dev : DevAddr) (reg : RegAddr) (b : Nat) (f : FieldSpec) (bit : BitVec 1) (v8 : Byte)
      (v16 : Word16),
    (∀ i ∈ [Instr.writeBit dev reg b bit, .writeBits dev reg f v8],
      Moves i s c fun k' => Sent k k' .rdWait ⟨i, bus, some s.defaultTimeout⟩
        (.read bus dev (some reg) 1 s.defaultTimeout)) ∧
    (∀ i ∈ [Instr.writeBitW dev reg b bit, .writeBitsW dev reg f v16],
      Moves i s c fun k' => Sent k k' .rdWait ⟨i, bus, some s.defaultTimeout⟩
        (.read bus dev (some reg) 2 s.defaultTimeout))

/-- After a full reply a byte-wide bit or field write latches the new register value in `RVL` and sends
the whole byte back, also when it equals the byte read (41_field_access R141, R146, R148).
A field out of range is decided by the model's policy (log 11). -/
def Obligations.ByteFieldWritesSendWholeByteBack : Prop :=
  ∀ s c k (b0 : Byte), s.ReadAnswered c k (.bytes [b0]) →
    ∀ (dev : DevAddr) (reg : RegAddr) (b : Nat) (f : FieldSpec) (bit : BitVec 1) (v : Byte),
    (s.definite .w8 (FieldSpec.bit b) →
      Moves (.writeBit dev reg b bit) s c fun k' =>
        SentBack k k' (BitVec.ofNat 16 (injectW 8 b0.toNat b 1 bit.toNat))
          (.write k.cmdl.bus dev reg [BitVec.ofNat 8 (injectW 8 b0.toNat b 1 bit.toNat)])) ∧
    (s.definite .w8 f →
      Moves (.writeBits dev reg f v) s c fun k' =>
        SentBack k k' (BitVec.ofNat 16 (injectW 8 b0.toNat f.bitStart f.length v.toNat))
          (.write k.cmdl.bus dev reg
            [BitVec.ofNat 8 (injectW 8 b0.toNat f.bitStart f.length v.toNat)]))

/-- After a full reply a word-wide bit or field write latches the new register value in `RVL` and sends
both its bytes back, the high one first (41_field_access R141, R147, R149; 20_memory R54).
A field out of range is decided by the model's policy (log 11), the byte order by the spec (log 15). -/
def Obligations.WordFieldWritesSendWholeWordBack : Prop :=
  ∀ s c k (b0 b1 : Byte), s.ReadAnswered c k (.bytes [b0, b1]) →
    ∀ (dev : DevAddr) (reg : RegAddr) (b : Nat) (f : FieldSpec) (bit : BitVec 1) (v : Word16),
    (s.definite .w16 (FieldSpec.bit b) →
      Moves (.writeBitW dev reg b bit) s c fun k' =>
        ∃ x : Word16, x = BitVec.ofNat 16 (injectW 16 (b0.toNat * 256 + b1.toNat) b 1 bit.toNat) ∧
          SentBack k k' x (.write k.cmdl.bus dev reg [highByte x, lowByte x])) ∧
    (s.definite .w16 f →
      Moves (.writeBitsW dev reg f v) s c fun k' =>
        ∃ x : Word16,
          x = BitVec.ofNat 16
            (injectW 16 (b0.toNat * 256 + b1.toNat) f.bitStart f.length v.toNat) ∧
          SentBack k k' x (.write k.cmdl.bus dev reg [highByte x, lowByte x]))

/-- Whatever the field specification and the policy, after a full reply a bit or field write sends a
write of the whole unit (41_field_access R141; 60_exceptions R204). -/
def Obligations.FieldWritesAlwaysWriteAfterRead : Prop :=
  ∀ s c k (dev : DevAddr) (reg : RegAddr) (b : Nat) (f : FieldSpec) (bit : BitVec 1) (v8 : Byte)
      (v16 : Word16),
    (∀ b0 : Byte, s.ReadAnswered c k (.bytes [b0]) →
      ∀ i ∈ [Instr.writeBit dev reg b bit, .writeBits dev reg f v8],
        Moves i s c fun k' => ∃ x : Byte,
          SentBack k k' (x.setWidth 16) (.write k.cmdl.bus dev reg [x])) ∧
    (∀ b0 b1 : Byte, s.ReadAnswered c k (.bytes [b0, b1]) →
      ∀ i ∈ [Instr.writeBitW dev reg b bit, .writeBitsW dev reg f v16],
        Moves i s c fun k' => ∃ x : Word16,
          SentBack k k' x (.write k.cmdl.bus dev reg [highByte x, lowByte x]))

/-- After any other reply a bit or field write answers `Write(false)`, and no write request is sent
(41_field_access R141 (2), R150 (b)). -/
def Obligations.FailedReadPreventsWrite : Prop :=
  ∀ s c k reply, s.ReadAnswered c k reply →
    ∀ (dev : DevAddr) (reg : RegAddr) (b : Nat) (f : FieldSpec) (bit : BitVec 1) (v8 : Byte)
      (v16 : Word16),
    ((∀ b0 : Byte, reply ≠ .bytes [b0]) →
      ∀ i ∈ [Instr.writeBit dev reg b bit, .writeBits dev reg f v8],
        Moves i s c fun k' => Answered k k' 0) ∧
    ((∀ b0 b1 : Byte, reply ≠ .bytes [b0, b1]) →
      ∀ i ∈ [Instr.writeBitW dev reg b bit, .writeBitsW dev reg f v16],
        Moves i s c fun k' => Answered k k' 0)

/-- The reply to a write request ends any of the eight writes with its own success or failure
(41_field_access R141 (5), 42_unit_array_access R167 to R170). -/
def Obligations.WriteRepliesEndTheWrites : Prop :=
  ∀ s c k reply, s.WriteAnswered c k reply →
    ∀ (dev : DevAddr) (reg : RegAddr) (b n : Nat) (f : FieldSpec) (bit : BitVec 1) (v8 : Byte)
      (v16 : Word16),
    ∀ i ∈ [Instr.writeBit dev reg b bit, .writeBitW dev reg b bit, .writeBits dev reg f v8,
        .writeBitsW dev reg f v16, .writeByte dev reg v8, .writeWord dev reg v16,
        .writeBytes dev reg n, .writeWords dev reg n],
      Moves i s c fun k' =>
        Answered k k' (match reply with | .ok => 0x80000000 | .error => 0x00000000)

/-- `readBit` has the transport behaviour and the response of `readBits` with length 1, `writeBit`
with bit `v` those of `writeBits` with length 1 and value `v`, and so have the 16-bit forms
(30_encoding R99). -/
def Obligations.SingleBitCommandsAreLengthOne : Prop :=
  ∀ s c bus k (dev : DevAddr) (reg : RegAddr) (b : Nat) (t : Option Millis) (bit : BitVec 1),
    (s.Issuing c bus k ∨ (∃ r, s.ReadAnswered c k r) ∨ (∃ r, s.WriteAnswered c k r)) →
    ∀ p ∈ [(Instr.readBit dev reg b t, Instr.readBits dev reg ⟨b, 1⟩ t),
        (.readBitW dev reg b t, .readBitsW dev reg ⟨b, 1⟩ t),
        (.writeBit dev reg b bit, .writeBits dev reg ⟨b, 1⟩ (bit.setWidth 8)),
        (.writeBitW dev reg b bit, .writeBitsW dev reg ⟨b, 1⟩ (bit.setWidth 16))],
      SameOutcome (fun u v => ∃ q r, u.ctx? c = some q ∧ v.ctx? c = some r ∧
          q.phase = r.phase ∧ q.outstanding = r.outstanding ∧ q.resp = r.resp ∧
          q.rvl = r.rvl ∧ q.buf = r.buf ∧ (∀ d, d ≠ c → u.ctx? d = v.ctx? d) ∧
          u.defaultTimeout = v.defaultTimeout)
        (exec p.1 s) (exec p.2 s)

/-! ### Unit and array access (42_unit_array_access) -/

/-- The issue step of `readByte` and `readWord` sends one read of one unit
(42_unit_array_access R161, R162). -/
def Obligations.UnitReadsSendOneRead : Prop :=
  ∀ s c bus k, s.Issuing c bus k → ∀ (dev : DevAddr) (reg : RegAddr) (t : Option Millis),
    (Moves (.readByte dev reg t) s c fun k' =>
      Sent k k' .rdWait ⟨.readByte dev reg t, bus, some (t.getD s.defaultTimeout)⟩
        (.read bus dev (some reg) 1 (t.getD s.defaultTimeout))) ∧
    (Moves (.readWord dev reg t) s c fun k' =>
      Sent k k' .rdWait ⟨.readWord dev reg t, bus, some (t.getD s.defaultTimeout)⟩
        (.read bus dev (some reg) 2 (t.getD s.defaultTimeout)))

/-- A full reply to `readByte` or `readWord` is answered with the unit
(42_unit_array_access R161, R162; 20_memory R54). -/
def Obligations.UnitReadsAnswerTheUnit : Prop :=
  ∀ s c k (dev : DevAddr) (reg : RegAddr) (t : Option Millis),
    (∀ b0 : Byte, s.ReadAnswered c k (.bytes [b0]) →
      Moves (.readByte dev reg t) s c fun k' =>
        Answered k k' (BitVec.ofNat 32 (0x80000000 + b0.toNat))) ∧
    (∀ b0 b1 : Byte, s.ReadAnswered c k (.bytes [b0, b1]) →
      Moves (.readWord dev reg t) s c fun k' =>
        Answered k k' (BitVec.ofNat 32 (0x80000000 + (b0.toNat * 256 + b1.toNat))))

/-- The issue step of an array read of `n` units, `n` not 0, sends one read of all their bytes;
`readBytesNoRegAddress` sends no register address (42_unit_array_access R163 to R166). -/
def Obligations.ArrayReadsSendOneRead : Prop :=
  ∀ s c bus k, s.Issuing c bus k →
    ∀ (dev : DevAddr) (reg : RegAddr) (n : Nat) (t : Option Millis), n ≠ 0 →
    (Moves (.readBytes dev reg n t) s c fun k' =>
      Sent k k' .rdWait ⟨.readBytes dev reg n t, bus, some (t.getD s.defaultTimeout)⟩
        (.read bus dev (some reg) n (t.getD s.defaultTimeout))) ∧
    (Moves (.readWords dev reg n t) s c fun k' =>
      Sent k k' .rdWait ⟨.readWords dev reg n t, bus, some (t.getD s.defaultTimeout)⟩
        (.read bus dev (some reg) (2 * n) (t.getD s.defaultTimeout))) ∧
    (Moves (.readBytesNoRegAddress dev n t) s c fun k' =>
      Sent k k' .rdWait ⟨.readBytesNoRegAddress dev n t, bus, some (t.getD s.defaultTimeout)⟩
        (.read bus dev none n (t.getD s.defaultTimeout)))

/-- An array command of count 0 is answered in its issue step, `Count(0)` or success, without a
transport request and without touching `BUF`: the spec's default of 93 U4
(42_unit_array_access R163, R169, R170).
The policy is the model's (log 12). -/
def Obligations.ZeroCountMakesNoRequest : Prop :=
  ∀ s c bus k, s.Issuing c bus k → s.policy.zeroCount = .noRequest →
    ∀ (dev : DevAddr) (reg : RegAddr) (t : Option Millis),
    ∀ i ∈ [Instr.readBytes dev reg 0 t, .readWords dev reg 0 t, .readBytesNoRegAddress dev 0 t,
        .writeBytes dev reg 0, .writeWords dev reg 0],
      Moves i s c fun k' => Answered k k' 0x80000000

/-- The other setting of 93 U4: an array command of count 0 makes a request of length 0, a failed or
empty read is answered `Count(0)`, and the write is answered by its reply.
The details of that setting are the model's (log 12). -/
def Obligations.ZeroCountUnderOtherSetting : Prop :=
  (∀ s c bus k, s.Issuing c bus k → s.policy.zeroCount = .emptyRequest →
    ∀ (dev : DevAddr) (reg : RegAddr) (t : Option Millis),
    (∀ i ∈ [Instr.readBytes dev reg 0 t, .readWords dev reg 0 t],
      Moves i s c fun k' =>
        Sent k k' .rdWait ⟨i, bus, some (t.getD s.defaultTimeout)⟩
          (.read bus dev (some reg) 0 (t.getD s.defaultTimeout))) ∧
    (Moves (.readBytesNoRegAddress dev 0 t) s c fun k' =>
      Sent k k' .rdWait ⟨.readBytesNoRegAddress dev 0 t, bus, some (t.getD s.defaultTimeout)⟩
        (.read bus dev none 0 (t.getD s.defaultTimeout))) ∧
    (∀ i ∈ [Instr.writeBytes dev reg 0, .writeWords dev reg 0],
      Moves i s c fun k' => Sent k k' .wrWait ⟨i, bus, none⟩ (.write bus dev reg []))) ∧
  (∀ s c k reply, s.ReadAnswered c k reply → (∀ b, reply = .bytes b → b = []) →
    ∀ (dev : DevAddr) (reg : RegAddr) (t : Option Millis),
    ∀ i ∈ [Instr.readBytes dev reg 0 t, .readWords dev reg 0 t, .readBytesNoRegAddress dev 0 t],
      Moves i s c fun k' => Answered k k' 0x80000000) ∧
  (∀ s c k reply, s.WriteAnswered c k reply →
    ∀ (dev : DevAddr) (reg : RegAddr),
    ∀ i ∈ [Instr.writeBytes dev reg 0, .writeWords dev reg 0],
      Moves i s c fun k' =>
        Answered k k' (match reply with | .ok => 0x80000000 | .error => 0x00000000))

/-- Delivered bytes fill `BUF` from entry 0, one zero-extended byte an entry, and are counted; entries
from `n` on keep their value (42_unit_array_access R163 to R165). -/
def Obligations.ByteArrayReadsFillBuffer : Prop :=
  ∀ s c k (b : List Byte), s.ReadAnswered c k (.bytes b) →
    ∀ (dev : DevAddr) (reg : RegAddr) (n : Nat) (t : Option Millis), b.length ≤ n → n ≤ 255 →
    ∀ i ∈ [Instr.readBytes dev reg n t, .readBytesNoRegAddress dev n t],
      Moves i s c fun k' =>
        Ended k k' (BitVec.ofNat 32 (0x80000000 + b.length * 0x10000)) ∧
        (∀ j (h : j < 256) (hj : j < b.length), k'.buf[j] = (b[j]).setWidth 16) ∧
        (∀ j (h : j < 256), n ≤ j → k'.buf[j] = k.buf[j])

/-- Delivered bytes fill `BUF` from entry 0, two bytes a word, the high one first; an odd last byte is
dropped and not counted; entries from `n` on keep their value (42_unit_array_access R163, R166). -/
def Obligations.WordArrayReadsFillBuffer : Prop :=
  ∀ s c k (b : List Byte), s.ReadAnswered c k (.bytes b) →
    ∀ (dev : DevAddr) (reg : RegAddr) (n : Nat) (t : Option Millis), b.length ≤ 2 * n → n ≤ 255 →
      Moves (.readWords dev reg n t) s c fun k' =>
        Ended k k' (BitVec.ofNat 32 (0x80000000 + b.length / 2 * 0x10000)) ∧
        (∀ j (h : j < 256) (hj : 2 * j + 1 < b.length), k'.buf[j] = b[2 * j] ++ b[2 * j + 1]) ∧
        (∀ j (h : j < 256), n ≤ j → k'.buf[j] = k.buf[j])

/-- A failed array read of `n` units, `n` not 0, tells a bus error (sentinel A) from a timeout
(sentinel B); entries from `n` on keep their value (42_unit_array_access R163, 60_exceptions R201,
R202). -/
def Obligations.FailedArrayReadsTellTheCause : Prop :=
  ∀ s c k (dev : DevAddr) (reg : RegAddr) (n : Nat) (t : Option Millis), n ≠ 0 →
    ∀ i ∈ [Instr.readBytes dev reg n t, .readWords dev reg n t, .readBytesNoRegAddress dev n t],
      (s.ReadAnswered c k .busError →
        Moves i s c fun k' => Ended k k' 0x20000000 ∧
          ∀ j (h : j < 256), n ≤ j → k'.buf[j] = k.buf[j]) ∧
      (s.ReadAnswered c k .timeout →
        Moves i s c fun k' => Ended k k' 0x40000000 ∧
          ∀ j (h : j < 256), n ≤ j → k'.buf[j] = k.buf[j])

/-- The issue step of `writeByte` and `writeWord` sends one write of the unit, the high byte of a word
first, and no read (42_unit_array_access R167, R168).
That `CMDL` holds no timeout then is the model's reading (log 14). -/
def Obligations.UnitWritesSendOneWrite : Prop :=
  ∀ s c bus k, s.Issuing c bus k → ∀ (dev : DevAddr) (reg : RegAddr) (v8 : Byte) (v16 : Word16),
    (Moves (.writeByte dev reg v8) s c fun k' =>
      Sent k k' .wrWait ⟨.writeByte dev reg v8, bus, none⟩ (.write bus dev reg [v8])) ∧
    (Moves (.writeWord dev reg v16) s c fun k' =>
      Sent k k' .wrWait ⟨.writeWord dev reg v16, bus, none⟩
        (.write bus dev reg [BitVec.ofNat 8 (v16.toNat / 256), BitVec.ofNat 8 (v16.toNat % 256)]))

/-- The issue step of an array write of `n` units, `n` not 0, sends one write of `BUF[0..n-1]`: bits
7:0 of each entry, or both bytes, the high one first (42_unit_array_access R169, R170).
That `CMDL` holds no timeout then is the model's reading (log 14). -/
def Obligations.ArrayWritesSendTheBuffer : Prop :=
  ∀ s c bus k, s.Issuing c bus k →
    ∀ (dev : DevAddr) (reg : RegAddr) (n : Nat), n ≠ 0 → n ≤ 255 →
    (Moves (.writeBytes dev reg n) s c fun k' =>
      ∃ bs : List Byte, Sent k k' .wrWait ⟨.writeBytes dev reg n, bus, none⟩ (.write bus dev reg bs) ∧
        bs.length = n ∧ ∀ j (h : j < 256), j < n → bs[j]? = some (BitVec.ofNat 8 k.buf[j].toNat)) ∧
    (Moves (.writeWords dev reg n) s c fun k' =>
      ∃ bs : List Byte, Sent k k' .wrWait ⟨.writeWords dev reg n, bus, none⟩ (.write bus dev reg bs) ∧
        bs.length = 2 * n ∧ ∀ j (h : j < 256), j < n →
          bs[2 * j]? = some (BitVec.ofNat 8 (k.buf[j].toNat / 256)) ∧
          bs[2 * j + 1]? = some (BitVec.ofNat 8 k.buf[j].toNat))

/-! ### Configuration (43_config) -/

/-- `setDefaultTimeout` writes `DEFAULT_TIMEOUT`, answers `Value(0)`, and changes nothing else; a
command in progress elsewhere keeps its request and its timeout (43_config R190). -/
def Obligations.SetDefaultTimeoutWritesIt : Prop :=
  ∀ s c bus k, s.Issuing c bus k → ∀ ms : Millis,
    ∃ t k', exec (.setDefaultTimeout ms) s = .next t ∧ t.defaultTimeout = ms ∧
      OnlyContext { s with defaultTimeout := ms } t c k' ∧ Answered k k' 0x80000000

/-- `getDefaultTimeout` answers `Value(DEFAULT_TIMEOUT)` and changes nothing but `RESP`
(43_config R191). -/
def Obligations.GetDefaultTimeoutAnswersIt : Prop :=
  ∀ s c bus k, s.Issuing c bus k →
    Moves .getDefaultTimeout s c fun k' =>
      Answered k k' (BitVec.ofNat 32 (0x80000000 + s.defaultTimeout.toNat))

/-! ### Moves of the machine (10_state, 60_exceptions, 70_reset) -/

/-- A presented word that decodes to `i` is run as `i`, a reply is handled by the rule of the latched
command; then the move is over and the draw counter advances (10_state R28 to R30).
That moves stand in a list and the draw counter are the model's (logs 5, 6 and 25). -/
def Obligations.StepRunsTheCommand : Prop :=
  (∀ s c bus w rest i, s.inputs = .command c bus w :: rest → decode w = .ok i →
    step s = match exec i s with
      | .next t => .next { t with inputs := t.inputs.tail, tick := t.tick + 1 }
      | .fault r => .fault r
      | .refused r => .refused r) ∧
  (∀ s c k rest, s.ctx? c = some k → k.phase ≠ .idle →
    ((∃ r, s.inputs = .readReply c r :: rest) ∨ (∃ r, s.inputs = .writeReply c r :: rest)) →
    step s = match exec k.cmdl.cmd s with
      | .next t => .next { t with inputs := t.inputs.tail, tick := t.tick + 1 }
      | .fault r => .fault r
      | .refused r => .refused r)

/-- An illegal word presented to an idle context is answered `OK = 0`, `KIND = 3`, the word
`0x60000000`, whatever the word; nothing else changes and nothing of the word is kept
(60_exceptions R205).
That nothing else changes is read from 10_state R28 (log 24); the list of moves and the draw counter
are the model's (logs 5, 6 and 25). -/
def Obligations.IllegalWordIsAnsweredOnly : Prop :=
  ∀ s c bus k w rest, s.inputs = .command c bus w :: rest → s.ctx? c = some k →
    k.phase = .idle → illegalWord w →
    ∃ t k', step s = .next t ∧
      OnlyContext { s with inputs := rest, tick := s.tick + 1 } t c k' ∧
      Answered k k' 0x60000000 ∧ respOk k'.resp = false ∧ respKind k'.resp = 3

/-- The write-reply step is `respond Write(reply = Ok)` for whatever command is in progress
(10_state R30).
`State.Inv` rules out contexts that no run reaches.
The list of moves and the draw counter are the model's (logs 5, 6 and 25); that `CMDL` and `RVL` stay
is the model's reading (log 13). -/
def Obligations.WriteReplyStepReportsTheReply : Prop :=
  ∀ s c k reply rest, s.Inv → s.inputs = .writeReply c reply :: rest → s.ctx? c = some k →
    k.phase = .wrWait →
    ∃ t k', step s = .next t ∧
      OnlyContext { s with inputs := rest, tick := s.tick + 1 } t c k' ∧
      Answered k k' (if reply = .ok then 0x80000000 else 0x00000000)

/-- The invariant of runs: what `PHASE` says of `CMDL`, `RVL` and the outstanding request, and the
length of that request, is kept by every move (10_state R24 to R26, 20_memory R56, R58).
That `CMDL` of a plain write holds no timeout is the model's reading (log 14). -/
def Obligations.EveryMoveKeepsTheInvariant : Prop :=
  ∀ s t : State, s.Inv → step s = .next t → t.Inv

/-- The invariant holds after reset. -/
def Obligations.ResetHasTheInvariant : Prop := State.reset.Inv

/-- From every state that meets the invariant, every move the surroundings have is completed: there is
a next state (10_state R28 to R31, 60_exceptions R210, R217).
Which moves are admitted is said in Sys2Proof/Safety.lean (logs 6, 8, 9 and 10). -/
def Obligations.EveryAdmittedMoveCompletes : Prop :=
  ∀ s : State, s.Inv → s.Admits → ∃ t, step s = .next t

/-- A context that waits stays exactly as it is for as long as no reply to it and no reset comes, be it
for ever (10_state R31, 70_reset R241).
With no move to come the model's step stays where it is (log 7). -/
def Obligations.UnansweredContextHangs : Prop :=
  ∀ (n : Nat) (s t : State) (c : Nat) (k : Context), s.ctx? c = some k → k.phase ≠ .idle →
    (∀ i ∈ s.inputs, i.endsWait c = false) → Host.Core.run Sys2Proof.core n s = .next t →
    t.ctx? c = some k

/-- A command presented to a busy context is no move: it is refused (60_exceptions R217 (g); the
refusal is the treatment of 93 U7).
The refusal's form is the model's (log 8). -/
def Obligations.BusyContextTakesNoCommand : Prop :=
  ∀ s c bus k w rest, s.inputs = .command c bus w :: rest → s.ctx? c = some k → k.phase ≠ .idle →
    step s = .refused .hostWhileBusy

/-- A move addressed to a context leaves every other context, the abandoned requests and the policy
alone (60_exceptions R215). -/
def Obligations.MovesTouchOnlyTheirContext : Prop :=
  ∀ s t c d i rest, s.inputs = i :: rest → i.target = some c → step s = .next t → d ≠ c →
    t.ctx? d = s.ctx? d ∧ t.abandoned = s.abandoned ∧ t.policy = s.policy

/-- What a move does to its context depends on no other context: two blocks that agree on that context,
on `DEFAULT_TIMEOUT` and on what the model adds to the state still agree on all of it after the move
(60_exceptions R215).
The moves to come, the policy, the shared draw counter and the host's read data are the model's
(logs 5, 6, 11, 12 and 18). -/
def Obligations.ContextsDoNotInfluenceEachOther : Prop :=
  ∀ s u c i rest, s.inputs = i :: rest → i.target = some c → AgreeOn c u s →
    SameOutcome (AgreeOn c) (step u) (step s)

/-- `DEFAULT_TIMEOUT` changes only by `setDefaultTimeout` and by reset (10_state R23). -/
def Obligations.OnlySetDefaultTimeoutChangesIt : Prop :=
  ∀ s t i rest, s.inputs = i :: rest → i ≠ .reset →
    (∀ c bus w ms, i = .command c bus w → decode w ≠ .ok (.setDefaultTimeout ms)) →
    step s = .next t → t.defaultTimeout = s.defaultTimeout

/-- Earlier outcomes never matter to a command or a reply: two blocks that differ in one context at most
in `RESP`, `RVL` and an idle `CMDL` make the same move and differ no more after it; a response written
by the move is the same in both (10_state R33, 60_exceptions R210).  The one move that shows the
difference is the host's own reading of that `RESP`, and it shows it in the host's read data only.
The moves to come, the draw counter, the policy and the read data are the model's
(logs 5, 6, 11, 12 and 18). -/
def Obligations.EarlierOutcomesDoNotMatter : Prop :=
  ∀ s c k q, s.ctx? c = some k → SameWork k q →
    SameOutcome (fun a b =>
        (∃ k' q', a.ctx? c = some k' ∧ b.ctx? c = some q' ∧ SameWork k' q' ∧
          (k'.resp = q'.resp ∨ k'.resp = k.resp ∧ q'.resp = q.resp)) ∧
        (∀ d, d ≠ c → a.ctx? d = b.ctx? d) ∧ a.defaultTimeout = b.defaultTimeout ∧
        a.abandoned = b.abandoned ∧ a.inputs = b.inputs ∧ a.tick = b.tick ∧ a.policy = b.policy ∧
        ((∀ rest, s.inputs ≠ .hostReadResp c :: rest) → a.hostData = b.hostData))
      (step s) (step (s.setCtx c q))

/-- `RESP` changes only where a command of that context ends: a command word or a reply addressed to it,
after which it is idle with nothing outstanding; reset apart (10_state R32). -/
def Obligations.ResponseChangesOnlyAtTheEnd : Prop :=
  ∀ s t c k k' i rest, s.inputs = i :: rest → i ≠ .reset → step s = .next t →
    s.ctx? c = some k → t.ctx? c = some k' → k'.resp ≠ k.resp →
    ((∃ bus w, i = .command c bus w) ∨ (∃ r, i = .readReply c r) ∨ (∃ r, i = .writeReply c r)) ∧
      k'.phase = .idle ∧ k'.outstanding = none

/-- A write request of a bit or field write appears only at a read-reply step that delivered the full
register: after a failed read nothing is outstanding (41_field_access R141, R150 (b)). -/
def Obligations.NoWriteWithoutFullRead : Prop :=
  ∀ s t c k k' reply rest, s.Inv → s.inputs = .readReply c reply :: rest → s.ctx? c = some k →
    step s = .next t → t.ctx? c = some k' → k'.outstanding ≠ none →
    ∃ (W : Width) (b : List Byte) (dev : DevAddr) (reg : RegAddr) (x : Word16),
      reply = .bytes b ∧ b.length = W.bytes ∧ k'.rvl = x ∧
      k'.outstanding = some (.write k.cmdl.bus dev reg (unitBytes W x)) ∧
      (∃ tm, k.outstanding = some (.read k.cmdl.bus dev (some reg) W.bytes tm))

/-- A reply that no request awaits (a read reply to a context that is not in `RD_WAIT`, a write reply to
one that is not in `WR_WAIT`), more bytes than were asked for, and a `Timeout` to a request without a
timeout are no moves of the transport: they are refused (20_memory R57, R59; the refusal is the
model's, log 9). -/
def Obligations.TransportKeepsItsConstraints : Prop :=
  ∀ s c k rest, s.ctx? c = some k →
    (∀ reply, s.inputs = .readReply c reply :: rest →
      (k.phase ≠ .rdWait → step s = .refused .replyNotAwaited) ∧
      (s.Inv → ∀ bus dev reg len t, k.phase = .rdWait →
        k.outstanding = some (.read bus dev reg len t) →
        (∀ b, reply = .bytes b → len < b.length → step s = .refused .tooManyBytes) ∧
        (reply = .timeout → t = 0#16 → step s = .refused .timeoutWithoutLimit))) ∧
    (∀ reply, s.inputs = .writeReply c reply :: rest →
      k.phase ≠ .wrWait → step s = .refused .replyNotAwaited)

/-! ### The host's own steps (10_state R27) -/

/-- The host's steps.  In an idle context it writes one entry of `BUF` and changes nothing else, and it
reads any entry, whatever put it there; in a busy context it has neither step.  It reads `RESP` in any
phase.  A read changes nothing but the host's read data (10_state R27, R32; 60_exceptions R217).
The refusal and the field for read data are the model's (logs 8 and 18), and so are the list of moves
and the draw counter (logs 5, 6 and 25). -/
def Obligations.HostStepsOnBufAndResp : Prop :=
  ∀ s c k (j : BitVec 8) (x : Word16) rest, s.ctx? c = some k →
    (k.phase = .idle → s.inputs = .hostWriteBuf c j x :: rest →
      ∃ t k', step s = .next t ∧
        OnlyContext { s with inputs := rest, tick := s.tick + 1 } t c k' ∧
        k'.buf[j.toNat]'j.isLt = x ∧ (∀ m (h : m < 256), m ≠ j.toNat → k'.buf[m] = k.buf[m]) ∧
        k'.phase = k.phase ∧ k'.cmdl = k.cmdl ∧ k'.rvl = k.rvl ∧ k'.resp = k.resp ∧
        k'.outstanding = k.outstanding) ∧
    (k.phase = .idle → s.inputs = .hostReadBuf c j :: rest →
      step s = .next { s with
        inputs := rest, tick := s.tick + 1
        hostData := some ((k.buf[j.toNat]'j.isLt).setWidth 32) }) ∧
    (k.phase ≠ .idle →
      (s.inputs = .hostWriteBuf c j x :: rest ∨ s.inputs = .hostReadBuf c j :: rest) →
      step s = .refused .hostWhileBusy) ∧
    (s.inputs = .hostReadResp c :: rest →
      step s = .next { s with inputs := rest, tick := s.tick + 1, hostData := some k.resp })

/-! ### Reset (10_state R36, 70_reset R230, R231) -/

/-- After reset every context is `IDLE` with nothing outstanding and `DEFAULT_TIMEOUT` is
`TIMEOUT_RESET`; there is at least context 0 (10_state R36, 00_scope R6).
The number of contexts and `TIMEOUT_RESET` are opaque constants of the model (logs 2 and 3). -/
def Obligations.ResetLeavesEveryContextIdle : Prop :=
  State.reset.defaultTimeout = Config.timeoutReset ∧
  (∃ k, State.reset.ctx? 0 = some k) ∧
  (∀ c, (State.reset.ctx? c).isSome = true ↔ c < 1 + Config.extraContexts) ∧
  (∀ c k, State.reset.ctx? c = some k → k.phase = .idle ∧ k.outstanding = none) ∧
  State.reset.abandoned = []

/-- The reset event at any time: every context goes to `IDLE` with nothing outstanding, the default
timeout to `TIMEOUT_RESET`, the number of contexts stays, and the requests that were outstanding are
abandoned, context 0's first (70_reset R230, R231).
The list of abandoned requests is the model's form of it (log 10). -/
def Obligations.ResetAbandonsWhatWasOutstanding : Prop :=
  ∀ s rest, s.inputs = .reset :: rest →
    ∃ t, step s = .next t ∧ t.defaultTimeout = Config.timeoutReset ∧ t.inputs = rest ∧
      (∀ c, (t.ctx? c).isSome = (s.ctx? c).isSome) ∧
      (∀ c k, t.ctx? c = some k → k.phase = .idle ∧ k.outstanding = none) ∧
      t.abandoned = s.abandoned ++ (s.ctx0 :: s.more).filterMap Context.outstanding

/-- The reply to an abandoned request is discarded: no context, response or timeout changes
(70_reset R231).
The list of abandoned requests is the model's form of it (log 10). -/
def Obligations.AbandonedRepliesAreDiscarded : Prop :=
  ∀ s j rest, s.inputs = .abandonedReply j :: rest → j < s.abandoned.length →
    ∃ t, step s = .next t ∧ (∀ c, t.ctx? c = s.ctx? c) ∧ t.defaultTimeout = s.defaultTimeout ∧
      t.hostData = s.hostData ∧ t.abandoned.length + 1 = s.abandoned.length

/-! ### Responses (30_encoding R96, R100) -/

/-- The words of the responses and their fields (30_encoding R96). -/
def Obligations.ResponseWordsAreTheTable : Prop :=
  (∀ v : Word16, (Response.boolRead true v).word = BitVec.ofNat 32 (0x80000000 + v.toNat)) ∧
  (∀ v : Word16, (Response.boolRead false v).word = BitVec.ofNat 32 v.toNat) ∧
  (Response.write true).word = 0x80000000 ∧ (Response.write false).word = 0x00000000 ∧
  (∀ n : Nat, n ≤ 255 → (Response.count n).word = BitVec.ofNat 32 (0x80000000 + n * 0x10000)) ∧
  Response.sentinelA.word = 0x20000000 ∧ Response.sentinelB.word = 0x40000000 ∧
  (∀ v : Word16, (Response.value v).word = BitVec.ofNat 32 (0x80000000 + v.toNat)) ∧
  Response.illegal.word = 0x60000000 ∧
  (∀ ok kind count value,
    respOk (responseWord ok kind count value) = ok ∧
    respKind (responseWord ok kind count value) = kind ∧
    respReserved (responseWord ok kind count value) = 0 ∧
    respCount (responseWord ok kind count value) = count ∧
    respValue (responseWord ok kind count value) = value)

/-- The software view of the responses of reads and writes and of an illegal word (30_encoding R100): of a
Boolean-result read the value, cut to 1, 8 or 16 bits, or none after a failure, whatever `VALUE` then
is; of a write its success; of an array read the count or one of two numbers, which are not counts and
differ, whatever they are (00_scope R6); of an illegal word nothing.
The two numbers are opaque constants of the model (log 16). -/
def Obligations.SoftwareViewOfResponses : Prop :=
  (∀ i : Instr, softwareView i Response.illegal.word = .noCounterpart) ∧
  (∀ (dev : DevAddr) (reg : RegAddr) (b : Nat) (f : FieldSpec) (t : Option Millis) (v : Word16),
    (∀ i ∈ [Instr.readBit dev reg b t, .readBitW dev reg b t],
      softwareView i (Response.boolRead true v).word = .read (some (v.toNat % 2)) ∧
      softwareView i (Response.boolRead false v).word = .read none) ∧
    (∀ i ∈ [Instr.readBits dev reg f t, .readByte dev reg t],
      softwareView i (Response.boolRead true v).word = .read (some (v.toNat % 256)) ∧
      softwareView i (Response.boolRead false v).word = .read none) ∧
    (∀ i ∈ [Instr.readBitsW dev reg f t, .readWord dev reg t],
      softwareView i (Response.boolRead true v).word = .read (some v.toNat) ∧
      softwareView i (Response.boolRead false v).word = .read none)) ∧
  (∀ (dev : DevAddr) (reg : RegAddr) (b n : Nat) (f : FieldSpec) (bit : BitVec 1) (v8 : Byte)
      (v16 : Word16) (ok : Bool),
    ∀ i ∈ [Instr.writeBit dev reg b bit, .writeBitW dev reg b bit, .writeBits dev reg f v8,
        .writeBitsW dev reg f v16, .writeByte dev reg v8, .writeWord dev reg v16,
        .writeBytes dev reg n, .writeWords dev reg n],
      softwareView i (Response.write ok).word = .write ok) ∧
  Config.sentinelA ≠ Config.sentinelB ∧
  (∀ n : Nat, n ≤ 255 → Config.sentinelA ≠ n ∧ Config.sentinelB ≠ n) ∧
  ∀ (dev : DevAddr) (reg : RegAddr) (n : Nat) (t : Option Millis),
    ∀ i ∈ [Instr.readBytes dev reg n t, .readWords dev reg n t, .readBytesNoRegAddress dev n t],
      (∀ m : Nat, m ≤ 255 → softwareView i (Response.count m).word = .arrayRead m) ∧
      softwareView i Response.sentinelA.word = .arrayRead Config.sentinelA ∧
      softwareView i Response.sentinelB.word = .arrayRead Config.sentinelB

/-! ### With the reference devices (20_memory R73) -/

/-- On `StoreDev8`, for every position and length in a byte, a field written is the field read: its low
`length` bits (41_field_access R150 (a)); so is a bit.
The device stands beside the machine (log 21). -/
def Obligations.FieldRoundTripOnStoreDev8 : Prop :=
  ∀ (s : State) (d : StoreDev8) (c : Nat) (k : Context) (bus : BusId) (dev : DevAddr)
      (reg : RegAddr), s.ctx? c = some k → k.phase = .idle → d.regs.wf = true →
    (∀ (f : FieldSpec) (v : Byte), f.encodable → f.validFor .w8 →
      ∃ x y k', runCommand StoreDev8.answer c bus (encode (.writeBits dev reg f v)) (s, d) = some x ∧
        runCommand StoreDev8.answer c bus (encode (.readBits dev reg f none)) x = some y ∧
        y.1.ctx? c = some k' ∧ k'.phase = .idle ∧
        k'.resp = BitVec.ofNat 32 (0x80000000 + v.toNat % 2 ^ f.length)) ∧
    (∀ (b : Nat) (bit : BitVec 1), b < 8 →
      ∃ x y k', runCommand StoreDev8.answer c bus (encode (.writeBit dev reg b bit)) (s, d) = some x ∧
        runCommand StoreDev8.answer c bus (encode (.readBit dev reg b none)) x = some y ∧
        y.1.ctx? c = some k' ∧ k'.phase = .idle ∧
        k'.resp = BitVec.ofNat 32 (0x80000000 + bit.toNat))

/-- On `StoreDev16`, for every position and length in a word, a field written is the field read; so
is a bit (41_field_access R150 (a)).
The device stands beside the machine (log 21). -/
def Obligations.FieldRoundTripOnStoreDev16 : Prop :=
  ∀ (s : State) (d : StoreDev16) (c : Nat) (k : Context) (bus : BusId) (dev : DevAddr)
      (reg : RegAddr), s.ctx? c = some k → k.phase = .idle → d.regs.wf = true →
    (∀ (f : FieldSpec) (v : Word16), f.encodable → f.validFor .w16 →
      ∃ x y k',
        runCommand StoreDev16.answer c bus (encode (.writeBitsW dev reg f v)) (s, d) = some x ∧
        runCommand StoreDev16.answer c bus (encode (.readBitsW dev reg f none)) x = some y ∧
        y.1.ctx? c = some k' ∧ k'.phase = .idle ∧
        k'.resp = BitVec.ofNat 32 (0x80000000 + v.toNat % 2 ^ f.length)) ∧
    (∀ (b : Nat) (bit : BitVec 1), b < 16 →
      ∃ x y k',
        runCommand StoreDev16.answer c bus (encode (.writeBitW dev reg b bit)) (s, d) = some x ∧
        runCommand StoreDev16.answer c bus (encode (.readBitW dev reg b none)) x = some y ∧
        y.1.ctx? c = some k' ∧ k'.phase = .idle ∧
        k'.resp = BitVec.ofNat 32 (0x80000000 + bit.toNat))

/-- What is written is read back (42_unit_array_access R171 (c)).  On `StoreDev8` a byte, and an array of
bytes, of which bits 7:0 of the same entries are restored; on `StoreDev16` a word, and an array of
words, of which the same entries are restored.  Later entries of `BUF` stay.
The devices stand beside the machine (log 21). -/
def Obligations.UnitAndArrayRoundTripsOnStoreDevs : Prop :=
  ∀ (s : State) (c : Nat) (k : Context) (bus : BusId) (dev : DevAddr) (reg : RegAddr),
    s.ctx? c = some k → k.phase = .idle →
    (∀ d : StoreDev8, d.regs.wf = true →
      (∀ v : Byte, ∃ x y k',
        runCommand StoreDev8.answer c bus (encode (.writeByte dev reg v)) (s, d) = some x ∧
        runCommand StoreDev8.answer c bus (encode (.readByte dev reg none)) x = some y ∧
        y.1.ctx? c = some k' ∧ k'.phase = .idle ∧
        k'.resp = BitVec.ofNat 32 (0x80000000 + v.toNat) ∧ k'.buf = k.buf) ∧
      (∀ n, n ≠ 0 → n ≤ 255 → ∃ x y k',
        runCommand StoreDev8.answer c bus (encode (.writeBytes dev reg n)) (s, d) = some x ∧
        runCommand StoreDev8.answer c bus (encode (.readBytes dev reg n none)) x = some y ∧
        y.1.ctx? c = some k' ∧ k'.phase = .idle ∧
        k'.resp = BitVec.ofNat 32 (0x80000000 + n * 0x10000) ∧
        (∀ j (h : j < 256), j < n → k'.buf[j].toNat = k.buf[j].toNat % 256) ∧
        (∀ j (h : j < 256), n ≤ j → k'.buf[j] = k.buf[j]))) ∧
    (∀ d : StoreDev16, d.regs.wf = true →
      (∀ v : Word16, ∃ x y k',
        runCommand StoreDev16.answer c bus (encode (.writeWord dev reg v)) (s, d) = some x ∧
        runCommand StoreDev16.answer c bus (encode (.readWord dev reg none)) x = some y ∧
        y.1.ctx? c = some k' ∧ k'.phase = .idle ∧
        k'.resp = BitVec.ofNat 32 (0x80000000 + v.toNat) ∧ k'.buf = k.buf) ∧
      (∀ n, n ≠ 0 → n ≤ 255 → ∃ x y k',
        runCommand StoreDev16.answer c bus (encode (.writeWords dev reg n)) (s, d) = some x ∧
        runCommand StoreDev16.answer c bus (encode (.readWords dev reg n none)) x = some y ∧
        y.1.ctx? c = some k' ∧ k'.phase = .idle ∧
        k'.resp = BitVec.ofNat 32 (0x80000000 + n * 0x10000) ∧ k'.buf = k.buf))

/-- On `FailRead`, whose count of writes starts at 0, a bit or field write answers failure and the device
counts no write (41_field_access R150 (b), 20_memory R73).
The device stands beside the machine (log 21). -/
def Obligations.FailReadSeesNoWrite : Prop :=
  FailRead.initial.writes = 0 ∧
  ∀ (s : State) (d : FailRead) (c : Nat) (k : Context) (bus : BusId) (w : CommandWord)
      (dev : DevAddr) (reg : RegAddr) (b : Nat) (f : FieldSpec) (bit : BitVec 1) (v8 : Byte)
      (v16 : Word16), s.ctx? c = some k → k.phase = .idle →
    ∀ i ∈ [Instr.writeBit dev reg b bit, .writeBitW dev reg b bit, .writeBits dev reg f v8,
        .writeBitsW dev reg f v16],
      decode w = .ok i →
      ∃ x k', runCommand FailRead.answer c bus w (s, d) = some x ∧ x.2.writes = d.writes ∧
        x.1.ctx? c = some k' ∧ k'.phase = .idle ∧ k'.resp = 0
end

