-- ==== Sys2Proof/Laws/Codec.lean ====
section
/-! SUPPORT. What each bit of a codec result is (40_codec R121, R124, R128). -/

namespace Sys2Proof.Machine

/-- `a &~ m` keeps exactly the bits of `a` that are not in `m`. -/
theorem andNot_testBit (a m i : Nat) :
    (andNot a m).testBit i = (a.testBit i && !m.testBit i) := by
  have hle : ∀ a m : Nat, a &&& m ≤ a := fun a m => Nat.and_le_left
  have hdiv : ∀ a m : Nat, (a &&& m) / 2 = a / 2 &&& m / 2 := fun a m => Nat.and_div_two
  have hbit : ∀ a m : Nat, (a &&& m).testBit 0 = (a.testBit 0 && m.testBit 0) :=
    fun a m => Nat.testBit_and a m 0
  induction i generalizing a m with
  | zero =>
    have h := hbit a m
    have hl := hle a m
    rw [Nat.testBit_zero, Nat.testBit_zero, Nat.testBit_zero] at h
    rw [andNot, Nat.testBit_zero, Nat.testBit_zero, Nat.testBit_zero]
    generalize a &&& m = x at h hl ⊢
    rcases Nat.mod_two_eq_zero_or_one a with ha | ha <;>
      rcases Nat.mod_two_eq_zero_or_one m with hm | hm <;>
      simp [ha, hm] at h ⊢ <;> omega
  | succ i ih =>
    have h0 := hbit a m
    rw [Nat.testBit_zero, Nat.testBit_zero, Nat.testBit_zero] at h0
    have h : (a - (a &&& m)) / 2 = a / 2 - (a / 2 &&& m / 2) := by
      have hd := hdiv a m
      have hl := hle a m
      generalize a / 2 &&& m / 2 = y at hd ⊢
      generalize a &&& m = x at h0 hd hl ⊢
      rcases Nat.mod_two_eq_zero_or_one a with ha | ha <;>
        rcases Nat.mod_two_eq_zero_or_one m with hm | hm <;>
        simp [ha, hm] at h0 <;> omega
    have := ih (a / 2) (m / 2)
    rw [andNot] at this
    rw [andNot, Nat.testBit_succ, Nat.testBit_succ, Nat.testBit_succ, h, this]

/-- The mask of a field has exactly the field's bits. -/
theorem fieldMask_testBit (bitStart length i : Nat) :
    (fieldMask bitStart length).testBit i =
      (decide (bitStart ≤ i) && decide (i < bitStart + length)) := by
  rw [fieldMask, Nat.testBit_shiftLeft, Nat.one_shiftLeft, Nat.testBit_two_pow_sub_one]
  by_cases h : bitStart ≤ i
  · have h2 : i - bitStart < length ↔ i < bitStart + length := by omega
    simp [h, h2]
  · simp [h]

/-- Bit `i` of an extracted field is bit `bitStart + i` of the register value, inside the field and
below `W`. -/
theorem extractW_testBit (W r bitStart length i : Nat) :
    (extractW W r bitStart length).testBit i =
      (decide (i < W) && (decide (i < length) && r.testBit (bitStart + i))) := by
  rw [extractW, Nat.testBit_mod_two_pow, Nat.testBit_and, Nat.testBit_shiftRight, Nat.one_shiftLeft,
    Nat.testBit_two_pow_sub_one, Bool.and_comm (r.testBit _)]

/-- Bit `i` of an injected word is bit `i - bitStart` of the value inside the field, bit `i` of the
register value elsewhere, and there is none from `W` on. -/
theorem injectW_testBit (W r bitStart length v i : Nat) :
    (injectW W r bitStart length v).testBit i =
      (decide (i < W) &&
        if bitStart ≤ i ∧ i < bitStart + length then v.testBit (i - bitStart) else r.testBit i) := by
  rw [injectW, Nat.testBit_mod_two_pow, Nat.testBit_or, andNot_testBit, Nat.testBit_and,
    fieldMask_testBit, Nat.testBit_shiftLeft]
  by_cases h1 : bitStart ≤ i <;> by_cases h2 : i < bitStart + length <;> simp [h1, h2]

/-- An extracted field fits `W` bits. -/
theorem extractW_lt (W r bitStart length : Nat) : extractW W r bitStart length < 2 ^ W :=
  Nat.mod_lt _ (Nat.two_pow_pos W)

/-- An injected word fits `W` bits. -/
theorem injectW_lt (W r bitStart length v : Nat) : injectW W r bitStart length v < 2 ^ W :=
  Nat.mod_lt _ (Nat.two_pow_pos W)

/-- A codec result fits `W` bits under either policy. -/
theorem codecResult_lt (s : State) (c : Nat) (W : Width) (f : FieldSpec) {x : Nat}
    (h : x < 2 ^ W.bits) : (s.codecResult c W f x).toNat < 2 ^ W.bits := by
  have hw : 2 ^ W.bits ≤ 2 ^ 16 := by cases W <;> decide
  unfold State.codecResult
  split
  · rw [BitVec.toNat_ofNat, Nat.mod_eq_of_lt (Nat.lt_of_lt_of_le h hw)]
    exact h
  · rw [BitVec.toNat_ofNat]
    exact Nat.lt_of_le_of_lt (Nat.mod_le _ _) (Nat.mod_lt _ (Nat.two_pow_pos _))

/-- Under the default policy a codec result is the formula's value. -/
theorem codecResult_literal {s : State} (c : Nat) (W : Width) (f : FieldSpec) (x : Nat)
    (h : s.policy.fieldSpec = .literal) : s.codecResult c W f x = BitVec.ofNat 16 x := by
  simp [State.codecResult, h]

/-- For a valid field specification a codec result is the formula's value under either policy. -/
theorem codecResult_valid (s : State) (c : Nat) {W : Width} {f : FieldSpec} (x : Nat)
    (h : f.validFor W) : s.codecResult c W f x = BitVec.ofNat 16 x := by
  simp [State.codecResult, h]

end Sys2Proof.Machine
end

