-- ==== Sys2Proof/Laws/Decode.lean ====
section
/-! SUPPORT. The command word as its fields (30_encoding R91): reading a field of a word gives that
field, and masking acts field by field. -/

namespace Sys2Proof

/-- The fields of two words, and-ed one by one. -/
def WordFields.and (f g : WordFields) : WordFields :=
  { op := f.op &&& g.op, tov := f.tov &&& g.tov, dev := f.dev &&& g.dev, reg := f.reg &&& g.reg
    mid := f.mid &&& g.mid, val := f.val &&& g.val, tmo := f.tmo &&& g.tmo }

/-- The and of two rows of seven bit vectors is the row of the ands. -/
theorem and_append_seven {a b c d e f g : Nat} (x1 y1 : BitVec a) (x2 y2 : BitVec b)
    (x3 y3 : BitVec c) (x4 y4 : BitVec d) (x5 y5 : BitVec e) (x6 y6 : BitVec f) (x7 y7 : BitVec g) :
    (x1 ++ x2 ++ x3 ++ x4 ++ x5 ++ x6 ++ x7) &&& (y1 ++ y2 ++ y3 ++ y4 ++ y5 ++ y6 ++ y7) =
      (x1 &&& y1) ++ (x2 &&& y2) ++ (x3 &&& y3) ++ (x4 &&& y4) ++ (x5 &&& y5) ++ (x6 &&& y6) ++
        (x7 &&& y7) := by
  simp only [BitVec.and_append]

/-- Masking a word masks its fields. -/
theorem WordFields.word_and (f g : WordFields) : f.word &&& g.word = (f.and g).word :=
  and_append_seven f.op g.op f.tov g.tov f.dev g.dev f.reg g.reg f.mid g.mid f.val g.val f.tmo g.tmo

/-- The word as a number. -/
theorem WordFields.word_toNat (f : WordFields) :
    f.word.toNat = f.op.toNat * 2 ^ 56 + f.tov.toNat * 2 ^ 55 + f.dev.toNat * 2 ^ 48 +
      f.reg.toNat * 2 ^ 40 + f.mid.toNat * 2 ^ 32 + f.val.toNat * 2 ^ 16 + f.tmo.toNat := by
  have := f.tov.isLt
  have := f.dev.isLt
  have := f.reg.isLt
  have := f.mid.isLt
  have := f.val.isLt
  have := f.tmo.isLt
  simp only [WordFields.word, BitVec.toNat_append]
  rw [← Nat.shiftLeft_add_eq_or_of_lt (by omega), ← Nat.shiftLeft_add_eq_or_of_lt (by omega),
    ← Nat.shiftLeft_add_eq_or_of_lt (by omega), ← Nat.shiftLeft_add_eq_or_of_lt (by omega),
    ← Nat.shiftLeft_add_eq_or_of_lt (by omega), ← Nat.shiftLeft_add_eq_or_of_lt (by omega)]
  simp only [Nat.shiftLeft_eq]
  omega

/-- Some bits of a word, as a number. -/
theorem WordFields.extract_word (f : WordFields) (s m : Nat) :
    (f.word.extractLsb' s m).toNat =
      (f.op.toNat * 2 ^ 56 + f.tov.toNat * 2 ^ 55 + f.dev.toNat * 2 ^ 48 + f.reg.toNat * 2 ^ 40 +
        f.mid.toNat * 2 ^ 32 + f.val.toNat * 2 ^ 16 + f.tmo.toNat) / 2 ^ s % 2 ^ m := by
  rw [BitVec.extractLsb'_toNat, f.word_toNat, Nat.shiftRight_eq_div_pow]

/-- The fields of a word. -/
def WordFields.ofWord (w : CommandWord) : WordFields :=
  { op := fieldOp w, tov := fieldTov w, dev := fieldDev w, reg := fieldReg w, mid := fieldCnt w
    val := fieldVal w, tmo := fieldTmo w }

/-- A word is the word of its fields. -/
theorem WordFields.word_ofWord (w : CommandWord) : (WordFields.ofWord w).word = w := by
  apply BitVec.eq_of_toNat_eq
  rw [WordFields.word_toNat]
  simp only [WordFields.ofWord, fieldOp, fieldTov, fieldDev, fieldReg, fieldCnt, fieldVal, fieldTmo,
    BitVec.extractLsb'_toNat, Nat.shiftRight_eq_div_pow]
  have := w.isLt
  omega

/-- The and of a word with a mask, by the mask's fields. -/
theorem WordFields.word_and_mask (f : WordFields) (m : CommandWord) :
    f.word &&& m = (f.and (WordFields.ofWord m)).word := by
  rw [← f.word_and, WordFields.word_ofWord]

theorem fieldOp_word (f : WordFields) : fieldOp f.word = f.op := by
  apply BitVec.eq_of_toNat_eq
  rw [fieldOp, f.extract_word]
  have := f.op.isLt; have := f.tov.isLt; have := f.dev.isLt; have := f.reg.isLt
  have := f.mid.isLt; have := f.val.isLt; have := f.tmo.isLt
  omega

theorem fieldTov_word (f : WordFields) : fieldTov f.word = f.tov := by
  apply BitVec.eq_of_toNat_eq
  rw [fieldTov, f.extract_word]
  have := f.op.isLt; have := f.tov.isLt; have := f.dev.isLt; have := f.reg.isLt
  have := f.mid.isLt; have := f.val.isLt; have := f.tmo.isLt
  omega

theorem fieldDev_word (f : WordFields) : fieldDev f.word = f.dev := by
  apply BitVec.eq_of_toNat_eq
  rw [fieldDev, f.extract_word]
  have := f.op.isLt; have := f.tov.isLt; have := f.dev.isLt; have := f.reg.isLt
  have := f.mid.isLt; have := f.val.isLt; have := f.tmo.isLt
  omega

theorem fieldReg_word (f : WordFields) : fieldReg f.word = f.reg := by
  apply BitVec.eq_of_toNat_eq
  rw [fieldReg, f.extract_word]
  have := f.op.isLt; have := f.tov.isLt; have := f.dev.isLt; have := f.reg.isLt
  have := f.mid.isLt; have := f.val.isLt; have := f.tmo.isLt
  omega

theorem fieldCnt_word (f : WordFields) : fieldCnt f.word = f.mid := by
  apply BitVec.eq_of_toNat_eq
  rw [fieldCnt, f.extract_word]
  have := f.op.isLt; have := f.tov.isLt; have := f.dev.isLt; have := f.reg.isLt
  have := f.mid.isLt; have := f.val.isLt; have := f.tmo.isLt
  omega

theorem fieldBs_word (f : WordFields) : (fieldBs f.word).toNat = f.mid.toNat / 16 := by
  rw [fieldBs, f.extract_word]
  have := f.op.isLt; have := f.tov.isLt; have := f.dev.isLt; have := f.reg.isLt
  have := f.mid.isLt; have := f.val.isLt; have := f.tmo.isLt
  omega

theorem fieldLm1_word (f : WordFields) : (fieldLm1 f.word).toNat = f.mid.toNat % 16 := by
  rw [fieldLm1, f.extract_word]
  have := f.op.isLt; have := f.tov.isLt; have := f.dev.isLt; have := f.reg.isLt
  have := f.mid.isLt; have := f.val.isLt; have := f.tmo.isLt
  omega

theorem fieldVal_word (f : WordFields) : fieldVal f.word = f.val := by
  apply BitVec.eq_of_toNat_eq
  rw [fieldVal, f.extract_word]
  have := f.op.isLt; have := f.tov.isLt; have := f.dev.isLt; have := f.reg.isLt
  have := f.mid.isLt; have := f.val.isLt; have := f.tmo.isLt
  omega

theorem fieldVal8_word (f : WordFields) : (fieldVal8 f.word).toNat = f.val.toNat % 256 := by
  rw [fieldVal8, f.extract_word]
  have := f.op.isLt; have := f.tov.isLt; have := f.dev.isLt; have := f.reg.isLt
  have := f.mid.isLt; have := f.val.isLt; have := f.tmo.isLt
  omega

theorem fieldVal1_word (f : WordFields) : (fieldVal1 f.word).toNat = f.val.toNat % 2 := by
  rw [fieldVal1, f.extract_word]
  have := f.op.isLt; have := f.tov.isLt; have := f.dev.isLt; have := f.reg.isLt
  have := f.mid.isLt; have := f.val.isLt; have := f.tmo.isLt
  omega

theorem fieldTmo_word (f : WordFields) : fieldTmo f.word = f.tmo := by
  apply BitVec.eq_of_toNat_eq
  rw [fieldTmo, f.extract_word]
  have := f.op.isLt; have := f.tov.isLt; have := f.dev.isLt; have := f.reg.isLt
  have := f.mid.isLt; have := f.val.isLt; have := f.tmo.isLt
  omega

theorem fieldRv8_word (f : WordFields) : (fieldRv8 f.word).toNat = f.tmo.toNat % 256 := by
  rw [fieldRv8, f.extract_word]
  have := f.op.isLt; have := f.tov.isLt; have := f.dev.isLt; have := f.reg.isLt
  have := f.mid.isLt; have := f.val.isLt; have := f.tmo.isLt
  omega

end Sys2Proof
end

