-- ==== Sys2Proof/Laws/Memory.lean ====
section
/-! SUPPORT. The memory of the reference devices keeps its canonical form, reads back what is written,
and leaves every other address alone. -/

namespace Sys2Proof.Machine

/-- A canonical list above `a` reads blank at `a` and below. -/
theorem Memory.read_below : ∀ (m : Memory) (a b : Nat), m.wfAbove a = true → b ≤ a →
    m.read b = Memory.blank
  | [], _, _, _, _ => rfl
  | (x, v) :: m, a, b, h, hb => by
    simp only [Memory.wfAbove, Bool.and_eq_true, decide_eq_true_eq] at h
    have hne : ¬ b = x := by omega
    simp only [Memory.read, if_neg hne]
    exact Memory.read_below m x b h.2 (by omega)

/-- A write is read back. -/
theorem Memory.read_write_self : ∀ (m : Memory) (a : Nat) (v : Byte), m.wf = true →
    (m.write a v).read a = v := by
  have above : ∀ (m : Memory) (p a : Nat) (v : Byte), m.wfAbove p = true →
      (m.write a v).read a = v := by
    intro m
    induction m with
    | nil =>
      intro p a v _
      by_cases hv : v = Memory.blank <;> simp [Memory.write, Memory.read, hv]
    | cons hd m ih =>
      obtain ⟨x, y⟩ := hd
      intro p a v h
      simp only [Memory.wfAbove, Bool.and_eq_true, decide_eq_true_eq] at h
      rcases Nat.lt_trichotomy a x with hlt | heq | hgt
      · by_cases hv : v = Memory.blank
        · have := Memory.read_below m x a h.2 (by omega)
          simp [Memory.write, Memory.read, hlt, hv, this, Nat.ne_of_lt hlt]
        · simp [Memory.write, Memory.read, hlt, hv]
      · subst heq
        by_cases hv : v = Memory.blank
        · simp [Memory.write, hv, Memory.read_below m a a h.2 (Nat.le_refl a)]
        · simp [Memory.write, Memory.read, hv]
      · have h1 : ¬ a < x := by omega
        have h2 : ¬ a = x := by omega
        simp [Memory.write, Memory.read, h1, h2, ih x a v h.2]
  intro m a v h
  cases m with
  | nil => by_cases hv : v = Memory.blank <;> simp [Memory.write, Memory.read, hv]
  | cons hd m =>
    obtain ⟨x, y⟩ := hd
    simp only [Memory.wf, Bool.and_eq_true] at h
    rcases Nat.lt_trichotomy a x with hlt | heq | hgt
    · by_cases hv : v = Memory.blank
      · have := Memory.read_below m x a h.2 (by omega)
        simp [Memory.write, Memory.read, hlt, hv, this, Nat.ne_of_lt hlt]
      · simp [Memory.write, Memory.read, hlt, hv]
    · subst heq
      by_cases hv : v = Memory.blank
      · simp [Memory.write, hv, Memory.read_below m a a h.2 (Nat.le_refl a)]
      · simp [Memory.write, Memory.read, hv]
    · have h1 : ¬ a < x := by omega
      have h2 : ¬ a = x := by omega
      simp [Memory.write, Memory.read, h1, h2, above m x a v h.2]

/-- A write leaves every other address alone. -/
theorem Memory.read_write_ne : ∀ (m : Memory) (a b : Nat) (v : Byte), b ≠ a →
    (m.write a v).read b = m.read b := by
  intro m a b v hb
  induction m with
  | nil => by_cases hv : v = Memory.blank <;> simp [Memory.write, Memory.read, hv, hb]
  | cons hd m ih =>
    obtain ⟨x, y⟩ := hd
    rcases Nat.lt_trichotomy a x with hlt | heq | hgt
    · by_cases hv : v = Memory.blank <;> simp [Memory.write, Memory.read, hlt, hv, hb]
    · subst heq
      by_cases hv : v = Memory.blank <;> simp [Memory.write, Memory.read, hv, hb]
    · have h1 : ¬ a < x := by omega
      have h2 : ¬ a = x := by omega
      simp [Memory.write, Memory.read, h1, h2, ih]

/-- A write above `p` keeps the canonical form above `p`. -/
theorem Memory.wfAbove_write : ∀ (m : Memory) (p a : Nat) (v : Byte), m.wfAbove p = true → p < a →
    (m.write a v).wfAbove p = true := by
  intro m
  induction m with
  | nil =>
    intro p a v _ ha
    by_cases hv : v = Memory.blank <;> simp [Memory.write, Memory.wfAbove, hv, ha]
  | cons hd m ih =>
    obtain ⟨x, y⟩ := hd
    intro p a v h ha
    simp only [Memory.wfAbove, Bool.and_eq_true, decide_eq_true_eq, bne_iff_ne] at h
    obtain ⟨⟨hpx, hy⟩, hm⟩ := h
    have lift : ∀ (l : Memory) (q r : Nat), l.wfAbove r = true → q ≤ r → l.wfAbove q = true := by
      intro l q r hl hqr
      cases l with
      | nil => rfl
      | cons hd' l' =>
        obtain ⟨x', y'⟩ := hd'
        simp only [Memory.wfAbove, Bool.and_eq_true, decide_eq_true_eq, bne_iff_ne] at hl ⊢
        exact ⟨⟨by omega, hl.1.2⟩, hl.2⟩
    rcases Nat.lt_trichotomy a x with hlt | heq | hgt
    · by_cases hv : v = Memory.blank <;>
        simp [Memory.write, Memory.wfAbove, hlt, hv, hpx, hy, hm, ha]
    · subst heq
      by_cases hv : v = Memory.blank
      · simp [Memory.write, hv, lift m p a hm (by omega)]
      · simp [Memory.write, Memory.wfAbove, hv, hpx, hm]
    · have h1 : ¬ a < x := by omega
      have h2 : ¬ a = x := by omega
      simp [Memory.write, Memory.wfAbove, h1, h2, hpx, hy, ih x a v hm hgt]

/-- A write keeps the canonical form. -/
theorem Memory.wf_write (m : Memory) (a : Nat) (v : Byte) (h : m.wf = true) :
    (m.write a v).wf = true := by
  cases m with
  | nil => by_cases hv : v = Memory.blank <;> simp [Memory.write, Memory.wf, Memory.wfAbove, hv]
  | cons hd m =>
    obtain ⟨x, y⟩ := hd
    simp only [Memory.wf, Bool.and_eq_true, bne_iff_ne] at h
    obtain ⟨hy, hm⟩ := h
    rcases Nat.lt_trichotomy a x with hlt | heq | hgt
    · by_cases hv : v = Memory.blank <;>
        simp [Memory.write, Memory.wf, Memory.wfAbove, hlt, hv, hy, hm]
    · subst heq
      by_cases hv : v = Memory.blank
      · simp only [Memory.write, hv]
        cases m with
        | nil => simp [Memory.wf]
        | cons hd' l' =>
          obtain ⟨x', y'⟩ := hd'
          simp only [Memory.wfAbove, Bool.and_eq_true, decide_eq_true_eq, bne_iff_ne] at hm
          simp [Memory.wf, hm.1.2, hm.2]
      · simp [Memory.write, Memory.wf, hv, hm]
    · have h1 : ¬ a < x := by omega
      have h2 : ¬ a = x := by omega
      simp [Memory.write, Memory.wf, h1, h2, hy, Memory.wfAbove_write m x a v hm hgt]

/-- Storing a run of bytes keeps the canonical form. -/
theorem storeBytes_wf (bus : BusId) (dev : DevAddr) (bs : List Byte) :
    ∀ (m : Memory) (r : RegAddr), m.wf = true → (storeBytes m bus dev r bs).wf = true := by
  induction bs with
  | nil => intro _ _ h; exact h
  | cons b bs ih => intro m r h; exact ih _ _ (Memory.wf_write m _ b h)

/-- Storing a run of words keeps the canonical form. -/
theorem storeWords_wf (bus : BusId) (dev : DevAddr) : ∀ (bs : List Byte) (m : Memory) (r : RegAddr),
    m.wf = true → (storeWords m bus dev r bs).wf = true
  | [], _, _, h => h
  | [_], _, _, h => h
  | b0 :: b1 :: bs, m, _, h =>
    storeWords_wf bus dev bs _ _ (Memory.wf_write _ _ b1 (Memory.wf_write m _ b0 h))

end Sys2Proof.Machine
end

