-- ==== Sys2Proof/Laws/State.lean ====
section
/-! SUPPORT. One lemma per field per update, so that no later proof unfolds a record update. -/

namespace Sys2Proof.Machine

/-! ### `ctx?` -/

@[simp] theorem State.ctx?_zero (s : State) : s.ctx? 0 = some s.ctx0 := rfl

@[simp] theorem State.ctx?_succ (s : State) (j : Nat) : s.ctx? (j + 1) = s.more[j]? := rfl

/-! ### `setCtx` -/

/-- Writing a context that exists is read back. -/
theorem State.ctx?_setCtx_self {s : State} {c : Nat} {k : Context} (k' : Context)
    (h : s.ctx? c = some k) : (s.setCtx c k').ctx? c = some k' := by
  cases c with
  | zero => rfl
  | succ j =>
    have hj : j < s.more.length := by
      rcases Nat.lt_or_ge j s.more.length with hlt | hge
      · exact hlt
      · rw [State.ctx?_succ, List.getElem?_eq_none hge] at h
        cases h
    simp [State.setCtx, hj]

/-- Every other context is left alone. -/
theorem State.ctx?_setCtx_ne (s : State) {c d : Nat} (k' : Context) (h : d ≠ c) :
    (s.setCtx c k').ctx? d = s.ctx? d := by
  cases c <;> cases d <;> simp_all [State.setCtx, State.ctx?]
  rename_i a b
  exact List.getElem?_set_ne (by omega)

@[simp] theorem State.setCtx_defaultTimeout (s : State) (c : Nat) (k : Context) :
    (s.setCtx c k).defaultTimeout = s.defaultTimeout := by
  cases c <;> rfl

@[simp] theorem State.setCtx_abandoned (s : State) (c : Nat) (k : Context) :
    (s.setCtx c k).abandoned = s.abandoned := by
  cases c <;> rfl

@[simp] theorem State.setCtx_policy (s : State) (c : Nat) (k : Context) :
    (s.setCtx c k).policy = s.policy := by
  cases c <;> rfl

@[simp] theorem State.setCtx_inputs (s : State) (c : Nat) (k : Context) :
    (s.setCtx c k).inputs = s.inputs := by
  cases c <;> rfl

@[simp] theorem State.setCtx_tick (s : State) (c : Nat) (k : Context) :
    (s.setCtx c k).tick = s.tick := by
  cases c <;> rfl

@[simp] theorem State.setCtx_hostData (s : State) (c : Nat) (k : Context) :
    (s.setCtx c k).hostData = s.hostData := by
  cases c <;> rfl

@[simp] theorem State.setCtx_more_length (s : State) (c : Nat) (k : Context) :
    (s.setCtx c k).more.length = s.more.length := by
  cases c <;> simp [State.setCtx]

/-- A context exists after a write exactly where one existed before. -/
theorem State.ctx?_setCtx_isSome (s : State) (c d : Nat) (k : Context) :
    ((s.setCtx c k).ctx? d).isSome = (s.ctx? d).isSome := by
  cases c with
  | zero => cases d <;> rfl
  | succ a =>
    cases d with
    | zero => rfl
    | succ b =>
      simp only [State.setCtx, State.ctx?_succ, List.getElem?_set]
      split
      · rename_i hab
        subst hab
        split <;> simp_all
      · rfl

/-! ### `advance` -/

@[simp] theorem State.advance_ctx? (s : State) (c : Nat) : s.advance.ctx? c = s.ctx? c := by
  cases c <;> rfl

@[simp] theorem State.advance_defaultTimeout (s : State) : s.advance.defaultTimeout = s.defaultTimeout := rfl

@[simp] theorem State.advance_abandoned (s : State) : s.advance.abandoned = s.abandoned := rfl

@[simp] theorem State.advance_policy (s : State) : s.advance.policy = s.policy := rfl

@[simp] theorem State.advance_hostData (s : State) : s.advance.hostData = s.hostData := rfl

@[simp] theorem State.advance_inputs (s : State) : s.advance.inputs = s.inputs.tail := rfl

@[simp] theorem State.advance_tick (s : State) : s.advance.tick = s.tick + 1 := rfl

/-! ### The move list and the default timeout as record updates -/

@[simp] theorem State.ctx?_with_inputs (s : State) (l : List Input) (c : Nat) :
    { s with inputs := l }.ctx? c = s.ctx? c := by
  cases c <;> rfl

@[simp] theorem State.ctx?_with_defaultTimeout (s : State) (t : Millis) (c : Nat) :
    { s with defaultTimeout := t }.ctx? c = s.ctx? c := by
  cases c <;> rfl

@[simp] theorem State.ctx?_with_hostData (s : State) (x : Option (BitVec 32)) (c : Nat) :
    { s with hostData := x }.ctx? c = s.ctx? c := by
  cases c <;> rfl

@[simp] theorem State.ctx?_with_abandoned (s : State) (x : List Request) (c : Nat) :
    { s with abandoned := x }.ctx? c = s.ctx? c := by
  cases c <;> rfl

end Sys2Proof.Machine
end

