-- ==== Sys2Proof/Laws/Ops.lean ====
section
/-! SUPPORT. For each shared operation, one lemma that says once what it does. -/

namespace Sys2Proof.Machine

/-! ### What an update of one context leaves alone -/

/-- `setCtx` on a context that exists changes that context only. -/
theorem onlyContext_setCtx {s : State} {c : Nat} {k : Context} (k' : Context)
    (h : s.ctx? c = some k) : OnlyContext s (s.setCtx c k') c k' where
  here := State.ctx?_setCtx_self k' h
  others := fun _ hd => State.ctx?_setCtx_ne s k' hd
  defaultTimeout := State.setCtx_defaultTimeout s c k'
  abandoned := State.setCtx_abandoned s c k'
  policy := State.setCtx_policy s c k'
  inputs := State.setCtx_inputs s c k'
  tick := State.setCtx_tick s c k'
  hostData := State.setCtx_hostData s c k'

/-- `respond` ends the command in one context and changes nothing else. -/
theorem respond_spec {s : State} {c : Nat} {k : Context} (k₁ : Context) (r : Response)
    (h : s.ctx? c = some k) :
    ∃ k', OnlyContext s (s.respond c k₁ r) c k' ∧ Answered k₁ k' r.word :=
  ⟨_, onlyContext_setCtx _ h, ⟨⟨rfl, rfl, rfl, rfl, rfl⟩, rfl⟩⟩

/-- `sendRead` sends one read request from one context and changes nothing else. -/
theorem sendRead_spec {s : State} {c : Nat} {k : Context} (bus : BusId) (cmd : Instr)
    (dev : DevAddr) (reg : Option RegAddr) (len : Nat) (t : Millis) (h : s.ctx? c = some k) :
    ∃ k', OnlyContext s (s.sendRead c k bus cmd dev reg len t) c k' ∧
      Sent k k' .rdWait ⟨cmd, bus, some t⟩ (.read bus dev reg len t) :=
  ⟨_, onlyContext_setCtx _ h, ⟨rfl, rfl, rfl, rfl, rfl, rfl⟩⟩

/-- `sendWrite` sends one write request from one context and changes nothing else. -/
theorem sendWrite_spec {s : State} {c : Nat} {k : Context} (bus : BusId) (cmd : Instr)
    (dev : DevAddr) (reg : RegAddr) (bytes : List Byte) (h : s.ctx? c = some k) :
    ∃ k', OnlyContext s (s.sendWrite c k bus cmd dev reg bytes) c k' ∧
      Sent k k' .wrWait ⟨cmd, bus, none⟩ (.write bus dev reg bytes) :=
  ⟨_, onlyContext_setCtx _ h, ⟨rfl, rfl, rfl, rfl, rfl, rfl⟩⟩

/-! ### Running the step of a rule -/

/-- In an idle context a command runs its issue step. -/
theorem run_issuing {s : State} {c : Nat} {bus : BusId} {k : Context} (rule : CommandRule)
    (h : s.Issuing c bus k) : s.run rule = .next (rule.issue c k bus) := by
  obtain ⟨⟨w, rest, hm⟩, hc, hi⟩ := h
  simp [State.run, hm, hc, hi]

/-- An awaited, allowed reply to a read runs the read-reply step. -/
theorem run_readAnswered {s : State} {c : Nat} {k : Context} {reply : ReadReply}
    {rule : CommandRule} {f : Nat → Context → ReadReply → State}
    (h : s.ReadAnswered c k reply) (hf : rule.readReply = some f) :
    s.run rule = .next (f c k reply) := by
  obtain ⟨⟨rest, hm⟩, hc, hw, bus, dev, reg, len, t, ho, hb⟩ := h
  simp [State.run, hm, hc, hw, ho, hf, hb]

/-- An awaited reply to a write runs the write-reply step. -/
theorem run_writeAnswered {s : State} {c : Nat} {k : Context} {reply : WriteReply}
    {rule : CommandRule} {f : Nat → Context → WriteReply → State}
    (h : s.WriteAnswered c k reply) (hf : rule.writeReply = some f) :
    s.run rule = .next (f c k reply) := by
  obtain ⟨⟨rest, hm⟩, hc, hw, bus, dev, reg, bytes, ho⟩ := h
  simp [State.run, hm, hc, hw, ho, hf]

/-- All that `run` can do when it answers a next state. -/
theorem run_next {s t : State} {rule : CommandRule} (h : s.run rule = .next t) :
    (∃ c bus k, s.Issuing c bus k ∧ t = rule.issue c k bus) ∨
    (∃ c k reply f, s.ReadAnswered c k reply ∧ rule.readReply = some f ∧ t = f c k reply) ∨
    (∃ c k reply f, s.WriteAnswered c k reply ∧ rule.writeReply = some f ∧ t = f c k reply) := by
  cases hm : s.inputs with
  | nil => simp [State.run, hm] at h
  | cons i rest =>
    cases i with
    | command c bus w =>
      cases hc : s.ctx? c with
      | none => simp [State.run, hm, hc] at h
      | some k =>
        cases hp : k.phase with
        | idle =>
          refine Or.inl ⟨c, bus, k, ⟨⟨w, rest, hm⟩, hc, hp⟩, ?_⟩
          simpa [State.run, hm, hc, hp] using h.symm
        | rdWait => simp [State.run, hm, hc, hp] at h
        | wrWait => simp [State.run, hm, hc, hp] at h
    | readReply c reply =>
      cases hc : s.ctx? c with
      | none => simp [State.run, hm, hc] at h
      | some k =>
        simp only [State.run, hm, hc, List.head?_cons] at h
        split at h
        · rename_i bus dev reg len t' f hp ho hf
          split at h
          · rename_i hb
            refine Or.inr (Or.inl ⟨c, k, reply, f, ⟨⟨rest, hm⟩, hc, hp, ?_⟩, hf, ?_⟩)
            · exact ⟨bus, dev, reg, len, t', ho, hb⟩
            · simpa using h.symm
          · cases h
        · cases h
    | writeReply c reply =>
      cases hc : s.ctx? c with
      | none => simp [State.run, hm, hc] at h
      | some k =>
        simp only [State.run, hm, hc, List.head?_cons] at h
        split at h
        · rename_i bus dev reg bytes f hp ho hf
          refine Or.inr (Or.inr ⟨c, k, reply, f, ⟨⟨rest, hm⟩, hc, hp, ?_⟩, hf, ?_⟩)
          · exact ⟨bus, dev, reg, bytes, ho⟩
          · simpa using h.symm
        · cases h
    | hostWriteBuf c i v => simp [State.run, hm] at h
    | hostReadBuf c i => simp [State.run, hm] at h
    | hostReadResp c => simp [State.run, hm] at h
    | reset => simp [State.run, hm] at h
    | abandonedReply j => simp [State.run, hm] at h

/-- `run` never faults. -/
theorem run_no_fault (s : State) (rule : CommandRule) (r : Fault) : s.run rule ≠ .fault r :=
  nomatch r

/-! ### Replies -/

@[simp] theorem unit_busError (W : Width) : ReadReply.busError.unit W = none := rfl

@[simp] theorem unit_timeout (W : Width) : ReadReply.timeout.unit W = none := rfl

@[simp] theorem unit_bytes (W : Width) (b : List Byte) :
    (ReadReply.bytes b).unit W = unitValue W b := rfl

/-- One byte is a unit of 8 bits. -/
@[simp] theorem unitValue_w8 (b : Byte) : unitValue .w8 [b] = some (b.setWidth 16) := rfl

/-- Two bytes are a unit of 16 bits, the high one first. -/
@[simp] theorem unitValue_w16 (b0 b1 : Byte) : unitValue .w16 [b0, b1] = some (wordOf b0 b1) := rfl

/-- Anything but exactly `W / 8` bytes is no unit. -/
theorem unitValue_none {W : Width} {b : List Byte} (h : b.length ≠ W.bytes) :
    unitValue W b = none := by
  cases W with
  | w8 =>
    match b, h with
    | [], _ => rfl
    | [_], h => exact absurd rfl h
    | _ :: _ :: _, _ => rfl
  | w16 =>
    match b, h with
    | [], _ => rfl
    | [_], _ => rfl
    | [_, _], h => exact absurd rfl h
    | _ :: _ :: _ :: _, _ => rfl

/-- Words made of bytes: one for every two. -/
theorem wordsOfBytes_length : ∀ b : List Byte, (wordsOfBytes b).length = b.length / 2
  | [] => rfl
  | [_] => by simp [wordsOfBytes]
  | _ :: _ :: rest => by
    have ih := wordsOfBytes_length rest
    simp only [wordsOfBytes, List.length_cons, ih]
    omega

/-- Units made of bytes: `floor(k / (W / 8))`. -/
theorem unitsOfBytes_length (W : Width) (b : List Byte) :
    (unitsOfBytes W b).length = b.length / W.bytes := by
  cases W with
  | w8 => simp [unitsOfBytes, Width.bytes]
  | w16 => exact wordsOfBytes_length b

/-! ### `BUF` -/

/-- An entry of `BUF` after an array read. -/
theorem fillBuf_get (s : State) (c : Nat) (k : Context) (n : Nat) (us : List Word16) (i : Nat)
    (h : i < 256) :
    (s.fillBuf c k n us)[i] =
      us[i]?.getD (if i < n then s.draw c i else k.buf[i]) := by
  simp [State.fillBuf]

/-- The first `n` entries of `BUF` are `n` entries. -/
theorem entries_length (k : Context) {n : Nat} (h : n ≤ 256) : (k.entries n).length = n := by
  simp [Context.entries, h]

/-- An array write sends `W / 8` bytes for each of its units. -/
theorem sendBytes_length (k : Context) (W : Width) {n : Nat} (h : n ≤ 256) :
    (k.sendBytes W n).length = n * W.bytes := by
  have hs : ∀ l : List Word16, (l.flatMap (unitBytes W)).length = l.length * W.bytes := by
    intro l
    induction l with
    | nil => simp
    | cons x l ih =>
      simp only [List.flatMap_cons, List.length_append, ih, List.length_cons, Nat.add_mul]
      cases W <;> simp [unitBytes, Width.bytes, Nat.add_comm]
  rw [Context.sendBytes, hs, entries_length k h]

end Sys2Proof.Machine
end

