-- ==== Sys2Proof/Laws/PerInstr.lean ====
section
/-! SUPPORT. The law that is proved one command at a time: the encoder's word passes the row's mask
(30_encoding R92, R93 (2)). -/

namespace Sys2Proof.Laws

/-- The encoder's word has its row's `match` under the row's `mask`. -/
def RowMatches.Statement (i : Instr) : Prop :=
  ∃ row, rowOf (fieldOp (encode i)) = some row ∧ encode i &&& row.mask = row.pattern

/-- `LM1` of a single-bit command is 0. -/
theorem encodeBitNum_and (b : Nat) : encodeBitNum b &&& 15#8 = 0#8 := by
  have h : ∀ x : BitVec 4, (x ++ 0#4) &&& 15#8 = 0#8 := by decide
  exact h _

/-- A single bit leaves `VAL[15:1]` 0. -/
theorem setWidth_one_and (v : BitVec 1) : v.setWidth 16 &&& 65534#16 = 0#16 := by
  revert v; decide

/-- A byte leaves the upper half of its field 0. -/
theorem setWidth_byte_and (v : Byte) : v.setWidth 16 &&& 65280#16 = 0#16 := by
  revert v; decide

/-- The row of a command and the mask of its word, from the fields. -/
theorem rowMatches_of {i : Instr} {row : OpcodeRow} (h1 : rowOf (encodeFields i).op = some row)
    (h2 : ((encodeFields i).and (WordFields.ofWord row.mask)).word = row.pattern) :
    RowMatches.Statement i :=
  ⟨row, by rw [encode, fieldOp_word]; exact h1, by rw [encode, WordFields.word_and_mask]; exact h2⟩

theorem RowMatches.readBit (dev : DevAddr) (reg : RegAddr) (b : Nat) (t : Option Millis) : RowMatches.Statement (.readBit dev reg b t) :=
  rowMatches_of rfl (by
    simp [encodeFields, WordFields.and, WordFields.ofWord, fieldOp, fieldTov, fieldDev, fieldReg,
      fieldCnt, fieldVal, fieldTmo, encodeBitNum_and]
    decide)

theorem RowMatches.readBitW (dev : DevAddr) (reg : RegAddr) (b : Nat) (t : Option Millis) : RowMatches.Statement (.readBitW dev reg b t) :=
  rowMatches_of rfl (by
    simp [encodeFields, WordFields.and, WordFields.ofWord, fieldOp, fieldTov, fieldDev, fieldReg,
      fieldCnt, fieldVal, fieldTmo, encodeBitNum_and]
    decide)

theorem RowMatches.readBits (dev : DevAddr) (reg : RegAddr) (f : FieldSpec) (t : Option Millis) : RowMatches.Statement (.readBits dev reg f t) :=
  rowMatches_of rfl (by
    simp [encodeFields, WordFields.and, WordFields.ofWord, fieldOp, fieldTov, fieldDev, fieldReg,
      fieldCnt, fieldVal, fieldTmo]
    decide)

theorem RowMatches.readBitsW (dev : DevAddr) (reg : RegAddr) (f : FieldSpec) (t : Option Millis) : RowMatches.Statement (.readBitsW dev reg f t) :=
  rowMatches_of rfl (by
    simp [encodeFields, WordFields.and, WordFields.ofWord, fieldOp, fieldTov, fieldDev, fieldReg,
      fieldCnt, fieldVal, fieldTmo]
    decide)

theorem RowMatches.readByte (dev : DevAddr) (reg : RegAddr) (t : Option Millis) : RowMatches.Statement (.readByte dev reg t) :=
  rowMatches_of rfl (by
    simp [encodeFields, WordFields.and, WordFields.ofWord, fieldOp, fieldTov, fieldDev, fieldReg,
      fieldCnt, fieldVal, fieldTmo]
    decide)

theorem RowMatches.readWord (dev : DevAddr) (reg : RegAddr) (t : Option Millis) : RowMatches.Statement (.readWord dev reg t) :=
  rowMatches_of rfl (by
    simp [encodeFields, WordFields.and, WordFields.ofWord, fieldOp, fieldTov, fieldDev, fieldReg,
      fieldCnt, fieldVal, fieldTmo]
    decide)

theorem RowMatches.readBytes (dev : DevAddr) (reg : RegAddr) (n : Nat) (t : Option Millis) : RowMatches.Statement (.readBytes dev reg n t) :=
  rowMatches_of rfl (by
    simp [encodeFields, WordFields.and, WordFields.ofWord, fieldOp, fieldTov, fieldDev, fieldReg,
      fieldCnt, fieldVal, fieldTmo]
    decide)

theorem RowMatches.readWords (dev : DevAddr) (reg : RegAddr) (n : Nat) (t : Option Millis) : RowMatches.Statement (.readWords dev reg n t) :=
  rowMatches_of rfl (by
    simp [encodeFields, WordFields.and, WordFields.ofWord, fieldOp, fieldTov, fieldDev, fieldReg,
      fieldCnt, fieldVal, fieldTmo]
    decide)

theorem RowMatches.readBytesNoRegAddress (dev : DevAddr) (n : Nat) (t : Option Millis) : RowMatches.Statement (.readBytesNoRegAddress dev n t) :=
  rowMatches_of rfl (by
    simp [encodeFields, WordFields.and, WordFields.ofWord, fieldOp, fieldTov, fieldDev, fieldReg,
      fieldCnt, fieldVal, fieldTmo]
    decide)

theorem RowMatches.writeBit (dev : DevAddr) (reg : RegAddr) (b : Nat) (bit : BitVec 1) : RowMatches.Statement (.writeBit dev reg b bit) :=
  rowMatches_of rfl (by
    simp [encodeFields, WordFields.and, WordFields.ofWord, fieldOp, fieldTov, fieldDev, fieldReg,
      fieldCnt, fieldVal, fieldTmo, encodeBitNum_and, setWidth_one_and]
    decide)

theorem RowMatches.writeBitW (dev : DevAddr) (reg : RegAddr) (b : Nat) (bit : BitVec 1) : RowMatches.Statement (.writeBitW dev reg b bit) :=
  rowMatches_of rfl (by
    simp [encodeFields, WordFields.and, WordFields.ofWord, fieldOp, fieldTov, fieldDev, fieldReg,
      fieldCnt, fieldVal, fieldTmo, encodeBitNum_and, setWidth_one_and]
    decide)

theorem RowMatches.writeBits (dev : DevAddr) (reg : RegAddr) (f : FieldSpec) (v : Byte) : RowMatches.Statement (.writeBits dev reg f v) :=
  rowMatches_of rfl (by
    simp [encodeFields, WordFields.and, WordFields.ofWord, fieldOp, fieldTov, fieldDev, fieldReg,
      fieldCnt, fieldVal, fieldTmo, setWidth_byte_and]
    decide)

theorem RowMatches.writeBitsW (dev : DevAddr) (reg : RegAddr) (f : FieldSpec) (v : Word16) : RowMatches.Statement (.writeBitsW dev reg f v) :=
  rowMatches_of rfl (by
    simp [encodeFields, WordFields.and, WordFields.ofWord, fieldOp, fieldTov, fieldDev, fieldReg,
      fieldCnt, fieldVal, fieldTmo]
    decide)

theorem RowMatches.writeByte (dev : DevAddr) (reg : RegAddr) (v : Byte) : RowMatches.Statement (.writeByte dev reg v) :=
  rowMatches_of rfl (by
    simp [encodeFields, WordFields.and, WordFields.ofWord, fieldOp, fieldTov, fieldDev, fieldReg,
      fieldCnt, fieldVal, fieldTmo, setWidth_byte_and]
    decide)

theorem RowMatches.writeWord (dev : DevAddr) (reg : RegAddr) (v : Word16) : RowMatches.Statement (.writeWord dev reg v) :=
  rowMatches_of rfl (by
    simp [encodeFields, WordFields.and, WordFields.ofWord, fieldOp, fieldTov, fieldDev, fieldReg,
      fieldCnt, fieldVal, fieldTmo]
    decide)

theorem RowMatches.writeBytes (dev : DevAddr) (reg : RegAddr) (n : Nat) : RowMatches.Statement (.writeBytes dev reg n) :=
  rowMatches_of rfl (by
    simp [encodeFields, WordFields.and, WordFields.ofWord, fieldOp, fieldTov, fieldDev, fieldReg,
      fieldCnt, fieldVal, fieldTmo]
    decide)

theorem RowMatches.writeWords (dev : DevAddr) (reg : RegAddr) (n : Nat) : RowMatches.Statement (.writeWords dev reg n) :=
  rowMatches_of rfl (by
    simp [encodeFields, WordFields.and, WordFields.ofWord, fieldOp, fieldTov, fieldDev, fieldReg,
      fieldCnt, fieldVal, fieldTmo]
    decide)

theorem RowMatches.extractField8 (rv : Byte) (f : FieldSpec) : RowMatches.Statement (.extractField8 rv f) :=
  rowMatches_of rfl (by
    simp [encodeFields, WordFields.and, WordFields.ofWord, fieldOp, fieldTov, fieldDev, fieldReg,
      fieldCnt, fieldVal, fieldTmo, setWidth_byte_and]
    decide)

theorem RowMatches.extractField16 (rv : Word16) (f : FieldSpec) : RowMatches.Statement (.extractField16 rv f) :=
  rowMatches_of rfl (by
    simp [encodeFields, WordFields.and, WordFields.ofWord, fieldOp, fieldTov, fieldDev, fieldReg,
      fieldCnt, fieldVal, fieldTmo]
    decide)

theorem RowMatches.injectField8 (rv : Byte) (f : FieldSpec) (v : Byte) : RowMatches.Statement (.injectField8 rv f v) :=
  rowMatches_of rfl (by
    simp [encodeFields, WordFields.and, WordFields.ofWord, fieldOp, fieldTov, fieldDev, fieldReg,
      fieldCnt, fieldVal, fieldTmo, setWidth_byte_and]
    decide)

theorem RowMatches.injectField16 (rv : Word16) (f : FieldSpec) (v : Word16) : RowMatches.Statement (.injectField16 rv f v) :=
  rowMatches_of rfl (by
    simp [encodeFields, WordFields.and, WordFields.ofWord, fieldOp, fieldTov, fieldDev, fieldReg,
      fieldCnt, fieldVal, fieldTmo]
    decide)

theorem RowMatches.setDefaultTimeout (ms : Millis) : RowMatches.Statement (.setDefaultTimeout ms) :=
  rowMatches_of rfl (by
    simp [encodeFields, WordFields.and, WordFields.ofWord, fieldOp, fieldTov, fieldDev, fieldReg,
      fieldCnt, fieldVal, fieldTmo]
    decide)

theorem RowMatches.getDefaultTimeout : RowMatches.Statement (.getDefaultTimeout) :=
  rowMatches_of rfl (by
    simp [encodeFields, WordFields.and, WordFields.ofWord, fieldOp, fieldTov, fieldDev, fieldReg,
      fieldCnt, fieldVal, fieldTmo]
    decide)

end Sys2Proof.Laws
end

