-- ==== Sys2Proof/Laws/Rules.lean ====
section
/-! SUPPORT. The rule behind each command, so that a proof over all commands splits over rules, and
what the reply steps of the shared rules do, each said once. -/

namespace Sys2Proof.Machine

/-- The rule that the meaning of a command runs. -/
def State.ruleOf (s : State) : Instr → CommandRule
  | .readBit dev reg b t => s.unitReadRule (.readBit dev reg b t) .w8 dev reg t
      fun c r => s.extract c .w8 (FieldSpec.bit b) r.toNat
  | .readBitW dev reg b t => s.unitReadRule (.readBitW dev reg b t) .w16 dev reg t
      fun c r => s.extract c .w16 (FieldSpec.bit b) r.toNat
  | .readBits dev reg f t => s.unitReadRule (.readBits dev reg f t) .w8 dev reg t
      fun c r => s.extract c .w8 f r.toNat
  | .readBitsW dev reg f t => s.unitReadRule (.readBitsW dev reg f t) .w16 dev reg t
      fun c r => s.extract c .w16 f r.toNat
  | .readByte dev reg t => s.unitReadRule (.readByte dev reg t) .w8 dev reg t fun _ r => r
  | .readWord dev reg t => s.unitReadRule (.readWord dev reg t) .w16 dev reg t fun _ r => r
  | .readBytes dev reg n t => s.arrayReadRule (.readBytes dev reg n t) .w8 dev (some reg) n t
  | .readWords dev reg n t => s.arrayReadRule (.readWords dev reg n t) .w16 dev (some reg) n t
  | .readBytesNoRegAddress dev n t =>
      s.arrayReadRule (.readBytesNoRegAddress dev n t) .w8 dev none n t
  | .writeBit dev reg b bit =>
      s.rmwRule (.writeBit dev reg b bit) .w8 dev reg (FieldSpec.bit b) bit.toNat
  | .writeBitW dev reg b bit =>
      s.rmwRule (.writeBitW dev reg b bit) .w16 dev reg (FieldSpec.bit b) bit.toNat
  | .writeBits dev reg f v => s.rmwRule (.writeBits dev reg f v) .w8 dev reg f v.toNat
  | .writeBitsW dev reg f v => s.rmwRule (.writeBitsW dev reg f v) .w16 dev reg f v.toNat
  | .writeByte dev reg v => s.unitWriteRule (.writeByte dev reg v) dev reg [v]
  | .writeWord dev reg v => s.unitWriteRule (.writeWord dev reg v) dev reg [highByte v, lowByte v]
  | .writeBytes dev reg n => s.arrayWriteRule (.writeBytes dev reg n) .w8 dev reg n
  | .writeWords dev reg n => s.arrayWriteRule (.writeWords dev reg n) .w16 dev reg n
  | .extractField8 rv f => s.valueRule fun c => s.extract c .w8 f rv.toNat
  | .extractField16 rv f => s.valueRule fun c => s.extract c .w16 f rv.toNat
  | .injectField8 rv f v => s.valueRule fun c => s.inject c .w8 f rv.toNat v.toNat
  | .injectField16 rv f v => s.valueRule fun c => s.inject c .w16 f rv.toNat v.toNat
  | .setDefaultTimeout ms =>
      immediateRule fun c k _ => { s with defaultTimeout := ms }.respond c k (.value 0)
  | .getDefaultTimeout => s.valueRule fun _ => s.defaultTimeout

/-- The meaning of every command runs its rule. -/
theorem exec_eq_run (i : Instr) (s : State) : exec i s = s.run (s.ruleOf i) := by
  cases i <;> rfl

/-! ### Reply steps -/

/-- A full unit ends a read with the value `f` makes of it. -/
theorem reportRead_full {s : State} {W : Width} (f : Nat → Word16 → Word16) {c : Nat} {k : Context}
    {reply : ReadReply} {r : Word16} (h : s.ctx? c = some k) (hu : reply.unit W = some r) :
    ∃ k', OnlyContext s (s.reportRead W f c k reply) c k' ∧
      Answered k k' (Response.boolRead true (f c r)).word := by
  rw [State.reportRead, hu]
  exact respond_spec k _ h

/-- Anything else ends it with failure and some value. -/
theorem reportRead_failed {s : State} {W : Width} (f : Nat → Word16 → Word16) {c : Nat} {k : Context}
    {reply : ReadReply} (h : s.ctx? c = some k) (hu : reply.unit W = none) :
    ∃ k', OnlyContext s (s.reportRead W f c k reply) c k' ∧
      Answered k k' (Response.boolRead false (s.draw c 0)).word := by
  rw [State.reportRead, hu]
  exact respond_spec k _ h

/-- A full unit makes a bit or field write send the changed unit back. -/
theorem modify_full {s : State} {W : Width} (dev : DevAddr) (reg : RegAddr) (f : FieldSpec) (v : Nat)
    {c : Nat} {k : Context} {reply : ReadReply} {r : Word16} (h : s.ctx? c = some k)
    (hu : reply.unit W = some r) :
    ∃ k', OnlyContext s (s.modify W dev reg f v c k reply) c k' ∧
      SentBack k k' (s.inject c W f r.toNat v)
        (.write k.cmdl.bus dev reg (unitBytes W (s.inject c W f r.toNat v))) := by
  rw [State.modify, hu]
  exact ⟨_, onlyContext_setCtx _ h, ⟨rfl, rfl, rfl, rfl, rfl, rfl⟩⟩

/-- Anything else ends it with failure, and nothing is sent. -/
theorem modify_failed {s : State} {W : Width} (dev : DevAddr) (reg : RegAddr) (f : FieldSpec) (v : Nat)
    {c : Nat} {k : Context} {reply : ReadReply} (h : s.ctx? c = some k) (hu : reply.unit W = none) :
    ∃ k', OnlyContext s (s.modify W dev reg f v c k reply) c k' ∧
      Answered k k' (Response.write false).word := by
  rw [State.modify, hu]
  exact respond_spec k _ h

/-- Delivered bytes end an array read with their count of units, in `BUF`. -/
theorem reportArray_bytes {s : State} {c : Nat} {k : Context} (W : Width) (n : Nat) (b : List Byte)
    (h : s.ctx? c = some k) :
    ∃ k', OnlyContext s (s.reportArray W n c k (.bytes b)) c k' ∧
      Ended k k' (Response.count (unitsOfBytes W b).length).word ∧
      k'.buf = s.fillBuf c k n (unitsOfBytes W b) :=
  ⟨_, onlyContext_setCtx _ h, ⟨rfl, rfl, rfl, rfl, rfl⟩, rfl⟩

/-- A bus error ends an array read with sentinel A, or with count 0 when nothing was asked for. -/
theorem reportArray_busError {s : State} {c : Nat} {k : Context} (W : Width) (n : Nat)
    (h : s.ctx? c = some k) :
    ∃ k', OnlyContext s (s.reportArray W n c k .busError) c k' ∧
      Ended k k' (if n = 0 then Response.count 0 else .sentinelA).word ∧
      k'.buf = s.fillBuf c k n [] :=
  ⟨_, onlyContext_setCtx _ h, ⟨rfl, rfl, rfl, rfl, rfl⟩, rfl⟩

/-- A timeout ends an array read with sentinel B, or with count 0 when nothing was asked for. -/
theorem reportArray_timeout {s : State} {c : Nat} {k : Context} (W : Width) (n : Nat)
    (h : s.ctx? c = some k) :
    ∃ k', OnlyContext s (s.reportArray W n c k .timeout) c k' ∧
      Ended k k' (if n = 0 then Response.count 0 else .sentinelB).word ∧
      k'.buf = s.fillBuf c k n [] :=
  ⟨_, onlyContext_setCtx _ h, ⟨rfl, rfl, rfl, rfl, rfl⟩, rfl⟩

/-- The write-reply step reports the reply. -/
theorem reportWrite_spec {s : State} {c : Nat} {k : Context} (reply : WriteReply)
    (h : s.ctx? c = some k) :
    ∃ k', OnlyContext s (s.reportWrite c k reply) c k' ∧
      Answered k k' (Response.write (reply == .ok)).word :=
  respond_spec k _ h

end Sys2Proof.Machine
end

