-- ==== Sys2Proof/Laws/Step.lean ====
section
/-! SUPPORT. What one move can do, said once: every proof about `step` splits over `step_next`. -/

namespace Sys2Proof.Machine

/-- `finish` goes on exactly where its argument does. -/
theorem finish_next {r : Result} {t : State} (h : finish r = .next t) :
    ∃ u, r = .next u ∧ t = u.advance := by
  cases r with
  | next u => cases h; exact ⟨u, rfl, rfl⟩
  | fault e => cases h
  | refused e => cases h

/-- Every rule that has a write-reply step reports the reply. -/
theorem ruleOf_writeReply {s : State} {i : Instr} {f : Nat → Context → WriteReply → State}
    (h : (s.ruleOf i).writeReply = some f) : f = s.reportWrite := by
  cases i <;> first | (cases h; done) | (cases h; rfl)

/-- A reply step that goes on runs the rule of the latched command. -/
theorem stepReply_next {s u : State} {c : Nat} (h : stepReply c s = .next u) :
    ∃ k, s.ctx? c = some k ∧ s.run (s.ruleOf k.cmdl.cmd) = .next u := by
  unfold stepReply at h
  split at h
  · cases h
  · rename_i k hk
    refine ⟨k, hk, ?_⟩
    rw [← exec_eq_run]
    split at h
    · cases h
    · exact h
    · exact h

/-- All that a move can do when it answers a next state: the block waits; or an idle context runs the
issue step of a legal word or answers an illegal one; or a waiting context runs the reply step of its
latched command; or the host touches `BUF` or reads `RESP`; or the block is reset; or an abandoned
reply is discarded. -/
theorem step_next {s t : State} (h : step s = .next t) :
    (s.inputs = [] ∧ t = s) ∨
    (∃ c bus w rest k u, s.inputs = .command c bus w :: rest ∧ s.ctx? c = some k ∧
      k.phase = .idle ∧ t = u.advance ∧
      ((∃ i, decode w = .ok i ∧ u = (s.ruleOf i).issue c k bus) ∨
        (∃ e, decode w = .error e ∧ u = s.respond c k .illegal))) ∨
    (∃ c r rest k f, s.inputs = .readReply c r :: rest ∧ s.ReadAnswered c k r ∧
      (s.ruleOf k.cmdl.cmd).readReply = some f ∧ t = (f c k r).advance) ∨
    (∃ c r rest k f, s.inputs = .writeReply c r :: rest ∧ s.WriteAnswered c k r ∧
      (s.ruleOf k.cmdl.cmd).writeReply = some f ∧ t = (f c k r).advance) ∨
    (∃ c j v rest k, s.inputs = .hostWriteBuf c j v :: rest ∧ s.ctx? c = some k ∧
      k.phase = .idle ∧ t = (s.setCtx c { k with buf := k.buf.set j.toNat v j.isLt }).advance) ∨
    (∃ c j rest k x, s.inputs = .hostReadBuf c j :: rest ∧ s.ctx? c = some k ∧ k.phase = .idle ∧
      x = some ((k.buf[j.toNat]'j.isLt).setWidth 32) ∧ t = { s with hostData := x }.advance) ∨
    (∃ c rest k, s.inputs = .hostReadResp c :: rest ∧ s.ctx? c = some k ∧
      t = { s with hostData := some k.resp }.advance) ∨
    (∃ rest, s.inputs = .reset :: rest ∧ t = s.resetEvent.advance) ∨
    (∃ j rest, s.inputs = .abandonedReply j :: rest ∧ j < s.abandoned.length ∧
      t = { s with abandoned := s.abandoned.eraseIdx j }.advance) := by
  cases hin : s.inputs with
  | nil =>
    simp [step, hin] at h
    exact Or.inl ⟨rfl, h.symm⟩
  | cons i rest =>
    right
    rw [step, hin] at h
    cases i with
    | command c bus w =>
      left
      obtain ⟨u, hu, ht⟩ := finish_next h
      have key : ∀ rule, s.run rule = .next u →
          ∃ k, s.ctx? c = some k ∧ k.phase = .idle ∧ u = rule.issue c k bus := by
        intro rule hr
        rcases run_next hr with ⟨_, _, k, ⟨⟨_, _, hm⟩, hc, hp⟩, hu⟩ |
          ⟨_, _, _, _, ⟨⟨_, hm⟩, _⟩, _⟩ | ⟨_, _, _, _, ⟨⟨_, hm⟩, _⟩, _⟩
        · rw [hin] at hm
          cases hm
          exact ⟨k, hc, hp, hu⟩
        · rw [hin] at hm
          cases hm
        · rw [hin] at hm
          cases hm
      cases hd : decode w with
      | ok i =>
        simp only [stepCommand, hd, exec_eq_run] at hu
        obtain ⟨k, hc, hp, he⟩ := key _ hu
        exact ⟨c, bus, w, rest, k, u, rfl, hc, hp, ht, Or.inl ⟨i, hd, he⟩⟩
      | error e =>
        simp only [stepCommand, hd, State.answerIllegal] at hu
        obtain ⟨k, hc, hp, he⟩ := key _ hu
        exact ⟨c, bus, w, rest, k, u, rfl, hc, hp, ht, Or.inr ⟨e, hd, he⟩⟩
    | readReply c r =>
      right; left
      obtain ⟨u, hu, ht⟩ := finish_next h
      obtain ⟨k, hk, he⟩ := stepReply_next hu
      rcases run_next he with ⟨_, _, _, ⟨⟨_, _, hm⟩, _, _⟩, _⟩ | ⟨_, _, _, f, hR, hf, hu⟩ |
        ⟨_, _, _, _, ⟨⟨_, hm⟩, _⟩, _⟩
      · rw [hin] at hm
        cases hm
      · obtain ⟨_, hm⟩ := hR.move
        rw [hin] at hm
        cases hm
        have hk' := hR.ctx
        rw [hk] at hk'
        cases hk'
        exact ⟨c, r, rest, k, f, rfl, hR, hf, by rw [ht, hu]⟩
      · rw [hin] at hm
        cases hm
    | writeReply c r =>
      right; right; left
      obtain ⟨u, hu, ht⟩ := finish_next h
      obtain ⟨k, hk, he⟩ := stepReply_next hu
      rcases run_next he with ⟨_, _, _, ⟨⟨_, _, hm⟩, _, _⟩, _⟩ | ⟨_, _, _, _, ⟨⟨_, hm⟩, _⟩, _⟩ |
        ⟨_, _, _, f, hR, hf, hu⟩
      · rw [hin] at hm
        cases hm
      · rw [hin] at hm
        cases hm
      · obtain ⟨_, hm⟩ := hR.move
        rw [hin] at hm
        cases hm
        have hk' := hR.ctx
        rw [hk] at hk'
        cases hk'
        exact ⟨c, r, rest, k, f, rfl, hR, hf, by rw [ht, hu]⟩
    | hostWriteBuf c j v =>
      right; right; right; left
      obtain ⟨u, hu, ht⟩ := finish_next h
      unfold State.hostWriteBuf at hu
      split at hu
      · cases hu
      · rename_i k hk
        split at hu
        · rename_i hp
          cases hu
          exact ⟨c, j, v, rest, k, rfl, hk, hp, ht⟩
        · cases hu
    | hostReadBuf c j =>
      right; right; right; right; left
      obtain ⟨u, hu, ht⟩ := finish_next h
      unfold State.hostReadBuf at hu
      split at hu
      · cases hu
      · rename_i k hk
        split at hu
        · rename_i hp
          cases hu
          exact ⟨c, j, rest, k, _, rfl, hk, hp, rfl, by rw [ht, ← hin]⟩
        · cases hu
    | hostReadResp c =>
      right; right; right; right; right; left
      obtain ⟨u, hu, ht⟩ := finish_next h
      unfold State.hostReadResp at hu
      split at hu
      · cases hu
      · rename_i k hk
        cases hu
        exact ⟨c, rest, k, rfl, hk, by rw [ht, ← hin]⟩
    | reset =>
      right; right; right; right; right; right; left
      obtain ⟨u, hu, ht⟩ := finish_next h
      cases hu
      exact ⟨rest, rfl, ht⟩
    | abandonedReply j =>
      right; right; right; right; right; right; right
      obtain ⟨u, hu, ht⟩ := finish_next h
      unfold State.discardReply at hu
      split at hu
      · rename_i hj
        cases hu
        exact ⟨j, rest, rfl, hj, by rw [ht, ← hin]⟩
      · cases hu

/-! ### Two blocks side by side -/

/-- Outcomes related before passing to the next input are related after it. -/
theorem sameOutcome_finish {R : State → State → Prop} {x y : Result}
    (h : SameOutcome (fun s t => R s.advance t.advance) x y) :
    SameOutcome R (finish x) (finish y) := by
  cases x <;> cases y <;> exact h

/-- Blocks that agree on a context still do after passing to the next input. -/
theorem AgreeOn.advance {c : Nat} {u s : State} (h : AgreeOn c u s) :
    AgreeOn c u.advance s.advance where
  ctx := by simpa using h.ctx
  defaultTimeout := h.defaultTimeout
  inputs := congrArg List.tail h.inputs
  policy := h.policy
  tick := congrArg (· + 1) h.tick
  hostData := h.hostData

/-- Blocks that agree on a context still do when that context is replaced in both. -/
theorem AgreeOn.setCtx {c : Nat} {u s : State} {k : Context} (h : AgreeOn c u s) (q : Context)
    (hc : s.ctx? c = some k) : AgreeOn c (u.setCtx c q) (s.setCtx c q) where
  ctx := by rw [State.ctx?_setCtx_self q hc, State.ctx?_setCtx_self q (h.ctx.trans hc)]
  defaultTimeout := by simpa using h.defaultTimeout
  inputs := by simpa using h.inputs
  policy := by simpa using h.policy
  tick := by simpa using h.tick
  hostData := by simpa using h.hostData

end Sys2Proof.Machine
end

