-- ==== Sys2Proof/Tests/Slice0.lean ====
section
/-! SUPPORT. The tests: ill-formed operands, decoding of words the spec writes out, one step of each
command on the vectors of 95_test_vectors, and for every statement with hypotheses a case that meets
them.  Expected values come from the spec, never from the model. -/

namespace Sys2Proof.Tests

open Sys2Proof Sys2Proof.Machine

/-! ### WellFormed refuses what a command word cannot carry (30_encoding R91, R97) -/

theorem test_illFormed_readBit : (Instr.readBit 0 0 16 none).wf = false := by decide

theorem test_illFormed_readBitW : (Instr.readBitW 0 0 16 none).wf = false := by decide

theorem test_illFormed_readBits_start : (Instr.readBits 0 0 ⟨16, 1⟩ none).wf = false := by decide

theorem test_illFormed_readBits_empty : (Instr.readBits 0 0 ⟨0, 0⟩ none).wf = false := by decide

theorem test_illFormed_readBitsW_long : (Instr.readBitsW 0 0 ⟨0, 17⟩ none).wf = false := by decide

theorem test_illFormed_readBytes : (Instr.readBytes 0 0 256 none).wf = false := by decide

theorem test_illFormed_readWords : (Instr.readWords 0 0 256 none).wf = false := by decide

theorem test_illFormed_readBytesNoRegAddress : (Instr.readBytesNoRegAddress 0 256 none).wf = false := by decide

theorem test_illFormed_writeBit : (Instr.writeBit 0 0 16 1).wf = false := by decide

theorem test_illFormed_writeBitW : (Instr.writeBitW 0 0 16 1).wf = false := by decide

theorem test_illFormed_writeBits : (Instr.writeBits 0 0 ⟨0, 17⟩ 1).wf = false := by decide

theorem test_illFormed_writeBitsW : (Instr.writeBitsW 0 0 ⟨16, 1⟩ 1).wf = false := by decide

theorem test_illFormed_writeBytes : (Instr.writeBytes 0 0 256).wf = false := by decide

theorem test_illFormed_writeWords : (Instr.writeWords 0 0 256).wf = false := by decide

theorem test_illFormed_extractField8 : (Instr.extractField8 0 ⟨0, 0⟩).wf = false := by decide

theorem test_illFormed_extractField16 : (Instr.extractField16 0 ⟨16, 1⟩).wf = false := by decide

theorem test_illFormed_injectField8 : (Instr.injectField8 0 ⟨0, 17⟩ 0).wf = false := by decide

theorem test_illFormed_injectField16 : (Instr.injectField16 0 ⟨0, 0⟩ 0).wf = false := by decide

/-- The largest operands, and a field out of range for its width, are well formed (30_encoding R95). -/
theorem test_wellFormed_limits :
    (Instr.readBit 0x7F 0xFF 15 (some 0xFFFF)).wf = true ∧
    (Instr.writeBits 0 0 ⟨15, 16⟩ 0xFF).wf = true ∧
    (Instr.readWords 0 0 255 none).wf = true := by decide

/-! ### Decoding (95_test_vectors 7.3) -/

theorem test_decode_readBit : decode 0x00686B6000000000 = .ok (.readBit 0x68 0x6B 6 none) := by decide

theorem test_decode_readBitW : decode 0x01C000F000000032 = .ok (.readBitW 0x40 0x00 15 (some 50)) := by decide

theorem test_decode_readBits : decode 0x02681B2200000000 = .ok (.readBits 0x68 0x1B ⟨2, 3⟩ none) := by decide

theorem test_decode_readBitsW : decode 0x0340054700000000 = .ok (.readBitsW 0x40 0x05 ⟨4, 8⟩ none) := by decide

theorem test_decode_readByte : decode 0x0468750000000000 = .ok (.readByte 0x68 0x75 none) := by decide

theorem test_decode_readWord : decode 0x05C0020000000064 = .ok (.readWord 0x40 0x02 (some 100)) := by decide

theorem test_decode_readBytes : decode 0x06683B0600000000 = .ok (.readBytes 0x68 0x3B 6 none) := by decide

theorem test_decode_readWords : decode 0x0740010200000000 = .ok (.readWords 0x40 0x01 2 none) := by decide

theorem test_decode_readBytesNoRegAddress : decode 0x08D0000400000014 = .ok (.readBytesNoRegAddress 0x50 4 (some 20)) := by decide

theorem test_decode_writeBit : decode 0x10686B6000010000 = .ok (.writeBit 0x68 0x6B 6 1) := by decide

theorem test_decode_writeBitW : decode 0x114000F000010000 = .ok (.writeBitW 0x40 0x00 15 1) := by decide

theorem test_decode_writeBits : decode 0x12681C43000F0000 = .ok (.writeBits 0x68 0x1C ⟨4, 4⟩ 0x0F) := by decide

theorem test_decode_writeBitsW : decode 0x1340053600550000 = .ok (.writeBitsW 0x40 0x05 ⟨3, 7⟩ 0x0055) := by decide

theorem test_decode_writeByte : decode 0x1468190000070000 = .ok (.writeByte 0x68 0x19 0x07) := by decide

theorem test_decode_writeWord : decode 0x1540050010000000 = .ok (.writeWord 0x40 0x05 0x1000) := by decide

theorem test_decode_writeBytes : decode 0x1650100300000000 = .ok (.writeBytes 0x50 0x10 3) := by decide

theorem test_decode_writeWords : decode 0x1740060200000000 = .ok (.writeWords 0x40 0x06 2) := by decide

theorem test_decode_extractField8 : decode 0x20000022000000B4 = .ok (.extractField8 0xB4 ⟨2, 3⟩) := by decide

theorem test_decode_extractField16 : decode 0x210000470000BEEF = .ok (.extractField16 0xBEEF ⟨4, 8⟩) := by decide

theorem test_decode_injectField8 : decode 0x22000043000F0000 = .ok (.injectField8 0x00 ⟨4, 4⟩ 0x0F) := by decide

theorem test_decode_injectField16 : decode 0x2300003600551234 = .ok (.injectField16 0x1234 ⟨3, 7⟩ 0x0055) := by decide

theorem test_decode_setDefaultTimeout : decode 0x30000000000000FA = .ok (.setDefaultTimeout 250) := by decide

theorem test_decode_getDefaultTimeout : decode 0x3100000000000000 = .ok (.getDefaultTimeout) := by decide

/-- Legal although the field does not fit the register (30_encoding R95). -/
theorem test_decode_fieldOutOfRange :
    decode 0x12681C6300000000 = .ok (.writeBits 0x68 0x1C ⟨6, 4⟩ 0) ∧
    decode 0x230000FF0000BEEF = .ok (.injectField16 0xBEEF ⟨15, 16⟩ 0) ∧
    decode 0x1340050FFFFF0000 = .ok (.writeBitsW 0x40 0x05 ⟨0, 16⟩ 0xFFFF) := by decide

/-- An explicit timeout of 0 is explicit (95_test_vectors T2). -/
theorem test_decode_explicitZeroTimeout :
    decode 0x04E8750000000000 = .ok (.readByte 0x68 0x75 (some 0)) := by decide

theorem test_decode_unknownOpcodes :
    decode 0x0900000000000000 = .error (.unknownOpcode 0x09) ∧
    decode 0x1800000000000000 = .error (.unknownOpcode 0x18) ∧
    decode 0x2400000000000000 = .error (.unknownOpcode 0x24) ∧
    decode 0x3200000000000000 = .error (.unknownOpcode 0x32) ∧
    decode 0xFF00000000000000 = .error (.unknownOpcode 0xFF) := by decide

theorem test_decode_timeoutWithoutTov :
    decode 0x0468750000000064 = .error (.timeoutWithoutTov 0x04) := by decide

theorem test_decode_reservedBitsOfReads :
    decode 0x0568750100000000 = .error (.reservedBits 0x05) ∧
    decode 0x00686B6100000000 = .error (.reservedBits 0x00) ∧
    decode 0x0850100400000000 = .error (.reservedBits 0x08) := by decide

theorem test_decode_reservedBitsOfWrites :
    decode 0x10686B6000020000 = .error (.reservedBits 0x10) ∧
    decode 0x14E86B0000000000 = .error (.reservedBits 0x14) ∧
    decode 0x1568100012348000 = .error (.reservedBits 0x15) ∧
    decode 0x1768100300010000 = .error (.reservedBits 0x17) := by decide

theorem test_decode_reservedBitsOfOthers :
    decode 0x2000002200000100 = .error (.reservedBits 0x20) ∧
    decode 0x2180000000000000 = .error (.reservedBits 0x21) ∧
    decode 0x3100000000000001 = .error (.reservedBits 0x31) ∧
    decode 0x3000000000010000 = .error (.reservedBits 0x30) := by decide

theorem test_decodeTableWord :
    decodeTableWord 64 0x3100000000000000 = some .getDefaultTimeout ∧
    decodeTableWord 64 0x0900000000000000 = none := by decide

/-! ### The field out of range, by the formulas (95_test_vectors Part 4) -/

theorem test_extract_outOfRange :
    extractW 8 0xFF 4 8 = 0x0F ∧ extractW 8 0xFF 8 1 = 0 ∧ extractW 8 0xA5 15 16 = 0 ∧
    extractW 8 0xA5 0 16 = 0xA5 ∧ extractW 16 0xBEEF 12 8 = 0x000B ∧
    extractW 16 0xBEEF 15 16 = 1 ∧ extractW 16 0xFFFF 1 16 = 0x7FFF := by decide

theorem test_inject_outOfRange :
    injectW 8 0xA5 4 8 0xFF = 0xF5 ∧ injectW 8 0xA5 8 1 1 = 0xA5 ∧ injectW 8 0xA5 6 4 0 = 0x25 ∧
    injectW 16 0xBEEF 12 8 0xFF = 0xFEEF ∧ injectW 16 0xBEEF 15 16 0 = 0x3EEF ∧
    injectW 16 0 15 16 0xFFFF = 0x8000 ∧ injectW 8 0x0F 0 16 0xF0 = 0xF0 := by decide

/-! ### Small blocks -/

/-- An idle context whose `BUF` starts with `0x1234, 0xABCD, 0xFFCC`. -/
def idleContext : Context :=
  { phase := .idle
    cmdl := ⟨.getDefaultTimeout, 0, none⟩
    rvl := 0x5555
    buf := Vector.ofFn fun i =>
      if i.val = 0 then 0x1234 else if i.val = 1 then 0xABCD else if i.val = 2 then 0xFFCC else 0x7777
    resp := 0x11111111
    outstanding := none }

/-- A context in which the read of `i` is outstanding, on bus 7 with timeout 250. -/
def readingContext (i : Instr) : Context :=
  { idleContext with
    phase := .rdWait, cmdl := ⟨i, 7, some 250⟩, outstanding := readRequest 7 250 i }

/-- A context in which the write of `i` is outstanding, on bus 7. -/
def writingContext (i : Instr) : Context :=
  { idleContext with
    phase := .wrWait, rvl := 0x55, cmdl := ⟨i, 7, some 250⟩
    outstanding := writeRequest { idleContext with rvl := 0x55 } 7 i }

/-- A block with these two contexts and one move to come. -/
def block (k q : Context) (i : Input) : State :=
  { defaultTimeout := 250, ctx0 := k, more := [q], abandoned := [], policy := Policy.default
    inputs := [i], tick := 5, hostData := none }

/-- A word presented to idle context 0. -/
def presented (w : CommandWord) : State := block idleContext idleContext (.command 0 7 w)

/-- The read of `i` answered. -/
def readAnswered (i : Instr) (r : ReadReply) : State :=
  block (readingContext i) idleContext (.readReply 0 r)

/-- The write of `i` answered. -/
def writeAnswered (i : Instr) (r : WriteReply) : State :=
  block (writingContext i) idleContext (.writeReply 0 r)

/-- The next move is made, and it leaves this request and this response in context 0. -/
def gives (s : State) (req : Option Request) (resp : ResponseWord) : Bool :=
  match step s with
  | .next t => decide (t.ctx0.outstanding = req ∧ t.ctx0.resp = resp ∧
      (t.ctx0.phase = .idle ↔ req = none))
  | .fault _ => false
  | .refused _ => false

/-- The next move leaves this value in an entry of the `BUF` of context 0. -/
def leaves (s : State) (j : Fin 256) (x : Word16) : Bool :=
  match step s with
  | .next t => decide (t.ctx0.buf[j] = x)
  | .fault _ => false
  | .refused _ => false

/-! ### One step of each command (95_test_vectors Parts 2, 3, 5, 6 and 7; the issue step leaves
`RESP` alone, 10_state R32) -/

/-- 95_test_vectors F1. -/
theorem test_readBit_issue :
    gives (presented 0x00686B6000000000) (some (.read 7 0x68 (some 0x6B) 1 250)) 0x11111111 = true := by decide

/-- 95_test_vectors F1 and F2. -/
theorem test_readBit_reply :
    gives (readAnswered (.readBit 0x68 0x6B 6 none) (.bytes [0x40])) none 0x80000001 = true ∧
    gives (readAnswered (.readBit 0x68 0x6B 6 none) (.bytes [0xBF])) none 0x80000000 = true := by decide

/-- 95_test_vectors F4. -/
theorem test_readBitW_issue :
    gives (presented 0x01C000F000000032) (some (.read 7 0x40 (some 0x00) 2 50)) 0x11111111 = true := by decide

/-- 95_test_vectors F4. -/
theorem test_readBitW_reply :
    gives (readAnswered (.readBitW 0x40 0x00 15 (some 50)) (.bytes [0x80, 0x00])) none 0x80000001 = true := by decide

/-- 95_test_vectors F7. -/
theorem test_readBits_issue :
    gives (presented 0x02E81B2200000032) (some (.read 7 0x68 (some 0x1B) 1 50)) 0x11111111 = true := by decide

/-- 95_test_vectors F3. -/
theorem test_readBits_reply :
    gives (readAnswered (.readBits 0x68 0x1B ⟨2, 3⟩ none) (.bytes [0xB4])) none 0x80000005 = true := by decide

/-- 95_test_vectors F5. -/
theorem test_readBitsW_issue :
    gives (presented 0x0340054700000000) (some (.read 7 0x40 (some 0x05) 2 250)) 0x11111111 = true := by decide

/-- 95_test_vectors F5. -/
theorem test_readBitsW_reply :
    gives (readAnswered (.readBitsW 0x40 0x05 ⟨4, 8⟩ none) (.bytes [0xBE, 0xEF])) none 0x800000EE = true := by decide

/-- 95_test_vectors T1 and T2. -/
theorem test_readByte_issue :
    gives (presented 0x0468750000000000) (some (.read 7 0x68 (some 0x75) 1 250)) 0x11111111 = true ∧
    gives (presented 0x04E8750000000000) (some (.read 7 0x68 (some 0x75) 1 0)) 0x11111111 = true := by decide

/-- 95_test_vectors A1. -/
theorem test_readByte_reply :
    gives (readAnswered (.readByte 0x68 0x75 none) (.bytes [0x68])) none 0x80000068 = true := by decide

/-- 95_test_vectors A2. -/
theorem test_readWord_issue :
    gives (presented 0x05C0020000000064) (some (.read 7 0x40 (some 0x02) 2 100)) 0x11111111 = true := by decide

/-- 95_test_vectors A2. -/
theorem test_readWord_reply :
    gives (readAnswered (.readWord 0x40 0x02 (some 100)) (.bytes [0xBE, 0xEF])) none 0x8000BEEF = true := by decide

/-- 95_test_vectors A4 and A6. -/
theorem test_readBytes_issue :
    gives (presented 0x06683B0600000000) (some (.read 7 0x68 (some 0x3B) 6 250)) 0x11111111 = true ∧
    gives (presented 0x06683B0000000000) none 0x80000000 = true := by decide

/-- 95_test_vectors A5 and A7. -/
theorem test_readBytes_reply :
    gives (readAnswered (.readBytes 0x68 0x3B 6 none) (.bytes [1, 2, 3, 4])) none 0x80040000 = true ∧
    leaves (readAnswered (.readBytes 0x68 0x3B 6 none) (.bytes [1, 2, 3, 4])) 3 0x0004 = true ∧
    leaves (readAnswered (.readBytes 0x68 0x3B 6 none) (.bytes [1, 2, 3, 4])) 6 0x7777 = true ∧
    gives (readAnswered (.readBytes 0x68 0x3B 6 none) .busError) none 0x20000000 = true := by decide +kernel

/-- 95_test_vectors A9. -/
theorem test_readWords_issue :
    gives (presented 0x0740010200000000) (some (.read 7 0x40 (some 0x01) 4 250)) 0x11111111 = true := by decide

/-- 95_test_vectors A9 and A10. -/
theorem test_readWords_reply :
    gives (readAnswered (.readWords 0x40 0x01 2 none) (.bytes [0x12, 0x34, 0xAB])) none 0x80010000 = true ∧
    leaves (readAnswered (.readWords 0x40 0x01 2 none) (.bytes [0x12, 0x34, 0xAB, 0xCD])) 1 0xABCD = true ∧
    leaves (readAnswered (.readWords 0x40 0x01 2 none) (.bytes [0x12, 0x34, 0xAB])) 2 0xFFCC = true := by decide +kernel

/-- 95_test_vectors A12. -/
theorem test_readBytesNoRegAddress_issue :
    gives (presented 0x08D0000400000014) (some (.read 7 0x50 none 4 20)) 0x11111111 = true := by decide

/-- 95_test_vectors A8 and A12. -/
theorem test_readBytesNoRegAddress_reply :
    gives (readAnswered (.readBytesNoRegAddress 0x50 4 (some 20)) .timeout) none 0x40000000 = true ∧
    leaves (readAnswered (.readBytesNoRegAddress 0x50 4 (some 20)) (.bytes [0xDE, 0xAD, 0xBE, 0xEF])) 3 0x00EF = true := by decide +kernel

/-- 95_test_vectors F8. -/
theorem test_writeBit_read :
    gives (presented 0x10686B6000000000) (some (.read 7 0x68 (some 0x6B) 1 250)) 0x11111111 = true := by decide

/-- 95_test_vectors F8 and F9. -/
theorem test_writeBit_write :
    gives (readAnswered (.writeBit 0x68 0x6B 6 0) (.bytes [0x40])) (some (.write 7 0x68 0x6B [0x00])) 0x11111111 = true ∧
    gives (readAnswered (.writeBit 0x68 0x6B 6 1) (.bytes [0x40])) (some (.write 7 0x68 0x6B [0x40])) 0x11111111 = true := by decide

/-- 95_test_vectors F10. -/
theorem test_writeBitW_write :
    gives (readAnswered (.writeBitW 0x40 0x00 15 1) (.bytes [0x7F, 0xFF])) (some (.write 7 0x40 0x00 [0xFF, 0xFF])) 0x11111111 = true := by decide

/-- 95_test_vectors F17. -/
theorem test_writeBitW_shortRead :
    gives (readAnswered (.writeBitW 0x40 0x00 15 1) (.bytes [0x7F])) none 0x00000000 = true := by decide

/-- 95_test_vectors F11, F15 and F16. -/
theorem test_writeBits_write :
    gives (readAnswered (.writeBits 0x68 0x1C ⟨4, 4⟩ 0xF) (.bytes [0x00])) (some (.write 7 0x68 0x1C [0xF0])) 0x11111111 = true ∧
    gives (readAnswered (.writeBits 0x68 0x1C ⟨6, 4⟩ 0) (.bytes [0xA5])) (some (.write 7 0x68 0x1C [0x25])) 0x11111111 = true ∧
    gives (readAnswered (.writeBits 0x68 0x1C ⟨2, 3⟩ 0xFF) (.bytes [0xB4])) (some (.write 7 0x68 0x1C [0xBC])) 0x11111111 = true := by decide

/-- 95_test_vectors F13 and F14. -/
theorem test_writeBits_failures :
    gives (readAnswered (.writeBits 0x68 0x1C ⟨4, 4⟩ 0xF) .busError) none 0x00000000 = true ∧
    gives (writeAnswered (.writeBits 0x68 0x1C ⟨4, 4⟩ 0xF) .error) none 0x00000000 = true := by decide

/-- 95_test_vectors F12. -/
theorem test_writeBitsW_write :
    gives (readAnswered (.writeBitsW 0x40 0x05 ⟨3, 7⟩ 0x55) (.bytes [0x12, 0x34])) (some (.write 7 0x40 0x05 [0x12, 0xAC])) 0x11111111 = true := by decide

/-- 95_test_vectors F12. -/
theorem test_writeBitsW_end :
    gives (writeAnswered (.writeBitsW 0x40 0x05 ⟨3, 7⟩ 0x55) .ok) none 0x80000000 = true := by decide

/-- 95_test_vectors A13. -/
theorem test_writeByte_issue :
    gives (presented 0x1468190000070000) (some (.write 7 0x68 0x19 [0x07])) 0x11111111 = true := by decide

/-- 95_test_vectors A13 and A18. -/
theorem test_writeByte_end :
    gives (writeAnswered (.writeByte 0x68 0x19 7) .ok) none 0x80000000 = true ∧
    gives (writeAnswered (.writeByte 0x68 0x19 7) .error) none 0x00000000 = true := by decide

/-- 95_test_vectors A14. -/
theorem test_writeWord_issue :
    gives (presented 0x1540050010000000) (some (.write 7 0x40 0x05 [0x10, 0x00])) 0x11111111 = true := by decide

/-- 95_test_vectors A14. -/
theorem test_writeWord_end :
    gives (writeAnswered (.writeWord 0x40 0x05 0x1000) .ok) none 0x80000000 = true := by decide

/-- 95_test_vectors A15, with the entries of the helper block. -/
theorem test_writeBytes_issue :
    gives (presented 0x1650100300000000) (some (.write 7 0x50 0x10 [0x34, 0xCD, 0xCC])) 0x11111111 = true := by decide +kernel

/-- 95_test_vectors A15. -/
theorem test_writeBytes_end :
    gives (writeAnswered (.writeBytes 0x50 0x10 3) .ok) none 0x80000000 = true := by decide +kernel

/-- 95_test_vectors A16 and A17. -/
theorem test_writeWords_issue :
    gives (presented 0x1740060200000000) (some (.write 7 0x40 0x06 [0x12, 0x34, 0xAB, 0xCD])) 0x11111111 = true ∧
    gives (presented 0x1740060000000000) none 0x80000000 = true := by decide +kernel

/-- 95_test_vectors A16. -/
theorem test_writeWords_end :
    gives (writeAnswered (.writeWords 0x40 0x06 2) .ok) none 0x80000000 = true := by decide +kernel

/-- 95_test_vectors E1, E7 and X1. -/
theorem test_extractField8 :
    gives (presented 0x20000022000000B4) none 0x80000005 = true ∧
    gives (presented 0x20000015000000A5) none 0x80000012 = true ∧
    gives (presented 0x20000047000000FF) none 0x8000000F = true := by decide

/-- 95_test_vectors E8, E11 and E13. -/
theorem test_extractField16 :
    gives (presented 0x2100000F0000BEEF) none 0x8000BEEF = true ∧
    gives (presented 0x210000F000008000) none 0x80000001 = true ∧
    gives (presented 0x2100003600001234) none 0x80000046 = true := by decide

/-- 95_test_vectors I3, I4, I8 and X8. -/
theorem test_injectField8 :
    gives (presented 0x22000022000200B4) none 0x800000A8 = true ∧
    gives (presented 0x2200002200FF00B4) none 0x800000BC = true ∧
    gives (presented 0x22000015002A00A5) none 0x800000D5 = true ∧
    gives (presented 0x2200004700FF00A5) none 0x800000F5 = true := by decide

/-- 95_test_vectors I11, I13, I14 and X12. -/
theorem test_injectField16 :
    gives (presented 0x2300003600551234) none 0x800012AC = true ∧
    gives (presented 0x230000F00000FFFF) none 0x80007FFF = true ∧
    gives (presented 0x2300004701FFBEEF) none 0x8000BFFF = true ∧
    gives (presented 0x230000FF0000BEEF) none 0x80003EEF = true := by decide

/-- 95_test_vectors C1. -/
theorem test_setDefaultTimeout :
    gives (presented 0x30000000000000FA) none 0x80000000 = true ∧
    (match step (presented 0x300000000000FFFF) with
      | .next t => decide (t.defaultTimeout = 0xFFFF)
      | _ => false) = true := by decide

/-- 95_test_vectors C1. -/
theorem test_getDefaultTimeout :
    gives (presented 0x3100000000000000) none 0x800000FA = true := by decide

/-- An illegal word, and a read reply too short for one unit (95_test_vectors 7.3, F6). -/
theorem test_illegal_and_shortRead :
    gives (presented 0x0468750000000064) none 0x60000000 = true ∧
    (match step (readAnswered (.readBitsW 0x40 0x05 ⟨4, 8⟩ none) (.bytes [0xBE])) with
      | .next t => decide (t.ctx0.phase = .idle ∧ t.ctx0.outstanding = none)
      | _ => false) = true := by decide

/-- The words of 95_test_vectors 7.4. -/
theorem test_responseWords :
    (Response.boolRead true 5).word = 0x80000005 ∧ (Response.boolRead true 0xBEEF).word = 0x8000BEEF ∧
    (Response.write true).word = 0x80000000 ∧ (Response.write false).word = 0x00000000 ∧
    (Response.count 0).word = 0x80000000 ∧ (Response.count 6).word = 0x80060000 ∧
    (Response.count 255).word = 0x80FF0000 ∧ Response.sentinelA.word = 0x20000000 ∧
    Response.sentinelB.word = 0x40000000 ∧ (Response.value 250).word = 0x800000FA ∧
    Response.illegal.word = 0x60000000 := by decide
/-- The first instruction after reset is the one `withFetchWord` places (vector E1 of
95_test_vectors). -/
theorem test_fetchAfterReset :
    (match step (State.reset.withFetchWord 64 0x20000022000000B4) with
      | .next t => decide (t.ctx0.resp = 0x80000005 ∧ t.ctx0.phase = .idle)
      | _ => false) = true := by decide +kernel

/-- The counter of `FailRead` starts at 0 and counts the one write of a `writeByte` (20_memory R73). -/
theorem test_failRead_counts :
    FailRead.initial.writes = 0 ∧
    ((runCommand FailRead.answer 0 7 0x1468190000070000 (presented 0, FailRead.initial)).map
      fun x => x.2.writes) = some 1 := by decide +kernel

/-! ### Witnesses: for every statement with hypotheses, states and operands that meet them all -/

/-- An issue step in context 0. -/
theorem issuing_presented (w : CommandWord) : (presented w).Issuing 0 7 idleContext :=
  ⟨⟨w, [], rfl⟩, rfl, rfl⟩

/-- A read reply to context 0. -/
theorem readAnswered_of {i : Instr} {r : ReadReply} {bus : BusId} {dev : DevAddr}
    {reg : Option RegAddr} {len : Nat} {t : Millis}
    (h : readRequest 7 250 i = some (.read bus dev reg len t)) (hb : r.breach len t = none) :
    (readAnswered i r).ReadAnswered 0 (readingContext i) r :=
  ⟨⟨[], rfl⟩, rfl, rfl, ⟨bus, dev, reg, len, t, h, hb⟩⟩

/-- Not too many bytes are no breach. -/
theorem breach_of_le {b : List Byte} {len : Nat} {t : Millis} (h : b.length ≤ len) :
    (ReadReply.bytes b).breach len t = none := if_neg (Nat.not_lt.mpr h)

/-- A write reply to context 0. -/
theorem writeAnswered_of {i : Instr} {r : WriteReply} {bus : BusId} {dev : DevAddr}
    {reg : RegAddr} {b : List Byte}
    (h : writeRequest { idleContext with rvl := 0x55 } 7 i = some (.write bus dev reg b)) :
    (writeAnswered i r).WriteAnswered 0 (writingContext i) r :=
  ⟨⟨[], rfl⟩, rfl, rfl, ⟨bus, dev, reg, b, h⟩⟩

/-- A block is as a run leaves it when its two contexts are. -/
theorem inv_block {k q : Context} {i : Input} (hk : (block k q i).ContextInv k)
    (hq : (block k q i).ContextInv q) : (block k q i).Inv := by
  intro c x hx
  match c with
  | 0 => cases hx; exact hk
  | 1 => cases hx; exact hq
  | c + 2 => cases hx

/-- The idle context is one a run leaves. -/
theorem contextInv_idle (s : State) : s.ContextInv idleContext :=
  ⟨rfl, fun h => absurd rfl h, fun _ h => nomatch h⟩

/-- A context that reads a byte is one a run leaves. -/
theorem contextInv_reading (s : State) :
    s.ContextInv (readingContext (.readByte 0x68 0x75 none)) :=
  ⟨⟨rfl, rfl, Or.inl rfl⟩, fun _ => rfl, fun r h => by cases h; exact ⟨by decide, fun _ => by decide⟩⟩

/-- A context that reads before a bit write is one a run leaves. -/
theorem contextInv_modifying (s : State) : s.ContextInv (readingContext (.writeBit 0x68 0x6B 6 1)) :=
  ⟨⟨rfl, rfl, Or.inl rfl⟩, fun _ => rfl, fun r h => by cases h; exact ⟨by decide, fun _ => by decide⟩⟩

/-- A context that writes a byte back is one a run leaves. -/
theorem contextInv_writing (s : State) : s.ContextInv (writingContext (.writeBit 0x68 0x6B 6 1)) :=
  ⟨⟨rfl, rfl, fun _ => by decide⟩, fun _ => rfl,
    fun r h => by cases h; exact ⟨by decide, fun _ => by decide⟩⟩

/-- The block under the other settings of 93 U1 and U4. -/
def otherPolicy (s : State) : State :=
  { s with policy := { fieldSpec := .garbage, zeroCount := .emptyRequest } }

/-! #### Encoding -/

theorem witness_DecodeOfEncodeIsIdentity :
    (Instr.readBits 0x7F 0xFF ⟨15, 16⟩ (some 0)).wf = true ∧ (Instr.writeBytes 0 0 255).wf = true := by
  decide

theorem witness_LegalWordIsEncodingOfItsCommand :
    decode 0x3100000000000000 = .ok .getDefaultTimeout := by decide

/-- There are two rows to compare, and each of them has a word. -/
theorem witness_OpcodeRowsNeverOverlap :
    opcodeRows.length = 23 ∧ ∀ r ∈ opcodeRows, r.pattern &&& r.mask = r.pattern := by decide

/-! #### The codec -/

theorem witness_ExtractIsShiftAndMask : 0xFF < 2 ^ Width.w8.bits ∧ 0xFFFF < 2 ^ Width.w16.bits := by
  decide

theorem witness_InjectReplacesExactlyTheField :
    (FieldSpec.mk 0 8).validFor .w8 ∧ (FieldSpec.mk 7 1).validFor .w8 ∧
    (FieldSpec.mk 0 16).validFor .w16 ∧ 0xFFFF < 2 ^ Width.w16.bits := by decide

theorem witness_CodecRoundTripIdempotenceLocality :
    0xBEEF < 2 ^ Width.w16.bits ∧ 0x1FF < 2 ^ Width.w16.bits ∧ (FieldSpec.mk 4 8).encodable ∧
    (FieldSpec.mk 4 8).validFor .w16 ∧ 15 < Width.w16.bits ∧ 0 ≠ 15 := by decide

theorem witness_CodecFurtherLaws :
    ((FieldSpec.mk 0 8).encodable ∧ (FieldSpec.mk 0 8).validFor .w8) ∧
    ((FieldSpec.mk 7 2).encodable ∧ ¬ (FieldSpec.mk 7 2).validFor .w8 ∧ 7 < Width.w8.bits) ∧
    ((FieldSpec.mk 8 1).encodable ∧ Width.w8.bits ≤ 8) := by decide

theorem witness_SingleBitIsLengthOne : 0xFF < 2 ^ Width.w8.bits ∧ 7 < Width.w8.bits ∧
    0x8000 < 2 ^ Width.w16.bits ∧ 15 < Width.w16.bits := by decide

/-- Both cases of `definite`: a valid field, and one out of range in a block that computes literally. -/
theorem witness_ExtractCommandsAnswerTheField :
    (presented 0x20000022000000B4).Issuing 0 7 idleContext ∧
    (presented 0x20000022000000B4).definite .w8 ⟨7, 1⟩ ∧
    (presented 0x20000022000000B4).definite .w8 ⟨15, 16⟩ ∧
    (otherPolicy (presented 0x20000022000000B4)).definite .w16 ⟨15, 1⟩ :=
  ⟨issuing_presented _, by decide, by decide, by decide⟩

theorem witness_InjectCommandsAnswerTheNewWord :
    (presented 0x2200002200FF00B4).Issuing 0 7 idleContext ∧
    (presented 0x2200002200FF00B4).definite .w8 ⟨4, 8⟩ ∧
    (presented 0x2200002200FF00B4).definite .w16 ⟨0, 16⟩ :=
  ⟨issuing_presented _, by decide, by decide⟩

/-- Also in a block where a field out of range gives any value. -/
theorem witness_CodecCommandsNeverFail :
    (otherPolicy (presented 0x20000047000000FF)).Issuing 0 7 idleContext :=
  ⟨⟨_, [], rfl⟩, rfl, rfl⟩

/-! #### Bit and field access -/

theorem witness_FieldReadsSendOneRead :
    (presented 0x00686B6000000000).Issuing 0 7 idleContext := issuing_presented _

theorem witness_FieldReadsAnswerTheField :
    (readAnswered (.readBit 0x68 0x6B 7 none) (.bytes [0x80])).ReadAnswered 0
      (readingContext (.readBit 0x68 0x6B 7 none)) (.bytes [0x80]) ∧
    (readAnswered (.readBit 0x68 0x6B 7 none) (.bytes [0x80])).definite .w8 (FieldSpec.bit 7) ∧
    (readAnswered (.readBitsW 0x40 5 ⟨0, 16⟩ none) (.bytes [0xBE, 0xEF])).ReadAnswered 0
      (readingContext (.readBitsW 0x40 5 ⟨0, 16⟩ none)) (.bytes [0xBE, 0xEF]) ∧
    (readAnswered (.readBitsW 0x40 5 ⟨0, 16⟩ none) (.bytes [0xBE, 0xEF])).definite .w16 ⟨0, 16⟩ :=
  ⟨readAnswered_of rfl rfl, by decide, readAnswered_of rfl rfl, by decide⟩

/-- A bus error, a timeout, no byte and one byte of two. -/
theorem witness_FailedReadsCollapse :
    (readAnswered (.readByte 0x68 0x75 none) .busError).ReadAnswered 0
      (readingContext (.readByte 0x68 0x75 none)) .busError ∧
    (readAnswered (.readByte 0x68 0x75 none) .timeout).ReadAnswered 0
      (readingContext (.readByte 0x68 0x75 none)) .timeout ∧
    (readAnswered (.readByte 0x68 0x75 none) (.bytes [])).ReadAnswered 0
      (readingContext (.readByte 0x68 0x75 none)) (.bytes []) ∧
    (readAnswered (.readWord 0x40 2 none) (.bytes [0xBE])).ReadAnswered 0
      (readingContext (.readWord 0x40 2 none)) (.bytes [0xBE]) ∧
    (∀ b0 : Byte, ReadReply.bytes [] ≠ .bytes [b0]) ∧
    (∀ b0 b1 : Byte, ReadReply.bytes [0xBE] ≠ .bytes [b0, b1]) :=
  ⟨readAnswered_of rfl rfl, readAnswered_of rfl rfl, readAnswered_of rfl rfl, readAnswered_of rfl rfl,
    fun _ => by simp, fun _ _ => by simp⟩

theorem witness_FieldWritesReadFirst :
    (presented 0x10686B6000010000).Issuing 0 7 idleContext := issuing_presented _

theorem witness_ByteFieldWritesSendWholeByteBack :
    (readAnswered (.writeBits 0x68 0x1C ⟨4, 4⟩ 0xF) (.bytes [0])).ReadAnswered 0
      (readingContext (.writeBits 0x68 0x1C ⟨4, 4⟩ 0xF)) (.bytes [0]) ∧
    (readAnswered (.writeBits 0x68 0x1C ⟨4, 4⟩ 0xF) (.bytes [0])).definite .w8 (FieldSpec.bit 7) ∧
    (readAnswered (.writeBits 0x68 0x1C ⟨4, 4⟩ 0xF) (.bytes [0])).definite .w8 ⟨6, 4⟩ :=
  ⟨readAnswered_of rfl rfl, by decide, by decide⟩

theorem witness_WordFieldWritesSendWholeWordBack :
    (readAnswered (.writeBitsW 0x40 5 ⟨3, 7⟩ 0x55) (.bytes [0x12, 0x34])).ReadAnswered 0
      (readingContext (.writeBitsW 0x40 5 ⟨3, 7⟩ 0x55)) (.bytes [0x12, 0x34]) ∧
    (readAnswered (.writeBitsW 0x40 5 ⟨3, 7⟩ 0x55) (.bytes [0x12, 0x34])).definite .w16
      (FieldSpec.bit 15) ∧
    (readAnswered (.writeBitsW 0x40 5 ⟨3, 7⟩ 0x55) (.bytes [0x12, 0x34])).definite .w16 ⟨3, 7⟩ :=
  ⟨readAnswered_of rfl rfl, by decide, by decide⟩

theorem witness_FieldWritesAlwaysWriteAfterRead :
    (otherPolicy (readAnswered (.writeBits 0 0 ⟨6, 4⟩ 0) (.bytes [0xA5]))).ReadAnswered 0
      (readingContext (.writeBits 0 0 ⟨6, 4⟩ 0)) (.bytes [0xA5]) ∧
    (readAnswered (.writeBitW 0x40 0 15 1) (.bytes [0x7F, 0xFF])).ReadAnswered 0
      (readingContext (.writeBitW 0x40 0 15 1)) (.bytes [0x7F, 0xFF]) :=
  ⟨⟨⟨[], rfl⟩, rfl, rfl, ⟨_, _, _, _, _, rfl, rfl⟩⟩, readAnswered_of rfl rfl⟩

theorem witness_FailedReadPreventsWrite :
    (readAnswered (.writeBits 0 0 ⟨4, 4⟩ 0xF) .busError).ReadAnswered 0
      (readingContext (.writeBits 0 0 ⟨4, 4⟩ 0xF)) .busError ∧
    (readAnswered (.writeBitW 0x40 0 15 1) (.bytes [0x7F])).ReadAnswered 0
      (readingContext (.writeBitW 0x40 0 15 1)) (.bytes [0x7F]) ∧
    (∀ b0 : Byte, ReadReply.busError ≠ .bytes [b0]) ∧
    (∀ b0 b1 : Byte, ReadReply.bytes [0x7F] ≠ .bytes [b0, b1]) :=
  ⟨readAnswered_of rfl rfl, readAnswered_of rfl rfl, fun _ => by simp, fun _ _ => by simp⟩

theorem witness_WriteRepliesEndTheWrites :
    (writeAnswered (.writeByte 0x68 0x19 7) .ok).WriteAnswered 0
      (writingContext (.writeByte 0x68 0x19 7)) .ok ∧
    (writeAnswered (.writeWords 0x40 6 2) .error).WriteAnswered 0
      (writingContext (.writeWords 0x40 6 2)) .error :=
  ⟨writeAnswered_of rfl, writeAnswered_of rfl⟩

theorem witness_SingleBitCommandsAreLengthOne :
    (presented 0x00686B6000000000).Issuing 0 7 idleContext ∧
    (∃ r, (readAnswered (.readBit 0x68 0x6B 15 none) .timeout).ReadAnswered 0
      (readingContext (.readBit 0x68 0x6B 15 none)) r) ∧
    (∃ r, (writeAnswered (.writeBit 0x68 0x6B 6 1) .ok).WriteAnswered 0
      (writingContext (.writeBit 0x68 0x6B 6 1)) r) :=
  ⟨issuing_presented _, ⟨_, readAnswered_of rfl rfl⟩, ⟨_, writeAnswered_of rfl⟩⟩

/-! #### Unit and array access -/

theorem witness_UnitReadsSendOneRead :
    (presented 0x0468750000000000).Issuing 0 7 idleContext := issuing_presented _

theorem witness_UnitReadsAnswerTheUnit :
    (readAnswered (.readByte 0x68 0x75 none) (.bytes [0x68])).ReadAnswered 0
      (readingContext (.readByte 0x68 0x75 none)) (.bytes [0x68]) ∧
    (readAnswered (.readWord 0x40 2 none) (.bytes [0xBE, 0xEF])).ReadAnswered 0
      (readingContext (.readWord 0x40 2 none)) (.bytes [0xBE, 0xEF]) :=
  ⟨readAnswered_of rfl rfl, readAnswered_of rfl rfl⟩

theorem witness_ArrayReadsSendOneRead :
    (presented 0x06683B0600000000).Issuing 0 7 idleContext ∧ 1 ≠ 0 ∧ 255 ≠ 0 :=
  ⟨issuing_presented _, by decide, by decide⟩

theorem witness_ZeroCountMakesNoRequest :
    (presented 0x06683B0000000000).Issuing 0 7 idleContext ∧
    (presented 0x06683B0000000000).policy.zeroCount = .noRequest := ⟨issuing_presented _, rfl⟩

/-- A context whose write of no bytes is outstanding. -/
def emptyWriting (i : Instr) : Context :=
  { writingContext i with outstanding := some (.write 7 0x50 0x10 []) }

/-- The transport answers that write. -/
def emptyWriteAnswered (i : Instr) (r : WriteReply) : State :=
  block (emptyWriting i) idleContext (.writeReply 0 r)

/-- A read and a write of each kind that makes an empty request. -/
theorem witness_ZeroCountUnderOtherSetting :
    (otherPolicy (presented 0x06683B0000000000)).Issuing 0 7 idleContext ∧
    (otherPolicy (presented 0x06683B0000000000)).policy.zeroCount = .emptyRequest ∧
    (otherPolicy (readAnswered (.readBytes 0x68 0x3B 0 none) (.bytes []))).ReadAnswered 0
      (readingContext (.readBytes 0x68 0x3B 0 none)) (.bytes []) ∧
    (otherPolicy (readAnswered (.readWords 0x40 1 0 none) .busError)).ReadAnswered 0
      (readingContext (.readWords 0x40 1 0 none)) .busError ∧
    (otherPolicy (readAnswered (.readBytesNoRegAddress 0x50 0 none) .timeout)).ReadAnswered 0
      (readingContext (.readBytesNoRegAddress 0x50 0 none)) .timeout ∧
    (otherPolicy (emptyWriteAnswered (.writeBytes 0x50 0x10 0) .ok)).WriteAnswered 0
      (emptyWriting (.writeBytes 0x50 0x10 0)) .ok ∧
    (otherPolicy (emptyWriteAnswered (.writeWords 0x50 0x10 0) .error)).WriteAnswered 0
      (emptyWriting (.writeWords 0x50 0x10 0)) .error :=
  ⟨⟨⟨_, [], rfl⟩, rfl, rfl⟩, rfl, ⟨⟨[], rfl⟩, rfl, rfl, ⟨_, _, _, _, _, rfl, rfl⟩⟩,
    ⟨⟨[], rfl⟩, rfl, rfl, ⟨_, _, _, _, _, rfl, rfl⟩⟩,
    ⟨⟨[], rfl⟩, rfl, rfl, ⟨_, _, _, _, _, rfl, rfl⟩⟩,
    ⟨⟨[], rfl⟩, rfl, rfl, ⟨_, _, _, _, rfl⟩⟩, ⟨⟨[], rfl⟩, rfl, rfl, ⟨_, _, _, _, rfl⟩⟩⟩

/-- Nothing delivered, part delivered, and the longest array. -/
theorem witness_ByteArrayReadsFillBuffer :
    (readAnswered (.readBytes 0x68 0x3B 6 none) (.bytes [])).ReadAnswered 0
      (readingContext (.readBytes 0x68 0x3B 6 none)) (.bytes []) ∧
    (readAnswered (.readBytes 0x68 0x3B 6 none) (.bytes [1, 2, 3, 4])).ReadAnswered 0
      (readingContext (.readBytes 0x68 0x3B 6 none)) (.bytes [1, 2, 3, 4]) ∧
    (readAnswered (.readBytes 0 0 255 none) (.bytes (List.replicate 255 1))).ReadAnswered 0
      (readingContext (.readBytes 0 0 255 none)) (.bytes (List.replicate 255 1)) :=
  ⟨readAnswered_of rfl rfl, readAnswered_of rfl rfl,
    readAnswered_of rfl (breach_of_le (Nat.le_of_eq List.length_replicate))⟩

/-- An odd number of bytes, and the longest array. -/
theorem witness_WordArrayReadsFillBuffer :
    (readAnswered (.readWords 0x40 1 2 none) (.bytes [0x12, 0x34, 0xAB])).ReadAnswered 0
      (readingContext (.readWords 0x40 1 2 none)) (.bytes [0x12, 0x34, 0xAB]) ∧
    (readAnswered (.readWords 0 0 255 none) (.bytes (List.replicate 510 1))).ReadAnswered 0
      (readingContext (.readWords 0 0 255 none)) (.bytes (List.replicate 510 1)) :=
  ⟨readAnswered_of rfl rfl, readAnswered_of rfl (breach_of_le (Nat.le_of_eq List.length_replicate))⟩

theorem witness_FailedArrayReadsTellTheCause :
    (readAnswered (.readBytes 0x68 0x3B 6 none) .busError).ReadAnswered 0
      (readingContext (.readBytes 0x68 0x3B 6 none)) .busError ∧
    (readAnswered (.readBytesNoRegAddress 0x50 255 none) .timeout).ReadAnswered 0
      (readingContext (.readBytesNoRegAddress 0x50 255 none)) .timeout ∧ 255 ≠ 0 :=
  ⟨readAnswered_of rfl rfl, readAnswered_of rfl rfl, by decide⟩

theorem witness_UnitWritesSendOneWrite :
    (presented 0x1468190000070000).Issuing 0 7 idleContext := issuing_presented _

theorem witness_ArrayWritesSendTheBuffer :
    (presented 0x1650100300000000).Issuing 0 7 idleContext ∧ 1 ≠ 0 ∧ 255 ≠ 0 ∧ 255 ≤ 255 :=
  ⟨issuing_presented _, by decide, by decide, by decide⟩

/-! #### Configuration -/

theorem witness_SetDefaultTimeoutWritesIt :
    (presented 0x30000000000000FA).Issuing 0 7 idleContext := issuing_presented _

theorem witness_GetDefaultTimeoutAnswersIt :
    (presented 0x3100000000000000).Issuing 0 7 idleContext := issuing_presented _

/-! #### Moves -/

theorem witness_StepRunsTheCommand :
    ((presented 0x3100000000000000).inputs = [.command 0 7 0x3100000000000000] ∧
      decode 0x3100000000000000 = .ok .getDefaultTimeout) ∧
    ((readAnswered (.readByte 0x68 0x75 none) .timeout).ctx? 0 =
        some (readingContext (.readByte 0x68 0x75 none)) ∧
      (readingContext (.readByte 0x68 0x75 none)).phase ≠ .idle ∧
      (readAnswered (.readByte 0x68 0x75 none) .timeout).inputs = [.readReply 0 .timeout]) ∧
    ((writeAnswered (.writeByte 0x68 0x19 7) .ok).ctx? 0 =
        some (writingContext (.writeByte 0x68 0x19 7)) ∧
      (writingContext (.writeByte 0x68 0x19 7)).phase ≠ .idle ∧
      (writeAnswered (.writeByte 0x68 0x19 7) .ok).inputs = [.writeReply 0 .ok]) :=
  ⟨⟨rfl, by decide⟩, ⟨rfl, by decide, rfl⟩, ⟨rfl, by decide, rfl⟩⟩

/-- A legal word runs, and so do the two replies. -/
theorem witness_StepRunsTheCommand_next :
    (∃ t, step (presented 0x3100000000000000) = .next t) ∧
    (∃ t, step (readAnswered (.readByte 0x68 0x75 none) .timeout) = .next t) ∧
    (∃ t, step (writeAnswered (.writeByte 0x68 0x19 7) .ok) = .next t) :=
  ⟨⟨_, rfl⟩, ⟨_, rfl⟩, ⟨_, rfl⟩⟩

theorem witness_IllegalWordIsAnsweredOnly :
    (presented 0x0900000000000000).inputs = [.command 0 7 0x0900000000000000] ∧
    (presented 0x0900000000000000).ctx? 0 = some idleContext ∧ idleContext.phase = .idle ∧
    illegalWord 0x0900000000000000 ∧ illegalWord 0x0568750100000000 ∧
    illegalWord 0x0468750000000064 := by
  refine ⟨rfl, rfl, rfl, Or.inl rfl, Or.inr ⟨_, rfl, Or.inl (by decide)⟩,
    Or.inr ⟨_, rfl, Or.inr (by decide)⟩⟩

theorem witness_WriteReplyStepReportsTheReply :
    (writeAnswered (.writeBit 0x68 0x6B 6 1) .error).Inv ∧
    (writeAnswered (.writeBit 0x68 0x6B 6 1) .error).inputs = [.writeReply 0 .error] ∧
    (writeAnswered (.writeBit 0x68 0x6B 6 1) .error).ctx? 0 =
      some (writingContext (.writeBit 0x68 0x6B 6 1)) ∧
    (writingContext (.writeBit 0x68 0x6B 6 1)).phase = .wrWait :=
  ⟨inv_block (contextInv_writing _) (contextInv_idle _), rfl, rfl, rfl⟩

theorem witness_EveryMoveKeepsTheInvariant :
    (readAnswered (.writeBit 0x68 0x6B 6 1) (.bytes [0x40])).Inv ∧
    ∃ t, step (readAnswered (.writeBit 0x68 0x6B 6 1) (.bytes [0x40])) = .next t :=
  ⟨inv_block (contextInv_modifying _) (contextInv_idle _), _, rfl⟩

/-- A block in which context 0 reads and context 1 is idle, with any move to come. -/
theorem inv_reading (i : Input) :
    (block (readingContext (.readByte 0x68 0x75 none)) idleContext i).Inv :=
  inv_block (contextInv_reading _) (contextInv_idle _)

/-- Every kind of move. -/
theorem witness_EveryAdmittedMoveCompletes :
    (∀ w, (block (readingContext (.readByte 0x68 0x75 none)) idleContext (.command 1 7 w)).Admits) ∧
    (block (readingContext (.readByte 0x68 0x75 none)) idleContext (.readReply 0 .busError)).Admits ∧
    (writeAnswered (.writeBit 0x68 0x6B 6 1) .ok).Admits ∧
    (block (readingContext (.readByte 0x68 0x75 none)) idleContext (.hostWriteBuf 1 255 1)).Admits ∧
    (block (readingContext (.readByte 0x68 0x75 none)) idleContext (.hostReadBuf 1 0)).Admits ∧
    (block (readingContext (.readByte 0x68 0x75 none)) idleContext (.hostReadResp 0)).Admits ∧
    (block (readingContext (.readByte 0x68 0x75 none)) idleContext .reset).Admits ∧
    (block (readingContext (.readByte 0x68 0x75 none)) idleContext .reset).Inv ∧
    (writeAnswered (.writeBit 0x68 0x6B 6 1) .ok).Inv :=
  ⟨fun _ => ⟨idleContext, rfl, rfl⟩, ⟨_, _, _, _, _, _, rfl, rfl, rfl, rfl⟩, ⟨_, rfl, rfl⟩,
    ⟨_, rfl, rfl⟩, ⟨_, rfl, rfl⟩, ⟨_, rfl⟩, trivial, inv_reading _,
    inv_block (contextInv_writing _) (contextInv_idle _)⟩

/-- Context 0 waits while context 1 runs a command, and then nothing more comes. -/
theorem witness_UnansweredContextHangs :
    (block (readingContext (.readByte 0x68 0x75 none)) idleContext
        (.command 1 7 0x3100000000000000)).ctx? 0 =
      some (readingContext (.readByte 0x68 0x75 none)) ∧
    (readingContext (.readByte 0x68 0x75 none)).phase ≠ .idle ∧
    (∀ i ∈ (block (readingContext (.readByte 0x68 0x75 none)) idleContext
        (.command 1 7 0x3100000000000000)).inputs, i.endsWait 0 = false) ∧
    ∃ t, Host.Core.run Sys2Proof.core 3 (block (readingContext (.readByte 0x68 0x75 none)) idleContext
        (.command 1 7 0x3100000000000000)) = .next t :=
  ⟨rfl, by decide, by decide, _, rfl⟩

theorem witness_BusyContextTakesNoCommand :
    (block (readingContext (.readByte 0x68 0x75 none)) idleContext (.command 0 7 0)).inputs =
      [.command 0 7 0] ∧
    (block (readingContext (.readByte 0x68 0x75 none)) idleContext (.command 0 7 0)).ctx? 0 =
      some (readingContext (.readByte 0x68 0x75 none)) ∧
    (readingContext (.readByte 0x68 0x75 none)).phase ≠ .idle := ⟨rfl, rfl, by decide⟩

/-- A command to context 0, seen from context 1. -/
theorem witness_MovesTouchOnlyTheirContext :
    (presented 0x3100000000000000).inputs = [.command 0 7 0x3100000000000000] ∧
    (Input.command 0 7 0x3100000000000000).target = some 0 ∧
    (∃ t, step (presented 0x3100000000000000) = .next t) ∧ 1 ≠ 0 :=
  ⟨rfl, rfl, ⟨_, rfl⟩, by decide⟩

/-- Two blocks that differ in context 1. -/
theorem witness_ContextsDoNotInfluenceEachOther :
    (presented 0x3100000000000000).inputs = [.command 0 7 0x3100000000000000] ∧
    (Input.command 0 7 0x3100000000000000).target = some 0 ∧
    AgreeOn 0 ((presented 0x3100000000000000).setCtx 1 (readingContext (.readByte 0 0 none)))
      (presented 0x3100000000000000) ∧
    ((presented 0x3100000000000000).setCtx 1 (readingContext (.readByte 0 0 none))).ctx? 1 ≠
      (presented 0x3100000000000000).ctx? 1 :=
  ⟨rfl, rfl, ⟨rfl, rfl, rfl, rfl, rfl, rfl⟩, by decide⟩

theorem witness_OnlySetDefaultTimeoutChangesIt :
    (presented 0x3100000000000000).inputs = [.command 0 7 0x3100000000000000] ∧
    Input.command 0 7 0x3100000000000000 ≠ .reset ∧
    (∀ c bus w ms, Input.command 0 7 0x3100000000000000 = .command c bus w →
      decode w ≠ .ok (.setDefaultTimeout ms)) ∧
    ∃ t, step (presented 0x3100000000000000) = .next t := by
  refine ⟨rfl, by decide, fun c bus w ms h => ?_, _, rfl⟩
  cases h
  rw [test_decode_getDefaultTimeout]
  intro hd
  cases hd

/-- Two idle contexts with other responses, latches and commands. -/
theorem witness_EarlierOutcomesDoNotMatter :
    (presented 0x3100000000000000).ctx? 0 = some idleContext ∧
    SameWork idleContext
      { idleContext with resp := 0x60000000, rvl := 0, cmdl := ⟨.readByte 0 0 none, 1, none⟩ } :=
  ⟨rfl, rfl, rfl, rfl, fun h => absurd rfl h⟩

theorem witness_ResponseChangesOnlyAtTheEnd :
    ∃ t k', step (presented 0x3100000000000000) = .next t ∧
      (presented 0x3100000000000000).ctx? 0 = some idleContext ∧ t.ctx? 0 = some k' ∧
      k'.resp ≠ idleContext.resp ∧ Input.command 0 7 0x3100000000000000 ≠ .reset :=
  ⟨_, _, rfl, rfl, rfl, by decide, by decide⟩

theorem witness_NoWriteWithoutFullRead :
    (readAnswered (.writeBit 0x68 0x6B 6 1) (.bytes [0x40])).Inv ∧
    (readAnswered (.writeBit 0x68 0x6B 6 1) (.bytes [0x40])).inputs = [.readReply 0 (.bytes [0x40])] ∧
    ∃ t k', step (readAnswered (.writeBit 0x68 0x6B 6 1) (.bytes [0x40])) = .next t ∧
      t.ctx? 0 = some k' ∧ k'.outstanding ≠ none :=
  ⟨inv_block (contextInv_modifying _) (contextInv_idle _), rfl, _, _, rfl, rfl, by decide⟩

/-- Each reply in each phase that does not await it. -/
theorem witness_TransportKeepsItsConstraints_notAwaited :
    ((block idleContext idleContext (.readReply 0 .timeout)).ctx? 0 = some idleContext ∧
      idleContext.phase ≠ .rdWait ∧ idleContext.phase ≠ .wrWait) ∧
    ((block (writingContext (.writeByte 0x68 0x19 7)) idleContext (.readReply 0 .busError)).ctx? 0 =
        some (writingContext (.writeByte 0x68 0x19 7)) ∧
      (writingContext (.writeByte 0x68 0x19 7)).phase ≠ .rdWait) ∧
    ((block (readingContext (.readByte 0x68 0x75 none)) idleContext (.writeReply 0 .ok)).ctx? 0 =
        some (readingContext (.readByte 0x68 0x75 none)) ∧
      (readingContext (.readByte 0x68 0x75 none)).phase ≠ .wrWait) ∧
    (block idleContext idleContext (.writeReply 0 .ok)).ctx? 0 = some idleContext :=
  ⟨⟨rfl, by decide, by decide⟩, ⟨rfl, by decide⟩, ⟨rfl, by decide⟩, rfl⟩

/-- Two bytes for one, and a timeout to a request without one. -/
theorem witness_TransportKeepsItsConstraints :
    ((block (readingContext (.readByte 0x68 0x75 none)) idleContext
        (.readReply 0 (.bytes [1, 2]))).Inv ∧
      (readingContext (.readByte 0x68 0x75 none)).outstanding =
        some (.read 7 0x68 (some 0x75) 1 250) ∧ 1 < [1, 2].length) ∧
    ((block { readingContext (.readByte 0x68 0x75 (some 0)) with
          cmdl := ⟨.readByte 0x68 0x75 (some 0), 7, some 0⟩
          outstanding := some (.read 7 0x68 (some 0x75) 1 0) } idleContext
        (.readReply 0 .timeout)).Inv) := by
  refine ⟨⟨inv_reading _, rfl, by decide⟩, inv_block ⟨⟨rfl, rfl, Or.inr rfl⟩, fun _ => rfl,
    fun r h => ?_⟩ (contextInv_idle _)⟩
  cases h
  exact ⟨by decide, fun _ => by decide⟩

/-! #### The host and reset -/

/-- The first and the last entry of an idle context's `BUF`, both steps on a busy one, and the reading
of `RESP` in an idle and in a busy context. -/
theorem witness_HostStepsOnBufAndResp :
    ((block idleContext idleContext (.hostWriteBuf 0 255 0xFFFF)).ctx? 0 = some idleContext ∧
      idleContext.phase = .idle ∧
      (block idleContext idleContext (.hostWriteBuf 0 255 0xFFFF)).inputs =
        [.hostWriteBuf 0 255 0xFFFF] ∧
      (block idleContext idleContext (.hostReadBuf 1 0)).inputs = [.hostReadBuf 1 0]) ∧
    ((block (readingContext (.readByte 0x68 0x75 none)) idleContext (.hostReadBuf 0 0)).ctx? 0 =
        some (readingContext (.readByte 0x68 0x75 none)) ∧
      (readingContext (.readByte 0x68 0x75 none)).phase ≠ .idle ∧
      (block (readingContext (.readByte 0x68 0x75 none)) idleContext (.hostReadBuf 0 0)).inputs =
        [.hostReadBuf 0 0]) ∧
    (block idleContext idleContext (.hostReadResp 0)).inputs = [.hostReadResp 0] ∧
    (block (readingContext (.readByte 0x68 0x75 none)) idleContext (.hostReadResp 0)).inputs =
      [.hostReadResp 0] :=
  ⟨⟨rfl, rfl, rfl, rfl⟩, ⟨rfl, by decide, rfl⟩, rfl, rfl⟩

/-- A reset while a request is outstanding. -/
theorem witness_ResetAbandonsWhatWasOutstanding :
    (block (readingContext (.readByte 0x68 0x75 none)) idleContext .reset).inputs = [.reset] := rfl

theorem witness_AbandonedRepliesAreDiscarded :
    { block idleContext idleContext (.abandonedReply 0) with
        abandoned := [.read 7 0x68 (some 0x75) 1 250] }.inputs = [.abandonedReply 0] ∧
    0 < { block idleContext idleContext (.abandonedReply 0) with
        abandoned := [.read 7 0x68 (some 0x75) 1 250] }.abandoned.length := ⟨rfl, by decide⟩

/-- The largest count, and a command of each list. -/
theorem witness_SoftwareViewOfResponses :
    255 ≤ 255 ∧
    Instr.readBitW 0 0 15 none ∈ [Instr.readBit 0 0 15 none, .readBitW 0 0 15 none] ∧
    Instr.readByte 0 0 none ∈ [Instr.readBits 0 0 ⟨0, 8⟩ none, .readByte 0 0 none] ∧
    Instr.readWord 0 0 none ∈ [Instr.readBitsW 0 0 ⟨0, 16⟩ none, .readWord 0 0 none] ∧
    Instr.readBytes 0 0 255 none ∈
      [Instr.readBytes 0 0 255 none, .readWords 0 0 255 none, .readBytesNoRegAddress 0 255 none] := by
  decide

/-! #### The reference devices -/

theorem witness_FieldRoundTripOnStoreDev8 :
    (presented 0).ctx? 0 = some idleContext ∧ idleContext.phase = .idle ∧
    (StoreDev8.mk [(1, 0xA5)] []).regs.wf = true ∧ (FieldSpec.mk 0 8).encodable ∧
    (FieldSpec.mk 0 8).validFor .w8 ∧ 7 < 8 := ⟨rfl, rfl, by decide, by decide, by decide, by decide⟩

theorem witness_FieldRoundTripOnStoreDev16 :
    (presented 0).ctx? 0 = some idleContext ∧ idleContext.phase = .idle ∧
    (StoreDev16.mk [(1, 0xA5)]).regs.wf = true ∧ (FieldSpec.mk 0 16).encodable ∧
    (FieldSpec.mk 0 16).validFor .w16 ∧ 15 < 16 :=
  ⟨rfl, rfl, by decide, by decide, by decide, by decide⟩

theorem witness_UnitAndArrayRoundTripsOnStoreDevs :
    (presented 0).ctx? 0 = some idleContext ∧ idleContext.phase = .idle ∧
    StoreDev8.initial.regs.wf = true ∧ StoreDev16.initial.regs.wf = true ∧
    (StoreDev16.mk [(1, 0xA5)]).regs.wf = true ∧ 1 ≠ 0 ∧ 255 ≠ 0 ∧ 255 ≤ 255 :=
  ⟨rfl, rfl, by decide, by decide, by decide, by decide, by decide, by decide⟩

theorem witness_FailReadSeesNoWrite :
    (presented 0).ctx? 0 = some idleContext ∧ idleContext.phase = .idle ∧
    decode 0x10686B6000010000 = .ok (.writeBit 0x68 0x6B 6 1) := ⟨rfl, rfl, by decide⟩

end Sys2Proof.Tests
end

section
/-! PROOFS. What a decoded command can carry, and the size of the requests it makes
(30_encoding R91, R97; 20_memory R56, R58, R64). -/

namespace Sys2Proof

theorem operandBitNum_encodable (w : CommandWord) : encodableBit (operandBitNum w) :=
  Nat.le_of_lt_succ (fieldBs w).isLt

theorem operandSpec_encodable (w : CommandWord) : (operandSpec w).encodable :=
  ⟨Nat.le_of_lt_succ (fieldBs w).isLt, Nat.le_add_left 1 _, (fieldLm1 w).isLt⟩

theorem operandCount_encodable (w : CommandWord) : encodableCount (operandCount w) :=
  Nat.le_of_lt_succ (fieldCnt w).isLt

/-- Every row of the opcode map gives a command whose operands a word can carry. -/
theorem opcodeRow_operands_wf (w : CommandWord) : ∀ row ∈ opcodeRows, (row.operands w).wf = true := by
  simp [opcodeRows, readRows, writeRows, codecRows, Instr.wf, operandBitNum_encodable,
    operandSpec_encodable, operandCount_encodable]

/-- The decoder gives well-formed commands only. -/
theorem decode_wf {w : CommandWord} {i : Instr} (h : decode w = .ok i) : i.wf = true := by
  unfold decode at h
  split at h
  · cases h
  · rename_i row hrow
    split at h
    · split at h
      · cases h
      · cases h
        exact opcodeRow_operands_wf w row (List.mem_of_find?_eq_some hrow)
    · cases h

/-- A unit has at least one byte. -/
theorem Width.bytes_pos (W : Width) : 1 ≤ W.bytes := by
  cases W <;> decide

end Sys2Proof

namespace Sys2Proof.Machine

theorem unitBytes_length (W : Width) (x : Word16) : (unitBytes W x).length = W.bytes := by
  cases W <;> rfl

/-- The read request of a command that a word can carry asks for at most 510 bytes. -/
theorem readRequest_size_le {bus : BusId} {t : Millis} {i : Instr} {r : Request}
    (hwf : i.wf = true) (h : readRequest bus t i = some r) : r.size ≤ 510 := by
  cases i <;> cases h <;> simp_all [Request.size, Instr.wf] <;> omega

/-- The write request of a command that a word can carry sends at most 510 bytes. -/
theorem writeRequest_size_le {k : Context} {bus : BusId} {i : Instr} {r : Request}
    (hwf : i.wf = true) (h : writeRequest k bus i = some r) : r.size ≤ 510 := by
  have array (W : Width) {n : Nat} (hn : n ≤ 255) : (k.sendBytes W n).length ≤ 510 := by
    rw [sendBytes_length k W (by omega)]
    cases W <;> simp [Width.bytes] <;> omega
  cases i <;> cases h <;>
    simp_all [Request.size, Instr.wf, unitBytes_length, Width.bytes]

/-- The write request of a command looks at `RVL` and `BUF` only. -/
theorem writeRequest_congr {k q : Context} (hrvl : k.rvl = q.rvl) (hbuf : k.buf = q.buf) (bus : BusId)
    (i : Instr) : writeRequest k bus i = writeRequest q bus i := by
  cases i <;> simp only [writeRequest, Context.sendBytes, Context.entries, hrvl, hbuf]

/-- The byte that a bit or field write sends back is one (41_field_access R141). -/
theorem inject_w8_lt (s : State) (c : Nat) (f : FieldSpec) (r v : Nat) :
    (s.inject c .w8 f r v).toNat < 256 := by
  have h : ∀ n : Nat, (BitVec.ofNat 16 (n % 2 ^ 8)).toNat < 256 := fun n => by
    rw [BitVec.toNat_ofNat]
    omega
  unfold State.inject State.codecResult
  split
  · exact h _
  · exact h _

end Sys2Proof.Machine
end

section
/-! PROOFS. What one move does to the one context it works on, said once for the issue step and for the
read-reply step of every command (10_state R28, R29) and then for every move. -/

namespace Sys2Proof.Machine

/-- What the issue step of command `i` can make of an idle context: it answers, or it sends the read
request or the write request of `i` (10_state R28). -/
inductive Issued (s : State) (bus : BusId) (i : Instr) (k k' : Context) : Prop where
  /-- The command ends in its issue step. -/
  | answered (p : ResponseWord) (h : Answered k k' p)
  /-- The read request of `i` is sent, with the latched timeout. -/
  | reads (t : Millis) (r : Request) (h : Sent k k' .rdWait ⟨i, bus, some t⟩ r)
      (req : readRequest bus t i = some r)
      (timeout : explicitTimeout i = none ∨ explicitTimeout i = some t)
      (size : s.policy.zeroCount = .noRequest → 1 ≤ r.size)
  /-- The write request of a plain write is sent. -/
  | writes (r : Request) (h : Sent k k' .wrWait ⟨i, bus, none⟩ r)
      (req : writeRequest k bus i = some r) (plain : isByteModify i = false)
      (size : s.policy.zeroCount = .noRequest → 1 ≤ r.size)

/-- What the read-reply step of command `i` can make of its context: it ends the command, or it latches
a value and sends the write request of `i` (10_state R29). -/
inductive ReadHandled (i : Instr) (k k' : Context) : Prop where
  /-- The command ends in its read-reply step. -/
  | ended (p : ResponseWord) (h : Ended k k' p)
  /-- The latched value is sent back. -/
  | sentBack (x : Word16) (r : Request) (h : SentBack k k' x r)
      (req : writeRequest k' k.cmdl.bus i = some r) (byte : isByteModify i = true → x.toNat < 256)
      (size : 1 ≤ r.size)

/-! ### The issue step, rule by rule -/

section
variable {s : State} {c : Nat} {k : Context} (bus : BusId)

theorem valueRule_issued (f : Nat → Word16) (i : Instr) (h : s.ctx? c = some k) :
    ∃ k', OnlyContext s ((s.valueRule f).issue c k bus) c k' ∧ Issued s bus i k k' :=
  ⟨_, onlyContext_setCtx _ h, .answered _ ⟨⟨rfl, rfl, rfl, rfl, rfl⟩, rfl⟩⟩

/-- The effective timeout is the explicit one where there is one (30_encoding R97). -/
theorem explicit_or_default (s : State) (timeout : Option Millis) :
    timeout = none ∨ timeout = some (s.effectiveTimeout timeout) := by
  cases timeout with
  | none => exact .inl rfl
  | some t => exact .inr rfl

/-- Sending the read request of `i` is one of the outcomes of an issue step. -/
theorem sendRead_issued {i : Instr} {dev : DevAddr} {reg : Option RegAddr} {len : Nat}
    {timeout : Option Millis} (h : s.ctx? c = some k)
    (hreq : ∀ t, readRequest bus t i = some (.read bus dev reg len t))
    (ht : explicitTimeout i = timeout) (hlen : s.policy.zeroCount = .noRequest → 1 ≤ len) :
    ∃ k', OnlyContext s (s.sendRead c k bus i dev reg len (s.effectiveTimeout timeout)) c k' ∧
      Issued s bus i k k' := by
  obtain ⟨k', hk', hsent⟩ := sendRead_spec bus i dev reg len (s.effectiveTimeout timeout) h
  exact ⟨k', hk', .reads _ _ hsent (hreq _) (ht ▸ explicit_or_default s timeout) hlen⟩

/-- Sending the write request of `i` is one of the outcomes of an issue step. -/
theorem sendWrite_issued {i : Instr} {dev : DevAddr} {reg : RegAddr} {bytes : List Byte}
    (h : s.ctx? c = some k) (hreq : writeRequest k bus i = some (.write bus dev reg bytes))
    (hi : isByteModify i = false) (hlen : s.policy.zeroCount = .noRequest → 1 ≤ bytes.length) :
    ∃ k', OnlyContext s (s.sendWrite c k bus i dev reg bytes) c k' ∧ Issued s bus i k k' := by
  obtain ⟨k', hk', hsent⟩ := sendWrite_spec bus i dev reg bytes h
  exact ⟨k', hk', .writes _ hsent hreq hi hlen⟩

theorem unitReadRule_issued {i : Instr} {W : Width} {dev : DevAddr} {reg : RegAddr}
    {timeout : Option Millis} (f : Nat → Word16 → Word16) (h : s.ctx? c = some k)
    (hreq : ∀ t, readRequest bus t i = some (.read bus dev (some reg) W.bytes t))
    (ht : explicitTimeout i = timeout) :
    ∃ k', OnlyContext s ((s.unitReadRule i W dev reg timeout f).issue c k bus) c k' ∧
      Issued s bus i k k' :=
  sendRead_issued bus h hreq ht fun _ => W.bytes_pos

theorem rmwRule_issued {i : Instr} {W : Width} {dev : DevAddr} {reg : RegAddr} (f : FieldSpec)
    (v : Nat) (h : s.ctx? c = some k)
    (hreq : ∀ t, readRequest bus t i = some (.read bus dev (some reg) W.bytes t))
    (ht : explicitTimeout i = none) :
    ∃ k', OnlyContext s ((s.rmwRule i W dev reg f v).issue c k bus) c k' ∧ Issued s bus i k k' :=
  sendRead_issued bus h hreq ht fun _ => W.bytes_pos

theorem arrayReadRule_issued {i : Instr} {W : Width} {dev : DevAddr} {reg : Option RegAddr} {n : Nat}
    {timeout : Option Millis} (h : s.ctx? c = some k)
    (hreq : ∀ t, readRequest bus t i = some (.read bus dev reg (n * W.bytes) t))
    (ht : explicitTimeout i = timeout) :
    ∃ k', OnlyContext s ((s.arrayReadRule i W dev reg n timeout).issue c k bus) c k' ∧
      Issued s bus i k k' := by
  simp only [State.arrayReadRule]
  split
  · obtain ⟨k', hk', ha⟩ := respond_spec k (.count 0) h
    exact ⟨k', hk', .answered _ ha⟩
  · rename_i hn
    exact sendRead_issued bus h hreq ht fun hz =>
      Nat.mul_pos (Nat.pos_of_ne_zero fun h0 => hn ⟨h0, hz⟩) W.bytes_pos

theorem unitWriteRule_issued {i : Instr} {dev : DevAddr} {reg : RegAddr} {bytes : List Byte}
    (h : s.ctx? c = some k) (hreq : writeRequest k bus i = some (.write bus dev reg bytes))
    (hi : isByteModify i = false) (hb : 1 ≤ bytes.length) :
    ∃ k', OnlyContext s ((s.unitWriteRule i dev reg bytes).issue c k bus) c k' ∧
      Issued s bus i k k' :=
  sendWrite_issued bus h hreq hi fun _ => hb

theorem arrayWriteRule_issued {i : Instr} {W : Width} {dev : DevAddr} {reg : RegAddr} {n : Nat}
    (h : s.ctx? c = some k) (hreq : writeRequest k bus i = some (.write bus dev reg (k.sendBytes W n)))
    (hi : isByteModify i = false) (hn : n ≤ 255) :
    ∃ k', OnlyContext s ((s.arrayWriteRule i W dev reg n).issue c k bus) c k' ∧
      Issued s bus i k k' := by
  simp only [State.arrayWriteRule]
  split
  · obtain ⟨k', hk', ha⟩ := respond_spec k (.write true) h
    exact ⟨k', hk', .answered _ ha⟩
  · rename_i h0
    refine sendWrite_issued bus h hreq hi fun hz => ?_
    rw [sendBytes_length k W (by omega)]
    exact Nat.mul_pos (Nat.pos_of_ne_zero fun hn0 => h0 ⟨hn0, hz⟩) W.bytes_pos

/-- Every command but `setDefaultTimeout` changes its own context only. -/
theorem issue_onlyContext {i : Instr} (h : s.ctx? c = some k) (hwf : i.wf = true)
    (hi : ∀ ms, i ≠ .setDefaultTimeout ms) :
    ∃ k', OnlyContext s ((s.ruleOf i).issue c k bus) c k' ∧ Issued s bus i k k' := by
  cases i with
  | readBit dev reg b t => exact unitReadRule_issued bus _ h (fun _ => rfl) rfl
  | readBitW dev reg b t => exact unitReadRule_issued bus _ h (fun _ => rfl) rfl
  | readBits dev reg f t => exact unitReadRule_issued bus _ h (fun _ => rfl) rfl
  | readBitsW dev reg f t => exact unitReadRule_issued bus _ h (fun _ => rfl) rfl
  | readByte dev reg t => exact unitReadRule_issued bus _ h (fun _ => rfl) rfl
  | readWord dev reg t => exact unitReadRule_issued bus _ h (fun _ => rfl) rfl
  | readBytes dev reg n t =>
    exact arrayReadRule_issued bus h (fun _ => by simp [readRequest, Width.bytes]) rfl
  | readWords dev reg n t => exact arrayReadRule_issued bus h (fun _ => rfl) rfl
  | readBytesNoRegAddress dev n t =>
    exact arrayReadRule_issued bus h (fun _ => by simp [readRequest, Width.bytes]) rfl
  | writeBit dev reg b v => exact rmwRule_issued bus _ _ h (fun _ => rfl) rfl
  | writeBitW dev reg b v => exact rmwRule_issued bus _ _ h (fun _ => rfl) rfl
  | writeBits dev reg f v => exact rmwRule_issued bus _ _ h (fun _ => rfl) rfl
  | writeBitsW dev reg f v => exact rmwRule_issued bus _ _ h (fun _ => rfl) rfl
  | writeByte dev reg v => exact unitWriteRule_issued bus h rfl rfl (by simp)
  | writeWord dev reg v => exact unitWriteRule_issued bus h rfl rfl (by simp)
  | writeBytes dev reg n => exact arrayWriteRule_issued bus h rfl rfl (of_decide_eq_true hwf)
  | writeWords dev reg n => exact arrayWriteRule_issued bus h rfl rfl (of_decide_eq_true hwf)
  | extractField8 rv f => exact valueRule_issued bus _ _ h
  | extractField16 rv f => exact valueRule_issued bus _ _ h
  | injectField8 rv f v => exact valueRule_issued bus _ _ h
  | injectField16 rv f v => exact valueRule_issued bus _ _ h
  | setDefaultTimeout ms => exact absurd rfl (hi ms)
  | getDefaultTimeout => exact valueRule_issued bus _ _ h

/-- The issue step of every command: what becomes of its context, and what of `DEFAULT_TIMEOUT`. -/
theorem issue_effect {i : Instr} (h : s.ctx? c = some k) (hwf : i.wf = true) :
    ∃ dt k', OnlyContext { s with defaultTimeout := dt } ((s.ruleOf i).issue c k bus) c k' ∧
      Issued s bus i k k' ∧ (dt = s.defaultTimeout ∨ i = .setDefaultTimeout dt) := by
  by_cases hi : ∃ ms, i = .setDefaultTimeout ms
  · obtain ⟨ms, rfl⟩ := hi
    obtain ⟨k', hk', ha⟩ := respond_spec (s := { s with defaultTimeout := ms }) k (.value 0)
      (by simpa using h)
    exact ⟨ms, k', hk', .answered _ ha, .inr rfl⟩
  · obtain ⟨k', hk', hissued⟩ := issue_onlyContext bus h hwf fun ms hms => hi ⟨ms, hms⟩
    exact ⟨s.defaultTimeout, k', hk', hissued, .inl rfl⟩

end

/-! ### The read-reply step, rule by rule -/

section
variable {s : State} {c : Nat} {k : Context} (reply : ReadReply)

theorem reportRead_handled (W : Width) (f : Nat → Word16 → Word16) (i : Instr)
    (h : s.ctx? c = some k) :
    ∃ k', OnlyContext s (s.reportRead W f c k reply) c k' ∧ ReadHandled i k k' := by
  cases hu : reply.unit W with
  | none =>
    obtain ⟨k', hk', ha⟩ := reportRead_failed f h hu
    exact ⟨k', hk', .ended _ ha.toEnded⟩
  | some r =>
    obtain ⟨k', hk', ha⟩ := reportRead_full f h hu
    exact ⟨k', hk', .ended _ ha.toEnded⟩

theorem reportArray_handled (W : Width) (n : Nat) (i : Instr) (h : s.ctx? c = some k) :
    ∃ k', OnlyContext s (s.reportArray W n c k reply) c k' ∧ ReadHandled i k k' := by
  cases reply with
  | bytes b =>
    obtain ⟨k', hk', he, -⟩ := reportArray_bytes W n b h
    exact ⟨k', hk', .ended _ he⟩
  | busError =>
    obtain ⟨k', hk', he, -⟩ := reportArray_busError W n h
    exact ⟨k', hk', .ended _ he⟩
  | timeout =>
    obtain ⟨k', hk', he, -⟩ := reportArray_timeout W n h
    exact ⟨k', hk', .ended _ he⟩

/-- A bit or field write ends, or sends back its write request of 20_memory R64. -/
theorem modify_handled {W : Width} {dev : DevAddr} {reg : RegAddr} {i : Instr} (f : FieldSpec)
    (v : Nat) (h : s.ctx? c = some k)
    (hreq : ∀ q bus, writeRequest q bus i = some (.write bus dev reg (unitBytes W q.rvl)))
    (hbyte : isByteModify i = true → W = .w8) :
    ∃ k', OnlyContext s (s.modify W dev reg f v c k reply) c k' ∧ ReadHandled i k k' := by
  cases hu : reply.unit W with
  | none =>
    obtain ⟨k', hk', ha⟩ := modify_failed dev reg f v h hu
    exact ⟨k', hk', .ended _ ha.toEnded⟩
  | some r =>
    obtain ⟨k', hk', hb⟩ := modify_full dev reg f v h hu
    refine ⟨k', hk', .sentBack _ _ hb (by rw [hreq, hb.rvl]) (fun hi => ?_) ?_⟩
    · rw [hbyte hi]
      exact inject_w8_lt s c f r.toNat v
    · rw [Request.size, unitBytes_length]
      exact W.bytes_pos

/-- The read-reply step of every command that has one. -/
theorem readReply_effect {i : Instr} {f : Nat → Context → ReadReply → State}
    (h : s.ctx? c = some k) (hf : (s.ruleOf i).readReply = some f) :
    ∃ k', OnlyContext s (f c k reply) c k' ∧ ReadHandled i k k' := by
  cases i with
  | readBit dev reg b t => cases hf; exact reportRead_handled reply _ _ _ h
  | readBitW dev reg b t => cases hf; exact reportRead_handled reply _ _ _ h
  | readBits dev reg f t => cases hf; exact reportRead_handled reply _ _ _ h
  | readBitsW dev reg f t => cases hf; exact reportRead_handled reply _ _ _ h
  | readByte dev reg t => cases hf; exact reportRead_handled reply _ _ _ h
  | readWord dev reg t => cases hf; exact reportRead_handled reply _ _ _ h
  | readBytes dev reg n t => cases hf; exact reportArray_handled reply _ _ _ h
  | readWords dev reg n t => cases hf; exact reportArray_handled reply _ _ _ h
  | readBytesNoRegAddress dev n t => cases hf; exact reportArray_handled reply _ _ _ h
  | writeBit dev reg b v =>
    cases hf; exact modify_handled reply _ _ h (fun _ _ => rfl) (fun _ => rfl)
  | writeBitW dev reg b v =>
    cases hf; exact modify_handled reply _ _ h (fun _ _ => rfl) (fun hw => nomatch hw)
  | writeBits dev reg f v =>
    cases hf; exact modify_handled reply _ _ h (fun _ _ => rfl) (fun _ => rfl)
  | writeBitsW dev reg f v =>
    cases hf; exact modify_handled reply _ _ h (fun _ _ => rfl) (fun hw => nomatch hw)
  | writeByte dev reg v => cases hf
  | writeWord dev reg v => cases hf
  | writeBytes dev reg n => cases hf
  | writeWords dev reg n => cases hf
  | extractField8 rv f => cases hf
  | extractField16 rv f => cases hf
  | injectField8 rv f v => cases hf
  | injectField16 rv f v => cases hf
  | setDefaultTimeout ms => cases hf
  | getDefaultTimeout => cases hf

end

/-! ### A whole move -/

/-- With no move to come the block stays as it is (log 7). -/
theorem step_of_nil {s : State} (h : s.inputs = []) : step s = .next s := by
  rw [step, h]

theorem step_of_reset {s : State} {rest : List Input} (h : s.inputs = .reset :: rest) :
    step s = .next s.resetEvent.advance := by
  rw [step, h]
  rfl

/-- What a move addressed to context `c` can make of it: `k` before, `k'` after. -/
inductive ContextMove (s : State) (c : Nat) : Input → Context → Context → Prop where
  /-- The issue step of a legal word. -/
  | issued {bus w i k k'} (idle : k.phase = .idle) (hd : decode w = .ok i)
      (h : Issued s bus i k k') : ContextMove s c (.command c bus w) k k'
  /-- An illegal word is answered. -/
  | illegal {bus w k k' p} (idle : k.phase = .idle) (h : Answered k k' p) :
      ContextMove s c (.command c bus w) k k'
  /-- The read-reply step of the latched command. -/
  | readReplied {r k k'} (waits : k.phase = .rdWait) (h : ReadHandled k.cmdl.cmd k k') :
      ContextMove s c (.readReply c r) k k'
  /-- The write-reply step. -/
  | writeReplied {r k k' p} (waits : k.phase = .wrWait) (h : Answered k k' p) :
      ContextMove s c (.writeReply c r) k k'
  /-- The host writes `BUF`. -/
  | hostWrote {j v k b} (idle : k.phase = .idle) :
      ContextMove s c (.hostWriteBuf c j v) k { k with buf := b }

/-- A move other than reset changes no context at all, or makes a `ContextMove` of one context; and
`DEFAULT_TIMEOUT` changes by `setDefaultTimeout` only. -/
theorem step_effect {s t : State} {i : Input} {rest : List Input} (hin : s.inputs = i :: rest)
    (hr : i ≠ .reset) (h : step s = .next t) :
    (∃ x y, t = { s with abandoned := x, hostData := y }.advance) ∨
    (∃ c k k' dt u, s.ctx? c = some k ∧ ContextMove s c i k k' ∧
      OnlyContext { s with defaultTimeout := dt } u c k' ∧ t = u.advance ∧
      (dt = s.defaultTimeout ∨
        ∃ bus w, i = .command c bus w ∧ decode w = .ok (.setDefaultTimeout dt))) := by
  rcases step_next h with ⟨hnil, -⟩ | ⟨c, bus, w, rest', k, u, hm, hc, hp, rfl, hu⟩ |
    ⟨c, r, rest', k, f, hm, hR, hf, rfl⟩ | ⟨c, r, rest', k, f, hm, hW, hf, rfl⟩ |
    ⟨c, j, v, rest', k, hm, hc, hp, rfl⟩ | ⟨c, j, rest', k, x, hm, hc, hp, hx, rfl⟩ |
    ⟨c, rest', k, hm, hc, rfl⟩ | ⟨rest', hm, -⟩ | ⟨j, rest', hm, hj, rfl⟩
  · rw [hin] at hnil
    cases hnil
  all_goals
    rw [hin] at hm
    cases hm
  · right
    rcases hu with ⟨i, hd, rfl⟩ | ⟨e, hd, rfl⟩
    · obtain ⟨dt, k', hk', hissued, hdt⟩ := issue_effect bus hc (decode_wf hd)
      refine ⟨c, k, k', dt, _, hc, .issued hp hd hissued, hk', rfl, hdt.imp_right ?_⟩
      rintro rfl
      exact ⟨bus, w, rfl, hd⟩
    · obtain ⟨k', hk', ha⟩ := respond_spec k .illegal hc
      exact ⟨c, k, k', _, _, hc, .illegal hp ha, hk', rfl, .inl rfl⟩
  · obtain ⟨k', hk', hh⟩ := readReply_effect r hR.ctx hf
    exact .inr ⟨c, k, k', _, _, hR.ctx, .readReplied hR.waits hh, hk', rfl, .inl rfl⟩
  · obtain rfl := ruleOf_writeReply hf
    obtain ⟨k', hk', ha⟩ := reportWrite_spec r hW.ctx
    exact .inr ⟨c, k, k', _, _, hW.ctx, .writeReplied hW.waits ha, hk', rfl, .inl rfl⟩
  · exact .inr ⟨c, k, _, _, _, hc, .hostWrote hp, onlyContext_setCtx _ hc, rfl, .inl rfl⟩
  · exact .inl ⟨_, _, rfl⟩
  · exact .inl ⟨_, _, rfl⟩
  · exact absurd rfl hr
  · exact .inl ⟨_, _, rfl⟩

/-- `step_effect`, for one context. -/
theorem step_context {s t : State} {i : Input} {rest : List Input} (hin : s.inputs = i :: rest)
    (hr : i ≠ .reset) (h : step s = .next t) (c : Nat) :
    t.ctx? c = s.ctx? c ∨
      ∃ k k', s.ctx? c = some k ∧ t.ctx? c = some k' ∧ ContextMove s c i k k' := by
  rcases step_effect hin hr h with ⟨x, y, rfl⟩ | ⟨d, k, k', dt, u, hd, hmove, honly, rfl, -⟩
  · left
    cases c <;> rfl
  · rw [State.advance_ctx?]
    by_cases hcd : c = d
    · subst hcd
      exact .inr ⟨k, k', hd, honly.here, hmove⟩
    · left
      rw [honly.others c hcd, State.ctx?_with_defaultTimeout]

end Sys2Proof.Machine
end

section
/-! PROOFS. The invariant of runs (10_state R24 to R26): it holds after reset and every move keeps it. -/

namespace Sys2Proof.Machine

/-! ### `coherent`, phase by phase -/

theorem Context.coherent_idle {k : Context} (h : k.phase = .idle) :
    k.coherent ↔ k.outstanding = none := by
  simp only [Context.coherent, h]

theorem Context.coherent_rdWait {k : Context} (h : k.phase = .rdWait) :
    k.coherent ↔ k.outstanding.isSome = true ∧
      k.outstanding = k.cmdl.timeout.bind (fun t => readRequest k.cmdl.bus t k.cmdl.cmd) ∧
      (explicitTimeout k.cmdl.cmd = none ∨ explicitTimeout k.cmdl.cmd = k.cmdl.timeout) := by
  simp only [Context.coherent, h]

theorem Context.coherent_wrWait {k : Context} (h : k.phase = .wrWait) :
    k.coherent ↔ k.outstanding.isSome = true ∧
      k.outstanding = writeRequest k k.cmdl.bus k.cmdl.cmd ∧
      (isByteModify k.cmdl.cmd = true → k.rvl.toNat < 256) := by
  simp only [Context.coherent, h]

/-! ### `ContextInv`, phase by phase -/

/-- An idle context with nothing outstanding has the invariant. -/
theorem contextInv_of_idle (s : State) {k : Context} (hp : k.phase = .idle)
    (ho : k.outstanding = none) : s.ContextInv k where
  coherent := (Context.coherent_idle hp).2 ho
  wf := fun h => absurd hp h
  sized := fun r hr => by rw [ho] at hr; cases hr

/-- A context with the read request of its latched command outstanding has the invariant. -/
theorem contextInv_of_rdWait {s : State} {k : Context} {i : Instr} {bus : BusId} {t : Millis}
    {r : Request} (hp : k.phase = .rdWait) (hl : k.cmdl = ⟨i, bus, some t⟩)
    (ho : k.outstanding = some r) (hwf : i.wf = true) (hreq : readRequest bus t i = some r)
    (ht : explicitTimeout i = none ∨ explicitTimeout i = some t)
    (hs : s.policy.zeroCount = .noRequest → 1 ≤ r.size) : s.ContextInv k where
  coherent := (Context.coherent_rdWait hp).2
    ⟨by simp [ho], by simp [hl, ho, hreq], by simpa [hl] using ht⟩
  wf := fun _ => by simpa [hl] using hwf
  sized := fun r' hr' => by
    rw [ho] at hr'
    cases hr'
    exact ⟨readRequest_size_le hwf hreq, hs⟩

/-- A context with the write request of its latched command outstanding has the invariant. -/
theorem contextInv_of_wrWait {s : State} {k : Context} {r : Request} (hp : k.phase = .wrWait)
    (ho : k.outstanding = some r) (hwf : k.cmdl.cmd.wf = true)
    (hreq : writeRequest k k.cmdl.bus k.cmdl.cmd = some r)
    (hb : isByteModify k.cmdl.cmd = true → k.rvl.toNat < 256)
    (hs : s.policy.zeroCount = .noRequest → 1 ≤ r.size) : s.ContextInv k where
  coherent := (Context.coherent_wrWait hp).2 ⟨by simp [ho], by rw [ho, hreq], hb⟩
  wf := fun _ => hwf
  sized := fun r' hr' => by
    rw [ho] at hr'
    cases hr'
    exact ⟨writeRequest_size_le hwf hreq, hs⟩

/-- The invariant of a context looks at the state for its policy only. -/
theorem State.ContextInv.congr {s t : State} {k : Context} (h : s.ContextInv k)
    (hp : t.policy = s.policy) : t.ContextInv k where
  coherent := h.coherent
  wf := h.wf
  sized := fun r hr => hp ▸ h.sized r hr

/-! ### Moves keep it -/

theorem Issued.contextInv {s : State} {bus : BusId} {i : Instr} {k k' : Context}
    (h : Issued s bus i k k') (hwf : i.wf = true) : s.ContextInv k' := by
  cases h with
  | answered p ha => exact contextInv_of_idle s ha.phase ha.outstanding
  | reads t r hs req timeout size =>
    exact contextInv_of_rdWait hs.phase hs.cmdl hs.outstanding hwf req timeout size
  | writes r hs req plain size =>
    have hreq : writeRequest k' bus i = some r := by rw [writeRequest_congr hs.rvl hs.buf, req]
    refine contextInv_of_wrWait hs.phase hs.outstanding ?_ ?_ ?_ size
    · rwa [hs.cmdl]
    · rwa [hs.cmdl]
    · rw [hs.cmdl, plain]
      exact fun hf => nomatch hf

theorem ReadHandled.contextInv {s : State} {k k' : Context} (h : ReadHandled k.cmdl.cmd k k')
    (hwf : k.cmdl.cmd.wf = true) : s.ContextInv k' := by
  cases h with
  | ended p he => exact contextInv_of_idle s he.phase he.outstanding
  | sentBack x r hb req byte size =>
    refine contextInv_of_wrWait hb.phase hb.outstanding ?_ ?_ ?_ fun _ => size
    · rwa [hb.cmdl]
    · rwa [hb.cmdl]
    · rwa [hb.cmdl, hb.rvl]

theorem ContextMove.contextInv {s : State} {c : Nat} {i : Input} {k k' : Context}
    (h : ContextMove s c i k k') (hk : s.ContextInv k) : s.ContextInv k' := by
  cases h with
  | issued idle hd hi => exact hi.contextInv (decode_wf hd)
  | illegal idle ha => exact contextInv_of_idle s ha.phase ha.outstanding
  | readReplied waits hh => exact hh.contextInv (hk.wf (by rw [waits]; exact nofun))
  | writeReplied waits ha => exact contextInv_of_idle s ha.phase ha.outstanding
  | hostWrote idle =>
    have ho : k.outstanding = none := (Context.coherent_idle idle).1 hk.coherent
    exact contextInv_of_idle s idle ho

/-! ### Reset -/

/-- Context `j` of the list of contexts after a reset. -/
theorem resetContexts_getElem? (tick n j : Nat) :
    (resetContexts tick n)[j]? = if j < n then some (Context.afterReset tick (j + 1)) else none := by
  by_cases h : j < n <;> simp [resetContexts, h]

/-- A state whose contexts are those of a reset has no other contexts. -/
theorem ctx?_of_afterReset {s : State} {tick n : Nat} (h0 : s.ctx0 = Context.afterReset tick 0)
    (hm : s.more = resetContexts tick n) (c : Nat) :
    s.ctx? c = if c < 1 + n then some (Context.afterReset tick c) else none := by
  cases c with
  | zero => simp [h0]
  | succ j => simp [hm, resetContexts_getElem?, Nat.add_comm 1 n]

/-- A state whose contexts are those of a reset has the invariant. -/
theorem inv_of_afterReset {s : State} {tick n : Nat} (h0 : s.ctx0 = Context.afterReset tick 0)
    (hm : s.more = resetContexts tick n) : s.Inv := by
  intro c k hk
  rw [ctx?_of_afterReset h0 hm] at hk
  split at hk
  · cases hk
    exact contextInv_of_idle s rfl rfl
  · cases hk

/-! ### What a move does not change -/

/-- No move changes the policy. -/
theorem step_policy {s t : State} (h : step s = .next t) : t.policy = s.policy := by
  cases hin : s.inputs with
  | nil =>
    rw [step_of_nil hin] at h
    cases h
    rfl
  | cons i rest =>
    by_cases hr : i = .reset
    · subst hr
      rw [step_of_reset hin] at h
      cases h
      rfl
    · rcases step_effect hin hr h with ⟨x, y, rfl⟩ | ⟨c, k, k', dt, u, -, -, honly, rfl, -⟩
      · rfl
      · exact honly.policy

/-- Every move takes the first input away. -/
theorem step_inputs {s t : State} (h : step s = .next t) : t.inputs = s.inputs.tail := by
  cases hin : s.inputs with
  | nil =>
    rw [step_of_nil hin] at h
    cases h
    exact hin
  | cons i rest =>
    by_cases hr : i = .reset
    · subst hr
      rw [step_of_reset hin] at h
      cases h
      exact congrArg List.tail hin
    · rcases step_effect hin hr h with ⟨x, y, rfl⟩ | ⟨c, k, k', dt, u, -, -, honly, rfl, -⟩
      · exact congrArg List.tail hin
      · exact congrArg List.tail (honly.inputs.trans hin)

/-! ### The statements -/

/-- Settles O39, from what one move can make of one context. -/
theorem everyMoveKeepsTheInvariant : Obligations.EveryMoveKeepsTheInvariant := by
  intro s t hinv h
  cases hin : s.inputs with
  | nil =>
    rw [step_of_nil hin] at h
    cases h
    exact hinv
  | cons i rest =>
    by_cases hr : i = .reset
    · subst hr
      rw [step_of_reset hin] at h
      cases h
      exact inv_of_afterReset rfl rfl
    · intro c k' hk'
      have hkeep {q : Context} (hq : s.ContextInv q) : t.ContextInv q := hq.congr (step_policy h)
      rcases step_context hin hr h c with heq | ⟨k, k₁, hk, hk₁, hmove⟩
      · exact hkeep (hinv c k' (heq ▸ hk'))
      · rw [hk₁] at hk'
        cases hk'
        exact hkeep (hmove.contextInv (hinv c k hk))

/-- Settles O40. -/
theorem resetHasTheInvariant : Obligations.ResetHasTheInvariant :=
  inv_of_afterReset rfl rfl

/-- Settles O52. -/
theorem resetLeavesEveryContextIdle : Obligations.ResetLeavesEveryContextIdle := by
  have hctx := ctx?_of_afterReset (s := State.reset) rfl rfl
  refine ⟨rfl, ⟨_, rfl⟩, fun c => ?_, fun c k hk => ?_, rfl⟩
  · rw [hctx]
    split <;> simp_all
  · rw [hctx] at hk
    split at hk
    · cases hk
      exact ⟨rfl, rfl⟩
    · cases hk

end Sys2Proof.Machine
end

section
/-! PROOFS. What moves leave unchanged: waiting contexts, `DEFAULT_TIMEOUT`, `RESP`
(10_state R23, R31, R32). -/

namespace Sys2Proof.Machine

/-! ### A waiting context (10_state R31) -/

/-- A waiting context changes only by a reply to it. -/
theorem ContextMove.endsWait {s : State} {c : Nat} {i : Input} {k k' : Context}
    (h : ContextMove s c i k k') (hw : k.phase ≠ .idle) : i.endsWait c = true := by
  cases h with
  | issued idle => exact absurd idle hw
  | illegal idle => exact absurd idle hw
  | readReplied => exact beq_self_eq_true c
  | writeReplied => exact beq_self_eq_true c
  | hostWrote idle => exact absurd idle hw

/-- One move that neither answers a waiting context nor resets the block leaves that context as it is. -/
theorem waiting_kept_by_step {s t : State} {c : Nat} {k : Context} (hc : s.ctx? c = some k)
    (hw : k.phase ≠ .idle) (hin : ∀ i ∈ s.inputs, i.endsWait c = false) (h : step s = .next t) :
    t.ctx? c = some k := by
  cases hs : s.inputs with
  | nil =>
    rw [step_of_nil hs] at h
    cases h
    exact hc
  | cons i rest =>
    have hi : i.endsWait c = false := hin i (by simp [hs])
    have hr : i ≠ .reset := by
      rintro rfl
      cases hi
    rcases step_context hs hr h c with heq | ⟨k₁, k', hk₁, -, hmove⟩
    · rw [heq, hc]
    · rw [hc] at hk₁
      cases hk₁
      rw [hmove.endsWait hw] at hi
      cases hi

/-- A run of `n + 1` moves is one move and a run of `n`. -/
theorem run_succ_next {n : Nat} {s t : State} (h : Host.Core.run core (n + 1) s = .next t) :
    ∃ u, step s = .next u ∧ Host.Core.run core n u = .next t := by
  cases hs : step s with
  | next u =>
    have hcore : core.step s = .next u := hs
    simp only [Host.Core.run, hcore] at h
    exact ⟨u, rfl, h⟩
  | fault r => nomatch r
  | refused r =>
    have hcore : core.step s = .refused r := hs
    simp only [Host.Core.run, hcore] at h
    cases h

/-- Settles O42, by induction on the number of moves. -/
theorem unansweredContextHangs : Obligations.UnansweredContextHangs := by
  intro n
  induction n with
  | zero =>
    intro s t c k hc _ _ h
    cases h
    exact hc
  | succ n ih =>
    intro s t c k hc hw hin h
    obtain ⟨u, hu, hrun⟩ := run_succ_next h
    have hin' : ∀ i ∈ u.inputs, i.endsWait c = false := fun i hi =>
      hin i (List.mem_of_mem_tail (step_inputs hu ▸ hi))
    exact ih u t c k (waiting_kept_by_step hc hw hin hu) hw hin' hrun

/-! ### `DEFAULT_TIMEOUT` (10_state R23) -/

/-- Settles O46. -/
theorem onlySetDefaultTimeoutChangesIt : Obligations.OnlySetDefaultTimeoutChangesIt := by
  intro s t i rest hin hr hset h
  rcases step_effect hin hr h with ⟨x, y, rfl⟩ | ⟨c, k, k', dt, u, -, -, honly, rfl, hdt⟩
  · rfl
  · rcases hdt with rfl | ⟨bus, w, hi, hd⟩
    · exact honly.defaultTimeout
    · exact absurd hd (hset c bus w dt hi)

/-! ### `RESP` (10_state R32) -/

/-- The moves that can end a command of context `c`. -/
def Input.mayEnd (c : Nat) (i : Input) : Prop :=
  (∃ bus w, i = .command c bus w) ∨ (∃ r, i = .readReply c r) ∨ (∃ r, i = .writeReply c r)

/-- A move that changes `RESP` is a command word or a reply, and ends the command. -/
theorem ContextMove.ends_of_resp_ne {s : State} {c : Nat} {i : Input} {k k' : Context}
    (h : ContextMove s c i k k') (hne : k'.resp ≠ k.resp) :
    i.mayEnd c ∧ k'.phase = .idle ∧ k'.outstanding = none := by
  cases h with
  | issued idle hd hi =>
    cases hi with
    | answered p ha => exact ⟨.inl ⟨_, _, rfl⟩, ha.phase, ha.outstanding⟩
    | reads t r hs => exact absurd hs.resp hne
    | writes r hs => exact absurd hs.resp hne
  | illegal idle ha => exact ⟨.inl ⟨_, _, rfl⟩, ha.phase, ha.outstanding⟩
  | readReplied waits hh =>
    cases hh with
    | ended p he => exact ⟨.inr (.inl ⟨_, rfl⟩), he.phase, he.outstanding⟩
    | sentBack x r hb => exact absurd hb.resp hne
  | writeReplied waits ha => exact ⟨.inr (.inr ⟨_, rfl⟩), ha.phase, ha.outstanding⟩
  | hostWrote idle => exact absurd rfl hne

/-- Settles O48. -/
theorem responseChangesOnlyAtTheEnd : Obligations.ResponseChangesOnlyAtTheEnd := by
  intro s t c k k' i rest hin hr h hk hk' hne
  rcases step_context hin hr h c with heq | ⟨q, q', hq, hq', hmove⟩
  · rw [heq, hk] at hk'
    cases hk'
    exact absurd rfl hne
  · rw [hk] at hq
    rw [hk'] at hq'
    cases hq
    cases hq'
    exact hmove.ends_of_resp_ne hne

end Sys2Proof.Machine
end

section
/-! PROOFS. When a move goes on, and where to: the issue step, the two reply steps and the host's steps
(10_state R27 to R32), and that every admitted move does. -/

namespace Sys2Proof.Machine

/-! ### The step of each kind of move -/

/-- An idle context runs the issue step of a legal word. -/
theorem step_command_ok {s : State} {c : Nat} {bus : BusId} {w : CommandWord} {rest : List Input}
    {k : Context} {i : Instr} (hin : s.inputs = .command c bus w :: rest) (hc : s.ctx? c = some k)
    (hp : k.phase = .idle) (hd : decode w = .ok i) :
    step s = .next ((s.ruleOf i).issue c k bus).advance := by
  have hI : s.Issuing c bus k := ⟨⟨w, rest, hin⟩, hc, hp⟩
  simp only [step, hin, stepCommand, hd, exec_eq_run, run_issuing _ hI, finish]

/-- An idle context answers an illegal word. -/
theorem step_command_error {s : State} {c : Nat} {bus : BusId} {w : CommandWord} {rest : List Input}
    {k : Context} {e : Illegal} (hin : s.inputs = .command c bus w :: rest) (hc : s.ctx? c = some k)
    (hp : k.phase = .idle) (hd : decode w = .error e) :
    step s = .next (s.respond c k .illegal).advance := by
  have hI : s.Issuing c bus k := ⟨⟨w, rest, hin⟩, hc, hp⟩
  simp only [step, hin, stepCommand, hd, State.answerIllegal, run_issuing _ hI, finish,
    immediateRule]

/-- A reply to a waiting context runs the latched command. -/
theorem stepReply_of_waiting {s : State} {c : Nat} {k : Context} (hc : s.ctx? c = some k)
    (hw : k.phase ≠ .idle) : stepReply c s = exec k.cmdl.cmd s := by
  cases hp : k.phase with
  | idle => exact absurd hp hw
  | rdWait => simp only [stepReply, hc, hp]
  | wrWait => simp only [stepReply, hc, hp]

/-- An awaited, allowed read reply runs the read-reply step of the latched command. -/
theorem step_readReply {s : State} {c : Nat} {k : Context} {reply : ReadReply}
    {f : Nat → Context → ReadReply → State} (h : s.ReadAnswered c k reply)
    (hf : (s.ruleOf k.cmdl.cmd).readReply = some f) : step s = .next (f c k reply).advance := by
  obtain ⟨rest, hin⟩ := h.move
  have hw : k.phase ≠ .idle := by rw [h.waits]; exact nofun
  simp only [step, hin, stepReply_of_waiting h.ctx hw, exec_eq_run, run_readAnswered h hf, finish]

/-- An awaited write reply runs the write-reply step. -/
theorem step_writeReply {s : State} {c : Nat} {k : Context} {reply : WriteReply}
    (h : s.WriteAnswered c k reply) (hf : (s.ruleOf k.cmdl.cmd).writeReply = some s.reportWrite) :
    step s = .next (s.reportWrite c k reply).advance := by
  obtain ⟨rest, hin⟩ := h.move
  have hw : k.phase ≠ .idle := by rw [h.waits]; exact nofun
  simp only [step, hin, stepReply_of_waiting h.ctx hw, exec_eq_run, run_writeAnswered h hf, finish]

/-! ### Awaited replies find their step -/

/-- The commands with a read request are those with a read-reply step. -/
theorem ruleOf_readReply_isSome (s : State) (bus : BusId) (t : Millis) (i : Instr) :
    (s.ruleOf i).readReply.isSome = (readRequest bus t i).isSome := by
  cases i <;> rfl

/-- The commands with a write request are those with a write-reply step. -/
theorem ruleOf_writeReply_eq (s : State) (k : Context) (bus : BusId) (i : Instr) :
    (s.ruleOf i).writeReply = (writeRequest k bus i).map fun _ => s.reportWrite := by
  cases i <;> rfl

/-- The write request of a command is a write. -/
theorem writeRequest_is_write {k : Context} {bus : BusId} {i : Instr} {r : Request}
    (h : writeRequest k bus i = some r) : ∃ b d g l, r = .write b d g l := by
  cases i <;> cases h <;> exact ⟨_, _, _, _, rfl⟩

/-- In a context of a run, an allowed reply to the outstanding read finds the read-reply step. -/
theorem readReply_isSome_of_coherent {s : State} {k : Context} (hk : k.coherent)
    (hw : k.phase = .rdWait) : ∃ f, (s.ruleOf k.cmdl.cmd).readReply = some f := by
  obtain ⟨hsome, hreq, -⟩ := (Context.coherent_rdWait hw).1 hk
  obtain ⟨r, hr⟩ := Option.isSome_iff_exists.1 hsome
  rw [hr] at hreq
  obtain ⟨t, -, hreq⟩ := Option.bind_eq_some_iff.1 hreq.symm
  apply Option.isSome_iff_exists.1
  rw [ruleOf_readReply_isSome s k.cmdl.bus t, hreq]
  rfl

/-- In a context of a run, a reply to the outstanding write is awaited and runs the write-reply
step. -/
theorem step_writeReply_of_coherent {s : State} {c : Nat} {k : Context} {reply : WriteReply}
    {rest : List Input} (hin : s.inputs = .writeReply c reply :: rest) (hc : s.ctx? c = some k)
    (hk : k.coherent) (hw : k.phase = .wrWait) :
    step s = .next (s.reportWrite c k reply).advance := by
  obtain ⟨hsome, hreq, -⟩ := (Context.coherent_wrWait hw).1 hk
  obtain ⟨r, hr⟩ := Option.isSome_iff_exists.1 hsome
  have hwrite : writeRequest k k.cmdl.bus k.cmdl.cmd = some r := hreq.symm.trans hr
  obtain ⟨b, d, g, l, rfl⟩ := writeRequest_is_write hwrite
  refine step_writeReply ⟨⟨rest, hin⟩, hc, hw, ⟨b, d, g, l, hr⟩⟩ ?_
  rw [ruleOf_writeReply_eq s k k.cmdl.bus, hwrite]
  rfl

/-! ### The host's steps -/

theorem step_hostWriteBuf {s : State} {c : Nat} {j : BitVec 8} {x : Word16} {rest : List Input}
    {k : Context} (hin : s.inputs = .hostWriteBuf c j x :: rest) (hc : s.ctx? c = some k)
    (hp : k.phase = .idle) :
    step s = .next (s.setCtx c { k with buf := k.buf.set j.toNat x j.isLt }).advance := by
  simp only [step, hin, State.hostWriteBuf, hc, hp, if_true, finish]

theorem step_hostReadBuf {s : State} {c : Nat} {j : BitVec 8} {rest : List Input} {k : Context}
    (hin : s.inputs = .hostReadBuf c j :: rest) (hc : s.ctx? c = some k) (hp : k.phase = .idle) :
    step s = .next
      { s with hostData := some ((k.buf[j.toNat]'j.isLt).setWidth 32) }.advance := by
  simp only [step, hin, State.hostReadBuf, hc, hp, if_true, finish]

/-- A busy context has neither of the host's steps on `BUF`. -/
theorem step_hostBuf_busy {s : State} {c : Nat} {j : BitVec 8} {x : Word16} {rest : List Input}
    {k : Context} (hin : s.inputs = .hostWriteBuf c j x :: rest ∨ s.inputs = .hostReadBuf c j :: rest)
    (hc : s.ctx? c = some k) (hp : k.phase ≠ .idle) : step s = .refused .hostWhileBusy := by
  rcases hin with hin | hin
  · simp only [step, hin, State.hostWriteBuf, hc, if_neg hp, finish]
  · simp only [step, hin, State.hostReadBuf, hc, if_neg hp, finish]

theorem step_hostReadResp {s : State} {c : Nat} {rest : List Input} {k : Context}
    (hin : s.inputs = .hostReadResp c :: rest) (hc : s.ctx? c = some k) :
    step s = .next { s with hostData := some k.resp }.advance := by
  simp only [step, hin, State.hostReadResp, hc, finish]

theorem step_abandonedReply {s : State} {j : Nat} {rest : List Input}
    (hin : s.inputs = .abandonedReply j :: rest) (hj : j < s.abandoned.length) :
    step s = .next { s with abandoned := s.abandoned.eraseIdx j }.advance := by
  simp only [step, hin, State.discardReply, if_pos hj, finish]

/-! ### Passing to the next input -/

/-- The move list and the draw counter, advanced, in the form the statements write. -/
theorem State.advance_of_inputs {s : State} {i : Input} {rest : List Input}
    (hin : s.inputs = i :: rest) : s.advance = { s with inputs := rest, tick := s.tick + 1 } := by
  rw [State.advance, hin]
  rfl

/-- A move that changes one context still does when it is over. -/
theorem OnlyContext.advance {s t : State} {c : Nat} {k' : Context} {i : Input} {rest : List Input}
    (h : OnlyContext s t c k') (hin : s.inputs = i :: rest) :
    OnlyContext { s with inputs := rest, tick := s.tick + 1 } t.advance c k' := by
  rw [← State.advance_of_inputs hin]
  exact
    { here := by simpa using h.here
      others := fun d hd => by simpa using h.others d hd
      defaultTimeout := h.defaultTimeout
      abandoned := h.abandoned
      policy := h.policy
      inputs := congrArg List.tail h.inputs
      tick := congrArg (· + 1) h.tick
      hostData := h.hostData }

/-! ### The statements -/

/-- Settles O41, by the kind of the next move. -/
theorem everyAdmittedMoveCompletes : Obligations.EveryAdmittedMoveCompletes := by
  intro s hinv hadm
  unfold State.Admits at hadm
  cases hin : s.inputs with
  | nil => exact ⟨_, step_of_nil hin⟩
  | cons i rest =>
    rw [hin] at hadm
    cases i with
    | command c bus w =>
      obtain ⟨k, hc, hp⟩ := hadm
      cases hd : decode w with
      | ok i => exact ⟨_, step_command_ok hin hc hp hd⟩
      | error e => exact ⟨_, step_command_error hin hc hp hd⟩
    | readReply c reply =>
      obtain ⟨k, bus, dev, reg, len, t, hc, hp, ho, hb⟩ := hadm
      obtain ⟨f, hf⟩ := readReply_isSome_of_coherent (hinv c k hc).coherent hp
      exact ⟨_, step_readReply ⟨⟨rest, hin⟩, hc, hp, ⟨bus, dev, reg, len, t, ho, hb⟩⟩ hf⟩
    | writeReply c reply =>
      obtain ⟨k, hc, hp⟩ := hadm
      exact ⟨_, step_writeReply_of_coherent hin hc (hinv c k hc).coherent hp⟩
    | hostWriteBuf c j x =>
      obtain ⟨k, hc, hp⟩ := hadm
      exact ⟨_, step_hostWriteBuf hin hc hp⟩
    | hostReadBuf c j =>
      obtain ⟨k, hc, hp⟩ := hadm
      exact ⟨_, step_hostReadBuf hin hc hp⟩
    | hostReadResp c =>
      obtain ⟨k, hc⟩ := hadm
      exact ⟨_, step_hostReadResp hin hc⟩
    | reset => exact ⟨_, step_of_reset hin⟩
    | abandonedReply j => exact ⟨_, step_abandonedReply hin hadm⟩

/-- Settles O38. -/
theorem writeReplyStepReportsTheReply : Obligations.WriteReplyStepReportsTheReply := by
  intro s c k reply rest hinv hin hc hp
  obtain ⟨k', honly, ha⟩ := reportWrite_spec reply hc
  have hword : (Response.write (reply == .ok)).word =
      if reply = .ok then 0x80000000 else 0x00000000 := by
    cases reply <;> rfl
  exact ⟨_, k', step_writeReply_of_coherent hin hc (hinv c k hc).coherent hp, honly.advance hin,
    hword ▸ ha⟩

/-- Settles O51. -/
theorem hostStepsOnBufAndResp : Obligations.HostStepsOnBufAndResp := by
  intro s c k j x rest hc
  refine ⟨fun hp hin => ?_, fun hp hin => ?_, fun hp hin => step_hostBuf_busy hin hc hp, fun hin => ?_⟩
  · refine ⟨_, _, step_hostWriteBuf hin hc hp, (onlyContext_setCtx _ hc).advance hin,
      Vector.getElem_set_self _, fun m hm hne => Vector.getElem_set_ne j.isLt hm hne.symm,
      rfl, rfl, rfl, rfl, rfl⟩
  · exact (step_hostReadBuf hin hc hp).trans (congrArg _ (State.advance_of_inputs hin))
  · exact (step_hostReadResp hin hc).trans (congrArg _ (State.advance_of_inputs hin))

/-- Passing to the next input, written out on an outcome. -/
theorem finish_eq (r : Result) : finish r = match r with
    | .next t => .next { t with inputs := t.inputs.tail, tick := t.tick + 1 }
    | .fault e => .fault e
    | .refused e => .refused e := by
  cases r <;> rfl

/-- Settles O36. -/
theorem stepRunsTheCommand : Obligations.StepRunsTheCommand := by
  refine ⟨fun s c bus w rest i hin hd => ?_, fun s c k rest hc hw hin => ?_⟩
  · have hstep : step s = finish (exec i s) := by simp only [step, hin, stepCommand, hd]
    rw [hstep]
    exact finish_eq _
  · have hstep : step s = finish (exec k.cmdl.cmd s) := by
      rcases hin with ⟨r, hin⟩ | ⟨r, hin⟩
      · simp only [step, hin, stepReply_of_waiting hc hw]
      · simp only [step, hin, stepReply_of_waiting hc hw]
    rw [hstep]
    exact finish_eq _

end Sys2Proof.Machine
end

section
/-! PROOFS. Earlier outcomes never matter (10_state R33, 60_exceptions R210): two blocks whose contexts
do the same work make the same move, side by side. -/

namespace Sys2Proof.Machine

/-! ### What a context update does not change for a command -/

@[simp] theorem State.setCtx_effectiveTimeout (s : State) (c : Nat) (q : Context) (t : Option Millis) :
    (s.setCtx c q).effectiveTimeout t = s.effectiveTimeout t := by
  simp only [State.effectiveTimeout, State.setCtx_defaultTimeout]

@[simp] theorem State.setCtx_draw (s : State) (c : Nat) (q : Context) (d lane : Nat) :
    (s.setCtx c q).draw d lane = s.draw d lane := by
  simp only [State.draw, State.setCtx_tick]

@[simp] theorem State.setCtx_extract (s : State) (c : Nat) (q : Context) (d : Nat) (W : Width)
    (f : FieldSpec) (r : Nat) : (s.setCtx c q).extract d W f r = s.extract d W f r := by
  simp only [State.extract, State.codecResult, State.setCtx_policy, State.setCtx_tick]

@[simp] theorem State.setCtx_inject (s : State) (c : Nat) (q : Context) (d : Nat) (W : Width)
    (f : FieldSpec) (r v : Nat) : (s.setCtx c q).inject d W f r v = s.inject d W f r v := by
  simp only [State.inject, State.codecResult, State.setCtx_policy, State.setCtx_tick]

/-- `BUF` after an array read looks at the context for its `BUF` only. -/
theorem State.setCtx_fillBuf (s : State) (c : Nat) (q : Context) (d : Nat) {x y : Context} (n : Nat)
    (us : List Word16) (h : x.buf = y.buf) :
    (s.setCtx c q).fillBuf d y n us = s.fillBuf d x n us := by
  simp only [State.fillBuf, State.setCtx_draw, h]

/-- The bytes of an array write look at the context for its `BUF` only. -/
theorem Context.sendBytes_congr {x y : Context} (h : x.buf = y.buf) (W : Width) (n : Nat) :
    y.sendBytes W n = x.sendBytes W n := by
  simp only [Context.sendBytes, Context.entries, h]

/-! ### Two contexts side by side -/

theorem SameWork.refl (x : Context) : SameWork x x := ⟨rfl, rfl, rfl, fun _ => rfl⟩

/-- Two contexts after the same step, `x` and `y` before it: they do the same work, a response written
by the step is the same in both, and they are equal if they were. -/
structure SameStep (x y x' y' : Context) : Prop where
  /-- They still do the same work. -/
  work : SameWork x' y'
  /-- The response is the same, or neither has a new one. -/
  resp : x'.resp = y'.resp ∨ x'.resp = x.resp ∧ y'.resp = y.resp
  /-- Equal contexts stay equal. -/
  eq : x = y → x' = y'

/-- `a` and `b` are `s` and `u` after the same step of their contexts `d`. -/
def SideBySide (s u : State) (d : Nat) (x y : Context) (a b : State) : Prop :=
  ∃ dt x' y', a = { s with defaultTimeout := dt }.setCtx d x' ∧
    b = { u with defaultTimeout := dt }.setCtx d y' ∧ SameStep x y x' y'

section
variable {s u : State} {d : Nat} {x y : Context}

/-- Replacing context `d` in both blocks, by contexts after the same step. -/
theorem SideBySide.of_setCtx {x' y' : Context} (hdt : u.defaultTimeout = s.defaultTimeout)
    (h : SameStep x y x' y') : SideBySide s u d x y (s.setCtx d x') (u.setCtx d y') :=
  ⟨s.defaultTimeout, x', y', rfl, by rw [← hdt], h⟩

/-- Ending a command is the same step, whatever it leaves in `BUF`. -/
theorem SameStep.ended (b : Vector Word16 256) (p : ResponseWord) :
    SameStep x y { x with buf := b, phase := .idle, resp := p, outstanding := none }
      { y with buf := b, phase := .idle, resp := p, outstanding := none } where
  work := ⟨rfl, rfl, rfl, fun hn => absurd rfl hn⟩
  resp := .inl rfl
  eq := by rintro rfl; rfl

/-- Sending a request at the issue step is the same step. -/
theorem SameStep.sent (h : SameWork x y) (phase : Phase) (cmdl : Latched) (r : Option Request) :
    SameStep x y { x with phase := phase, cmdl := cmdl, outstanding := r }
      { y with phase := phase, cmdl := cmdl, outstanding := r } where
  work := ⟨rfl, rfl, h.buf, fun _ => rfl⟩
  resp := .inr ⟨rfl, rfl⟩
  eq := by rintro rfl; rfl

/-- Sending the latched value back is the same step. -/
theorem SameStep.sentBack (h : SameWork x y) (hw : x.phase ≠ .idle) (v : Word16)
    (r : Option Request) :
    SameStep x y { x with phase := .wrWait, rvl := v, outstanding := r }
      { y with phase := .wrWait, rvl := v, outstanding := r } where
  work := ⟨rfl, rfl, h.buf, fun _ => h.cmdl hw⟩
  resp := .inr ⟨rfl, rfl⟩
  eq := by rintro rfl; rfl

/-- The host's write of `BUF` is the same step. -/
theorem SameStep.hostWrote (h : SameWork x y) (b : Vector Word16 256) :
    SameStep x y { x with buf := b } { y with buf := b } where
  work := ⟨h.phase, h.outstanding, rfl, h.cmdl⟩
  resp := .inr ⟨rfl, rfl⟩
  eq := by rintro rfl; rfl

/-! ### The shared operations side by side -/

theorem respondBuf_sideBySide (hdt : u.defaultTimeout = s.defaultTimeout) (b : Vector Word16 256)
    (r : Response) :
    SideBySide s u d x y (s.respond d { x with buf := b } r) (u.respond d { y with buf := b } r) :=
  .of_setCtx hdt (.ended b r.word)

theorem respond_sideBySide (hdt : u.defaultTimeout = s.defaultTimeout) (h : SameWork x y)
    (r : Response) : SideBySide s u d x y (s.respond d x r) (u.respond d y r) := by
  have hy : { y with buf := x.buf } = y := by rw [h.buf]
  have hb := respondBuf_sideBySide (s := s) (d := d) (x := x) (y := y) hdt x.buf r
  rw [hy] at hb
  exact hb

end

section
variable {s : State} {c d : Nat} {q x y : Context}

theorem reportRead_sideBySide {W : Width} {f g : Nat → Word16 → Word16} (hfg : f d = g d)
    (h : SameWork x y) (reply : ReadReply) :
    SideBySide s (s.setCtx c q) d x y (s.reportRead W f d x reply)
      ((s.setCtx c q).reportRead W g d y reply) := by
  unfold State.reportRead
  cases reply.unit W with
  | none => simpa using respond_sideBySide (State.setCtx_defaultTimeout s c q) h _
  | some r => simpa [hfg] using respond_sideBySide (State.setCtx_defaultTimeout s c q) h _

theorem reportArray_sideBySide {W : Width} {n : Nat} (h : SameWork x y) (reply : ReadReply) :
    SideBySide s (s.setCtx c q) d x y (s.reportArray W n d x reply)
      ((s.setCtx c q).reportArray W n d y reply) := by
  cases reply <;>
    (simp only [State.reportArray, State.setCtx_fillBuf s c q d n _ h.buf]
     exact respondBuf_sideBySide (State.setCtx_defaultTimeout s c q) _ _)

theorem modify_sideBySide {W : Width} {dev : DevAddr} {reg : RegAddr} {f : FieldSpec} {v : Nat}
    (h : SameWork x y) (hw : x.phase ≠ .idle) (reply : ReadReply) :
    SideBySide s (s.setCtx c q) d x y (s.modify W dev reg f v d x reply)
      ((s.setCtx c q).modify W dev reg f v d y reply) := by
  unfold State.modify
  cases reply.unit W with
  | none => exact respond_sideBySide (State.setCtx_defaultTimeout s c q) h _
  | some r =>
    have hbus : y.cmdl.bus = x.cmdl.bus := by rw [h.cmdl hw]
    simp only [State.setCtx_inject, State.sendBack, hbus]
    exact .of_setCtx (State.setCtx_defaultTimeout s c q) (.sentBack h hw _ _)

theorem reportWrite_sideBySide (h : SameWork x y) (reply : WriteReply) :
    SideBySide s (s.setCtx c q) d x y (s.reportWrite d x reply)
      ((s.setCtx c q).reportWrite d y reply) :=
  respond_sideBySide (State.setCtx_defaultTimeout s c q) h _

end

/-! ### The rules side by side -/

/-- Two rules whose steps are the same, side by side, in the blocks `s` and `u`. -/
structure SameRule (s u : State) (ρ σ : CommandRule) : Prop where
  /-- The issue steps. -/
  issue : ∀ d x y bus, SameWork x y → SideBySide s u d x y (ρ.issue d x bus) (σ.issue d y bus)
  /-- The read-reply steps, if there are any. -/
  readReply : Option.Rel (fun f g => ∀ d x y reply, SameWork x y → x.phase ≠ .idle →
    SideBySide s u d x y (f d x reply) (g d y reply)) ρ.readReply σ.readReply
  /-- The write-reply steps, if there are any. -/
  writeReply : Option.Rel (fun f g => ∀ d x y reply, SameWork x y → x.phase ≠ .idle →
    SideBySide s u d x y (f d x reply) (g d y reply)) ρ.writeReply σ.writeReply

section
variable (s : State) (c : Nat) (q : Context)

theorem valueRule_same {f g : Nat → Word16} (hfg : ∀ d, f d = g d) :
    SameRule s (s.setCtx c q) (s.valueRule f) ((s.setCtx c q).valueRule g) where
  issue := fun d x y _ h => by
    simpa [State.valueRule, immediateRule, hfg] using
      respond_sideBySide (State.setCtx_defaultTimeout s c q) h (.value (g d))
  readReply := .none
  writeReply := .none

theorem illegalRule_same :
    SameRule s (s.setCtx c q) (immediateRule fun d x _ => s.respond d x .illegal)
      (immediateRule fun d x _ => (s.setCtx c q).respond d x .illegal) where
  issue := fun _ _ _ _ h => respond_sideBySide (State.setCtx_defaultTimeout s c q) h .illegal
  readReply := .none
  writeReply := .none

theorem setDefaultTimeoutRule_same (ms : Millis) :
    SameRule s (s.setCtx c q) (s.ruleOf (.setDefaultTimeout ms))
      ((s.setCtx c q).ruleOf (.setDefaultTimeout ms)) where
  issue := fun d _ _ _ h => by
    obtain ⟨dt, x', y', ha, hb, hs⟩ := respond_sideBySide (s := { s with defaultTimeout := ms })
      (u := { s.setCtx c q with defaultTimeout := ms }) (d := d) rfl h (.value 0)
    exact ⟨dt, x', y', ha, hb, hs⟩
  readReply := .none
  writeReply := .none

theorem unitReadRule_same {i : Instr} {W : Width} {dev : DevAddr} {reg : RegAddr}
    {timeout : Option Millis} {f g : Nat → Word16 → Word16} (hfg : ∀ d, f d = g d) :
    SameRule s (s.setCtx c q) (s.unitReadRule i W dev reg timeout f)
      ((s.setCtx c q).unitReadRule i W dev reg timeout g) where
  issue := fun d x y bus h => by
    simp only [State.unitReadRule, State.setCtx_effectiveTimeout, State.sendRead]
    exact .of_setCtx (State.setCtx_defaultTimeout s c q) (.sent h _ _ _)
  readReply := .some fun d _ _ reply h _ => reportRead_sideBySide (hfg d) h reply
  writeReply := .none

theorem rmwRule_same {i : Instr} {W : Width} {dev : DevAddr} {reg : RegAddr} {f : FieldSpec}
    {v : Nat} :
    SameRule s (s.setCtx c q) (s.rmwRule i W dev reg f v) ((s.setCtx c q).rmwRule i W dev reg f v) where
  issue := fun d x y bus h => by
    simp only [State.rmwRule, State.setCtx_effectiveTimeout, State.sendRead]
    exact .of_setCtx (State.setCtx_defaultTimeout s c q) (.sent h _ _ _)
  readReply := .some fun _ _ _ reply h hw => modify_sideBySide h hw reply
  writeReply := .some fun _ _ _ reply h _ => reportWrite_sideBySide h reply

theorem arrayReadRule_same {i : Instr} {W : Width} {dev : DevAddr} {reg : Option RegAddr} {n : Nat}
    {timeout : Option Millis} :
    SameRule s (s.setCtx c q) (s.arrayReadRule i W dev reg n timeout)
      ((s.setCtx c q).arrayReadRule i W dev reg n timeout) where
  issue := fun d x y bus h => by
    simp only [State.arrayReadRule, State.setCtx_effectiveTimeout, State.sendRead,
      State.setCtx_policy]
    split
    · exact respond_sideBySide (State.setCtx_defaultTimeout s c q) h _
    · exact .of_setCtx (State.setCtx_defaultTimeout s c q) (.sent h _ _ _)
  readReply := .some fun _ _ _ reply h _ => reportArray_sideBySide h reply
  writeReply := .none

theorem unitWriteRule_same {i : Instr} {dev : DevAddr} {reg : RegAddr} {bytes : List Byte} :
    SameRule s (s.setCtx c q) (s.unitWriteRule i dev reg bytes)
      ((s.setCtx c q).unitWriteRule i dev reg bytes) where
  issue := fun _ _ _ _ h => .of_setCtx (State.setCtx_defaultTimeout s c q) (.sent h _ _ _)
  readReply := .none
  writeReply := .some fun _ _ _ reply h _ => reportWrite_sideBySide h reply

theorem arrayWriteRule_same {i : Instr} {W : Width} {dev : DevAddr} {reg : RegAddr} {n : Nat} :
    SameRule s (s.setCtx c q) (s.arrayWriteRule i W dev reg n)
      ((s.setCtx c q).arrayWriteRule i W dev reg n) where
  issue := fun d x y bus h => by
    simp only [State.arrayWriteRule, State.sendWrite, State.setCtx_policy,
      Context.sendBytes_congr h.buf]
    split
    · exact respond_sideBySide (State.setCtx_defaultTimeout s c q) h _
    · exact .of_setCtx (State.setCtx_defaultTimeout s c q) (.sent h _ _ _)
  readReply := .none
  writeReply := .some fun _ _ _ reply h _ => reportWrite_sideBySide h reply

/-- The rule of every command is the same in two blocks that differ in one context. -/
theorem ruleOf_same (i : Instr) :
    SameRule s (s.setCtx c q) (s.ruleOf i) ((s.setCtx c q).ruleOf i) := by
  cases i with
  | readBit dev reg b t => exact unitReadRule_same s c q fun d => by simp only [State.setCtx_extract]
  | readBitW dev reg b t => exact unitReadRule_same s c q fun d => by simp only [State.setCtx_extract]
  | readBits dev reg f t => exact unitReadRule_same s c q fun d => by simp only [State.setCtx_extract]
  | readBitsW dev reg f t => exact unitReadRule_same s c q fun d => by simp only [State.setCtx_extract]
  | readByte dev reg t => exact unitReadRule_same s c q fun d => rfl
  | readWord dev reg t => exact unitReadRule_same s c q fun d => rfl
  | readBytes dev reg n t => exact arrayReadRule_same s c q
  | readWords dev reg n t => exact arrayReadRule_same s c q
  | readBytesNoRegAddress dev n t => exact arrayReadRule_same s c q
  | writeBit dev reg b v => exact rmwRule_same s c q
  | writeBitW dev reg b v => exact rmwRule_same s c q
  | writeBits dev reg f v => exact rmwRule_same s c q
  | writeBitsW dev reg f v => exact rmwRule_same s c q
  | writeByte dev reg v => exact unitWriteRule_same s c q
  | writeWord dev reg v => exact unitWriteRule_same s c q
  | writeBytes dev reg n => exact arrayWriteRule_same s c q
  | writeWords dev reg n => exact arrayWriteRule_same s c q
  | extractField8 rv f => exact valueRule_same s c q fun d => by rw [State.setCtx_extract]
  | extractField16 rv f => exact valueRule_same s c q fun d => by rw [State.setCtx_extract]
  | injectField8 rv f v => exact valueRule_same s c q fun d => by rw [State.setCtx_inject]
  | injectField16 rv f v => exact valueRule_same s c q fun d => by rw [State.setCtx_inject]
  | setDefaultTimeout ms => exact setDefaultTimeoutRule_same s c q ms
  | getDefaultTimeout => exact valueRule_same s c q fun d => (State.setCtx_defaultTimeout s c q).symm

end

/-! ### Two blocks that differ in one context only -/

/-- `a` and `b` differ at most in context `c`, where they do the same work; the contexts were `k` and
`q`.  The host's read data are the same if `P`. -/
structure DifferOnly (P : Prop) (c : Nat) (k q : Context) (a b : State) : Prop where
  /-- Context `c`. -/
  here : ∃ k' q', a.ctx? c = some k' ∧ b.ctx? c = some q' ∧ SameWork k' q' ∧
    (k'.resp = q'.resp ∨ k'.resp = k.resp ∧ q'.resp = q.resp)
  /-- Every other context. -/
  others : ∀ d, d ≠ c → a.ctx? d = b.ctx? d
  /-- `DEFAULT_TIMEOUT`. -/
  defaultTimeout : a.defaultTimeout = b.defaultTimeout
  /-- The abandoned requests. -/
  abandoned : a.abandoned = b.abandoned
  /-- The moves to come. -/
  inputs : a.inputs = b.inputs
  /-- The draw counter. -/
  tick : a.tick = b.tick
  /-- The policy. -/
  policy : a.policy = b.policy
  /-- The host's read data. -/
  hostData : P → a.hostData = b.hostData

theorem DifferOnly.advance {P : Prop} {c : Nat} {k q : Context} {a b : State}
    (h : DifferOnly P c k q a b) : DifferOnly P c k q a.advance b.advance where
  here := by simpa using h.here
  others := by simpa using h.others
  defaultTimeout := h.defaultTimeout
  abandoned := h.abandoned
  inputs := congrArg List.tail h.inputs
  tick := congrArg (· + 1) h.tick
  policy := h.policy
  hostData := h.hostData

/-- A relation between outcomes may be weakened. -/
theorem SameOutcome.mono {R Q : State → State → Prop} (hRQ : ∀ a b, R a b → Q a b) {x y : Result}
    (h : SameOutcome R x y) : SameOutcome Q x y := by
  cases x with
  | fault e => nomatch e
  | refused e => cases y <;> exact h
  | next a =>
    cases y with
    | next b => exact hRQ a b h
    | fault e => nomatch e
    | refused e => exact h

section
variable {P : Prop} {s : State} {c : Nat} {k q : Context}

/-- The blocks differ in context `c` only to begin with. -/
theorem differOnly_setCtx (hc : s.ctx? c = some k) (hw : SameWork k q) :
    DifferOnly P c k q s (s.setCtx c q) where
  here := ⟨k, q, hc, State.ctx?_setCtx_self q hc, hw, .inr ⟨rfl, rfl⟩⟩
  others := fun _ hd => (State.ctx?_setCtx_ne s q hd).symm
  defaultTimeout := (State.setCtx_defaultTimeout s c q).symm
  abandoned := (State.setCtx_abandoned s c q).symm
  inputs := (State.setCtx_inputs s c q).symm
  tick := (State.setCtx_tick s c q).symm
  policy := (State.setCtx_policy s c q).symm
  hostData := fun _ => (State.setCtx_hostData s c q).symm

/-- Each context of one block stands beside one of the other that does the same work, and is the same
unless it is context `c`. -/
theorem ctx?_beside (hc : s.ctx? c = some k) (hw : SameWork k q) (d : Nat) :
    (s.ctx? d = none ∧ (s.setCtx c q).ctx? d = none) ∨
      ∃ x y, s.ctx? d = some x ∧ (s.setCtx c q).ctx? d = some y ∧ SameWork x y ∧ (d ≠ c → x = y) := by
  by_cases hd : d = c
  · subst hd
    exact .inr ⟨k, q, hc, State.ctx?_setCtx_self q hc, hw, fun hn => absurd rfl hn⟩
  · rw [State.ctx?_setCtx_ne s q hd]
    cases hx : s.ctx? d with
    | none => exact .inl ⟨rfl, rfl⟩
    | some x => exact .inr ⟨x, x, rfl, rfl, .refl x, fun _ => rfl⟩

/-- After the same step of their contexts `d` the blocks still differ in context `c` only. -/
theorem SideBySide.differOnly {d : Nat} {x y : Context} {a b : State} (hc : s.ctx? c = some k)
    (hw : SameWork k q) (hx : s.ctx? d = some x) (hy : (s.setCtx c q).ctx? d = some y)
    (hxy : d ≠ c → x = y) (h : SideBySide s (s.setCtx c q) d x y a b) : DifferOnly P c k q a b := by
  obtain ⟨dt, x', y', rfl, rfl, hs⟩ := h
  have ha := onlyContext_setCtx x' ((State.ctx?_with_defaultTimeout s dt d).trans hx)
  have hb := onlyContext_setCtx y' ((State.ctx?_with_defaultTimeout (s.setCtx c q) dt d).trans hy)
  have hbase := differOnly_setCtx (P := P) hc hw
  refine
    { here := ?_
      others := fun e he => ?_
      defaultTimeout := ha.defaultTimeout.trans hb.defaultTimeout.symm
      abandoned := (ha.abandoned.trans hbase.abandoned).trans hb.abandoned.symm
      inputs := (ha.inputs.trans hbase.inputs).trans hb.inputs.symm
      tick := (ha.tick.trans hbase.tick).trans hb.tick.symm
      policy := (ha.policy.trans hbase.policy).trans hb.policy.symm
      hostData := fun hP => (ha.hostData.trans (hbase.hostData hP)).trans hb.hostData.symm }
  · by_cases hdc : d = c
    · subst hdc
      obtain rfl : x = k := Option.some.inj (hx.symm.trans hc)
      obtain rfl : y = q := Option.some.inj (hy.symm.trans (State.ctx?_setCtx_self q hc))
      exact ⟨x', y', ha.here, hb.here, hs.work, hs.resp⟩
    · rw [ha.others c (Ne.symm hdc), hb.others c (Ne.symm hdc), State.ctx?_with_defaultTimeout,
        State.ctx?_with_defaultTimeout]
      exact hbase.here
  · by_cases hed : e = d
    · subst hed
      rw [ha.here, hb.here, hs.eq (hxy he)]
    · rw [ha.others e hed, hb.others e hed, State.ctx?_with_defaultTimeout,
        State.ctx?_with_defaultTimeout]
      exact hbase.others e he

/-! ### Moves side by side -/

/-- Two same rules, run in blocks that differ in one context, have the same outcome. -/
theorem run_same {ρ σ : CommandRule} (hc : s.ctx? c = some k) (hw : SameWork k q)
    (h : SameRule s (s.setCtx c q) ρ σ) :
    SameOutcome (DifferOnly P c k q) (s.run ρ) ((s.setCtx c q).run σ) := by
  unfold State.run
  rw [State.setCtx_inputs]
  cases s.inputs.head? with
  | none => rfl
  | some i =>
    cases i with
    | command d bus w =>
      rcases ctx?_beside hc hw d with ⟨hx, hy⟩ | ⟨x, y, hx, hy, hxy, heq⟩
      · simp only [hx, hy]
        rfl
      · simp only [hx, hy, ← hxy.phase]
        cases x.phase with
        | idle => exact (h.issue d x y bus hxy).differOnly hc hw hx hy heq
        | rdWait => rfl
        | wrWait => rfl
    | readReply d reply =>
      rcases ctx?_beside hc hw d with ⟨hx, hy⟩ | ⟨x, y, hx, hy, hxy, heq⟩
      · simp only [hx, hy]
        rfl
      · simp only [hx, hy, ← hxy.phase, ← hxy.outstanding]
        cases hp : x.phase with
        | idle => rfl
        | wrWait => rfl
        | rdWait =>
          have hbusy : x.phase ≠ .idle := by rw [hp]; exact nofun
          cases x.outstanding with
          | none => rfl
          | some r =>
            cases r with
            | write => rfl
            | read bus dev reg len t =>
              have hrel := h.readReply
              generalize ρ.readReply = f, σ.readReply = g at hrel ⊢
              cases hrel with
              | none => rfl
              | some hfg =>
                cases hbr : reply.breach len t with
                | none =>
                  simp only [hbr]
                  exact (hfg d x y reply hxy hbusy).differOnly hc hw hx hy heq
                | some e =>
                  simp only [hbr]
                  rfl
    | writeReply d reply =>
      rcases ctx?_beside hc hw d with ⟨hx, hy⟩ | ⟨x, y, hx, hy, hxy, heq⟩
      · simp only [hx, hy]
        rfl
      · simp only [hx, hy, ← hxy.phase, ← hxy.outstanding]
        cases hp : x.phase with
        | idle => rfl
        | rdWait => rfl
        | wrWait =>
          have hbusy : x.phase ≠ .idle := by rw [hp]; exact nofun
          cases x.outstanding with
          | none => rfl
          | some r =>
            cases r with
            | read => rfl
            | write bus dev reg bytes =>
              have hrel := h.writeReply
              generalize ρ.writeReply = f, σ.writeReply = g at hrel ⊢
              cases hrel with
              | none => rfl
              | some hfg => exact (hfg d x y reply hxy hbusy).differOnly hc hw hx hy heq
    | hostWriteBuf d j v => rfl
    | hostReadBuf d j => rfl
    | hostReadResp d => rfl
    | reset => rfl
    | abandonedReply j => rfl

/-- The reply step of the latched command has the same outcome in both blocks. -/
theorem stepReply_same (hc : s.ctx? c = some k) (hw : SameWork k q) (d : Nat) :
    SameOutcome (DifferOnly P c k q) (stepReply d s) (stepReply d (s.setCtx c q)) := by
  rcases ctx?_beside hc hw d with ⟨hx, hy⟩ | ⟨x, y, hx, hy, hxy, -⟩
  · simp only [stepReply, hx, hy]
    rfl
  · by_cases hp : x.phase = .idle
    · simp only [stepReply, hx, hy, ← hxy.phase, hp]
      rfl
    · have hpy : y.phase ≠ .idle := by rwa [← hxy.phase]
      rw [stepReply_of_waiting hx hp, stepReply_of_waiting hy hpy, ← hxy.cmdl hp, exec_eq_run,
        exec_eq_run]
      exact run_same hc hw (ruleOf_same s c q _)

/-- The issue step has the same outcome in both blocks. -/
theorem stepCommand_same (hc : s.ctx? c = some k) (hw : SameWork k q) (w : CommandWord) :
    SameOutcome (DifferOnly P c k q) (stepCommand w s) (stepCommand w (s.setCtx c q)) := by
  unfold stepCommand
  cases decode w with
  | ok i =>
    simp only [exec_eq_run]
    exact run_same hc hw (ruleOf_same s c q i)
  | error e => exact run_same hc hw (illegalRule_same s c q)

theorem hostWriteBuf_same (hc : s.ctx? c = some k) (hw : SameWork k q) (d : Nat) (j : BitVec 8)
    (v : Word16) :
    SameOutcome (DifferOnly P c k q) (s.hostWriteBuf d j v) ((s.setCtx c q).hostWriteBuf d j v) := by
  unfold State.hostWriteBuf
  rcases ctx?_beside hc hw d with ⟨hx, hy⟩ | ⟨x, y, hx, hy, hxy, heq⟩
  · simp only [hx, hy]
    rfl
  · by_cases hp : x.phase = .idle
    · have hpy : y.phase = .idle := by rwa [← hxy.phase]
      simp only [hx, hy, if_pos hp, if_pos hpy, ← hxy.buf]
      exact (SideBySide.of_setCtx (State.setCtx_defaultTimeout s c q)
        (.hostWrote hxy _)).differOnly hc hw hx hy heq
    · have hpy : y.phase ≠ .idle := by rwa [← hxy.phase]
      simp only [hx, hy, if_neg hp, if_neg hpy]
      rfl

/-- New read data, the same in both blocks if `P`, are no other difference. -/
theorem DifferOnly.withHostData {a b : State} {x y : Option (BitVec 32)}
    (h : DifferOnly P c k q a b) (hxy : P → x = y) :
    DifferOnly P c k q { a with hostData := x } { b with hostData := y } where
  here := by
    rw [State.ctx?_with_hostData, State.ctx?_with_hostData]
    exact h.here
  others := fun d hd => by
    rw [State.ctx?_with_hostData, State.ctx?_with_hostData]
    exact h.others d hd
  defaultTimeout := h.defaultTimeout
  abandoned := h.abandoned
  inputs := h.inputs
  tick := h.tick
  policy := h.policy
  hostData := hxy

theorem hostReadBuf_same (hc : s.ctx? c = some k) (hw : SameWork k q) (d : Nat) (j : BitVec 8) :
    SameOutcome (DifferOnly P c k q) (s.hostReadBuf d j) ((s.setCtx c q).hostReadBuf d j) := by
  unfold State.hostReadBuf
  rcases ctx?_beside hc hw d with ⟨hx, hy⟩ | ⟨x, y, hx, hy, hxy, -⟩
  · simp only [hx, hy]
    rfl
  · simp only [hx, hy, ← hxy.phase, ← hxy.buf]
    split
    · exact (differOnly_setCtx hc hw).withHostData fun _ => rfl
    · rfl

/-- Reading `RESP` shows the same in both blocks unless it is that of context `c`. -/
theorem hostReadResp_same (hc : s.ctx? c = some k) (hw : SameWork k q) (d : Nat) (hP : P → d ≠ c) :
    SameOutcome (DifferOnly P c k q) (s.hostReadResp d) ((s.setCtx c q).hostReadResp d) := by
  unfold State.hostReadResp
  rcases ctx?_beside hc hw d with ⟨hx, hy⟩ | ⟨x, y, hx, hy, -, heq⟩
  · simp only [hx, hy]
    rfl
  · simp only [hx, hy]
    exact (differOnly_setCtx hc hw).withHostData fun h => by rw [heq (hP h)]

/-- The requests outstanding in a block do not change when a context is replaced by one with the same
request. -/
theorem outstanding_setCtx (hc : s.ctx? c = some k) (ho : k.outstanding = q.outstanding) :
    (s.setCtx c q).contexts.filterMap Context.outstanding =
      s.contexts.filterMap Context.outstanding := by
  have hmap : (s.setCtx c q).contexts.map Context.outstanding =
      s.contexts.map Context.outstanding := by
    cases c with
    | zero =>
      cases hc
      simp [State.setCtx, State.contexts, ho]
    | succ j =>
      obtain ⟨hj, hk⟩ := List.getElem?_eq_some_iff.1 hc
      have hset : (s.more.set j q).map Context.outstanding = s.more.map Context.outstanding := by
        have hj' : j < (s.more.map Context.outstanding).length := by rwa [List.length_map]
        rw [List.map_set, ← ho, ← hk, ← List.getElem_map Context.outstanding (h := hj'),
          List.set_getElem_self]
      simp only [State.setCtx, State.contexts, List.map_cons, hset]
  simpa only [List.filterMap_map, Function.id_comp] using congrArg (List.filterMap id) hmap

/-- A reset leaves no difference at all. -/
theorem resetEvent_setCtx (hc : s.ctx? c = some k) (hw : SameWork k q) :
    (s.setCtx c q).resetEvent = s.resetEvent := by
  unfold State.resetEvent
  rw [outstanding_setCtx hc hw.outstanding]
  simp only [State.setCtx_abandoned, State.setCtx_policy, State.setCtx_inputs, State.setCtx_tick,
    State.setCtx_more_length]

/-- A reset keeps the number of contexts. -/
theorem resetEvent_ctx?_of_some (hc : s.ctx? c = some k) :
    s.resetEvent.ctx? c = some (Context.afterReset s.tick c) := by
  rw [ctx?_of_afterReset (n := s.more.length) rfl rfl, if_pos]
  cases c with
  | zero => omega
  | succ j =>
    obtain ⟨hj, -⟩ := List.getElem?_eq_some_iff.1 hc
    omega

theorem resetEvent_same (hc : s.ctx? c = some k) (hw : SameWork k q) :
    DifferOnly P c k q s.resetEvent (s.setCtx c q).resetEvent := by
  rw [resetEvent_setCtx hc hw]
  have h := resetEvent_ctx?_of_some hc
  exact ⟨⟨_, _, h, h, .refl _, .inl rfl⟩, fun _ _ => rfl, rfl, rfl, rfl, rfl, rfl, fun _ => rfl⟩

theorem discardReply_same (hc : s.ctx? c = some k) (hw : SameWork k q) (j : Nat) :
    SameOutcome (DifferOnly P c k q) (s.discardReply j) ((s.setCtx c q).discardReply j) := by
  have h := differOnly_setCtx (P := P) hc hw
  unfold State.discardReply
  rw [State.setCtx_abandoned]
  split
  · exact
      { here := by
          rw [State.ctx?_with_abandoned, State.ctx?_with_abandoned]
          exact h.here
        others := fun d hd => by
          rw [State.ctx?_with_abandoned, State.ctx?_with_abandoned]
          exact h.others d hd
        defaultTimeout := h.defaultTimeout
        abandoned := rfl
        inputs := h.inputs
        tick := h.tick
        policy := h.policy
        hostData := h.hostData }
  · rfl

/-- Every move has the same outcome in both blocks. -/
theorem step_same (hc : s.ctx? c = some k) (hw : SameWork k q)
    (hP : P → ∀ rest, s.inputs ≠ .hostReadResp c :: rest) :
    SameOutcome (DifferOnly P c k q) (step s) (step (s.setCtx c q)) := by
  have hfinish {x y : Result} (h : SameOutcome (DifferOnly P c k q) x y) :
      SameOutcome (DifferOnly P c k q) (finish x) (finish y) :=
    sameOutcome_finish (h.mono fun _ _ hab => hab.advance)
  unfold step
  rw [State.setCtx_inputs]
  cases hin : s.inputs with
  | nil => exact differOnly_setCtx hc hw
  | cons i rest =>
    cases i with
    | command d bus w => exact hfinish (stepCommand_same hc hw w)
    | readReply d reply => exact hfinish (stepReply_same hc hw d)
    | writeReply d reply => exact hfinish (stepReply_same hc hw d)
    | hostWriteBuf d j v => exact hfinish (hostWriteBuf_same hc hw d j v)
    | hostReadBuf d j => exact hfinish (hostReadBuf_same hc hw d j)
    | hostReadResp d =>
      refine hfinish (hostReadResp_same hc hw d fun h hdc => ?_)
      exact hP h rest (hdc ▸ hin)
    | reset => exact hfinish (resetEvent_same hc hw)
    | abandonedReply j => exact hfinish (discardReply_same hc hw j)

end

/-- Settles O47: each kind of move is the same step in both blocks. -/
theorem earlierOutcomesDoNotMatter : Obligations.EarlierOutcomesDoNotMatter := fun _ _ _ _ hc hw =>
  (step_same hc hw id).mono fun _ _ h =>
    ⟨h.here, h.others, h.defaultTimeout, h.abandoned, h.inputs, h.tick, h.policy, h.hostData⟩

end Sys2Proof.Machine
end

section
/-! PROOFS. Replies the transport may not give (20_memory R57, R59): a reply nobody awaits, and a reply
that breaks a constraint on an awaited one, are refused. -/

namespace Sys2Proof.Machine

/-! ### A reply that is not awaited -/

/-- No rule takes a read reply outside `RD_WAIT`. -/
theorem run_readReply_notAwaited {s : State} {c : Nat} {k : Context} {reply : ReadReply}
    {rest : List Input} (rule : CommandRule) (hin : s.inputs = .readReply c reply :: rest)
    (hc : s.ctx? c = some k) (hw : k.phase ≠ .rdWait) : s.run rule = .refused .replyNotAwaited := by
  simp only [State.run, hin, hc, List.head?_cons]
  split
  · rename_i hp _ _
    exact absurd hp hw
  · rfl

/-- No rule takes a write reply outside `WR_WAIT`. -/
theorem run_writeReply_notAwaited {s : State} {c : Nat} {k : Context} {reply : WriteReply}
    {rest : List Input} (rule : CommandRule) (hin : s.inputs = .writeReply c reply :: rest)
    (hc : s.ctx? c = some k) (hw : k.phase ≠ .wrWait) : s.run rule = .refused .replyNotAwaited := by
  simp only [State.run, hin, hc, List.head?_cons]
  split
  · rename_i hp _ _
    exact absurd hp hw
  · rfl

/-- A reply that no rule takes is refused, whether or not a command is in progress. -/
theorem stepReply_notAwaited {s : State} {c : Nat} {k : Context} (hc : s.ctx? c = some k)
    (hrun : ∀ rule, s.run rule = .refused .replyNotAwaited) :
    stepReply c s = .refused .replyNotAwaited := by
  by_cases hp : k.phase = .idle
  · simp only [stepReply, hc, hp]
  · rw [stepReply_of_waiting hc hp, exec_eq_run, hrun]

theorem step_readReply_notAwaited {s : State} {c : Nat} {k : Context} {reply : ReadReply}
    {rest : List Input} (hin : s.inputs = .readReply c reply :: rest) (hc : s.ctx? c = some k)
    (hw : k.phase ≠ .rdWait) : step s = .refused .replyNotAwaited := by
  have hreply := stepReply_notAwaited hc fun rule => run_readReply_notAwaited rule hin hc hw
  simp only [step, hin, hreply, finish]

theorem step_writeReply_notAwaited {s : State} {c : Nat} {k : Context} {reply : WriteReply}
    {rest : List Input} (hin : s.inputs = .writeReply c reply :: rest) (hc : s.ctx? c = some k)
    (hw : k.phase ≠ .wrWait) : step s = .refused .replyNotAwaited := by
  have hreply := stepReply_notAwaited hc fun rule => run_writeReply_notAwaited rule hin hc hw
  simp only [step, hin, hreply, finish]

/-! ### An awaited reply that breaks a constraint -/

/-- More bytes than were asked for break the first constraint. -/
theorem breach_of_tooManyBytes {len : Nat} {b : List Byte} (t : Millis) (h : len < b.length) :
    (ReadReply.bytes b).breach len t = some .tooManyBytes :=
  if_pos h

/-- A timeout of a request without a limit breaks the second one. -/
theorem breach_of_noLimit (len : Nat) {t : Millis} (h : t = 0#16) :
    ReadReply.timeout.breach len t = some .timeoutWithoutLimit :=
  if_pos h

/-- In a context of a run, the refusal of a reply to the outstanding read is the constraint that the
reply breaks. -/
theorem step_readReply_of_breach {s : State} {c : Nat} {k : Context} {reply : ReadReply}
    {rest : List Input} {bus : BusId} {dev : DevAddr} {reg : Option RegAddr} {len : Nat} {t : Millis}
    {e : Refusal} (hin : s.inputs = .readReply c reply :: rest) (hc : s.ctx? c = some k)
    (hk : k.coherent) (hw : k.phase = .rdWait) (ho : k.outstanding = some (.read bus dev reg len t))
    (hb : reply.breach len t = some e) : step s = .refused e := by
  obtain ⟨f, hf⟩ := readReply_isSome_of_coherent (s := s) hk hw
  have hrun : s.run (s.ruleOf k.cmdl.cmd) = .refused e := by
    simp only [State.run, hin, hc, List.head?_cons, hw, ho, hf, hb]
  have hbusy : k.phase ≠ .idle := by rw [hw]; exact nofun
  simp only [step, hin, stepReply_of_waiting hc hbusy, exec_eq_run, hrun, finish]

/-- Settles O50. -/
theorem transportKeepsItsConstraints : Obligations.TransportKeepsItsConstraints := by
  refine fun s c k rest hc => ⟨fun reply hin => ⟨step_readReply_notAwaited hin hc, ?_⟩,
    fun reply hin => step_writeReply_notAwaited hin hc⟩
  intro hinv bus dev reg len t hw ho
  have hrefuse {e : Refusal} (hb : reply.breach len t = some e) : step s = .refused e :=
    step_readReply_of_breach hin hc (hinv c k hc).coherent hw ho hb
  constructor
  · rintro b rfl hlen
    exact hrefuse (breach_of_tooManyBytes t hlen)
  · rintro rfl ht
    exact hrefuse (breach_of_noLimit len ht)

end Sys2Proof.Machine
end

section
/-! PROOFS. The decoder, said once: a word is legal for a row when it has the row's fixed bits and no
`TMO` without `TOV`, and a word decodes exactly when the row of its opcode finds it legal
(30_encoding R93, R95); no word is legal for two rows (R94). -/

namespace Sys2Proof

/-! ### When a word decodes -/

/-- What the decoder asks of a word once its opcode has named the row (30_encoding R93 (2), (3)). -/
structure OpcodeRow.Legal (row : OpcodeRow) (w : CommandWord) : Prop where
  /-- The fixed bits of the row are those of the word. -/
  fixed : w &&& row.mask = row.pattern
  /-- `TMO` is 0 where the format has a `TOV` and it is 0. -/
  timeout : row.format.hasTov = true → fieldTov w = 0#1 → fieldTmo w = 0#16

/-- Why the decoder answers what it answers, for an opcode that names a row. -/
theorem decode_of_row {w : CommandWord} {row : OpcodeRow} (hrow : rowOf (fieldOp w) = some row) :
    (row.Legal w ∧ decode w = .ok (row.operands w)) ∨ (¬ row.Legal w ∧ ∃ e, decode w = .error e) := by
  simp only [decode, hrow]
  split
  · rename_i hfixed
    split
    · rename_i htov
      exact .inr ⟨fun h => htov.2.2 (h.timeout htov.1 htov.2.1), _, rfl⟩
    · rename_i htov
      exact .inl ⟨⟨hfixed, fun hf h0 => by_contra fun hne => htov ⟨hf, h0, hne⟩⟩, rfl⟩
  · rename_i hfixed
    exact .inr ⟨fun h => hfixed h.fixed, _, rfl⟩

theorem decode_of_noRow {w : CommandWord} (hrow : rowOf (fieldOp w) = none) :
    decode w = .error (.unknownOpcode (fieldOp w)) := by
  simp only [decode, hrow]

/-- A word decodes exactly when the row of its opcode finds it legal. -/
theorem decode_eq_ok_iff {w : CommandWord} {i : Instr} :
    decode w = .ok i ↔ ∃ row, rowOf (fieldOp w) = some row ∧ row.Legal w ∧ row.operands w = i := by
  cases hrow : rowOf (fieldOp w) with
  | none => simp [decode_of_noRow hrow]
  | some row => rcases decode_of_row hrow with ⟨hl, hd⟩ | ⟨hl, e, hd⟩ <;> simp [hd, hl]

/-- A word is refused exactly when no row finds it legal. -/
theorem decode_eq_error_iff {w : CommandWord} :
    (∃ e, decode w = .error e) ↔ ∀ row, rowOf (fieldOp w) = some row → ¬ row.Legal w := by
  cases hrow : rowOf (fieldOp w) with
  | none => simp [decode_of_noRow hrow]
  | some row => rcases decode_of_row hrow with ⟨hl, hd⟩ | ⟨hl, e, hd⟩ <;> simp [hd, hl]

/-- A word is not legal for a row exactly when it breaks one of the two conditions. -/
theorem OpcodeRow.not_legal_iff {row : OpcodeRow} {w : CommandWord} :
    ¬ row.Legal w ↔ w &&& row.mask ≠ row.pattern ∨
      (row.format.hasTov = true ∧ fieldTov w = 0#1 ∧ fieldTmo w ≠ 0#16) := by
  constructor
  · intro h
    by_cases hfixed : w &&& row.mask = row.pattern
    · exact .inr (by_contra fun htov => h ⟨hfixed, by simpa using htov⟩)
    · exact .inl hfixed
  · rintro (hfixed | ⟨hf, h0, hne⟩) h
    · exact hfixed h.fixed
    · exact hne (h.timeout hf h0)

theorem illegalWord_iff {w : CommandWord} :
    Machine.illegalWord w ↔ ∀ row, rowOf (fieldOp w) = some row → ¬ row.Legal w := by
  unfold Machine.illegalWord
  cases hrow : rowOf (fieldOp w) with
  | none => simp
  | some row => simp [OpcodeRow.not_legal_iff]

/-! ### The opcode map -/

/-- Bits that a mask keeps are those of the pattern. -/
theorem extract_of_mask {w m p : CommandWord} (h : w &&& m = p) {start len : Nat} {x : BitVec len}
    (hm : m.extractLsb' start len = BitVec.allOnes len) (hp : p.extractLsb' start len = x) :
    w.extractLsb' start len = x := by
  rw [← hp, ← h, BitVec.extractLsb'_and, hm, BitVec.and_allOnes]

/-- Every row fixes all bits of `OP`, to its opcode. -/
theorem opcodeRows_fix_op : ∀ row ∈ opcodeRows,
    row.mask.extractLsb' 56 8 = BitVec.allOnes 8 ∧ row.pattern.extractLsb' 56 8 = row.opcode := by
  decide

/-- No opcode stands in two rows. -/
theorem opcodeRows_opcodes_nodup : opcodeRows.Pairwise fun r q => r.opcode ≠ q.opcode := by
  decide

/-- A word with the fixed bits of a row has the row's opcode. -/
theorem fieldOp_of_fixed {row : OpcodeRow} {w : CommandWord} (hrow : row ∈ opcodeRows)
    (h : w &&& row.mask = row.pattern) : fieldOp w = row.opcode := by
  obtain ⟨hm, hp⟩ := opcodeRows_fix_op row hrow
  exact extract_of_mask h hm hp

/-- All commands have opcodes below 64. -/
theorem rowOf_high (n : Nat) (hn : n < 192) : (rowOf (BitVec.ofNat 8 (64 + n))).isNone = true := by
  have hlow : ∀ row ∈ opcodeRows, row.opcode.toNat < 64 := by decide
  rw [Option.isNone_iff_eq_none, rowOf, List.find?_eq_none]
  intro row hrow heq
  have hop := hlow row hrow
  rw [beq_iff_eq.1 heq, BitVec.toNat_ofNat] at hop
  omega

/-- The 23 rows leave 41 of the opcodes below 64 and all the others without a command. -/
theorem unnamed_opcodes_count :
    ((List.range 256).filter fun n => (rowOf (BitVec.ofNat 8 n)).isNone).length = 233 := by
  have hhigh : ((List.range 192).map (64 + ·)).filter (fun n => (rowOf (BitVec.ofNat 8 n)).isNone) =
      (List.range 192).map (64 + ·) := by
    rw [List.filter_eq_self, List.forall_mem_map]
    exact fun n hn => rowOf_high n (List.mem_range.1 hn)
  have hlow : ((List.range 64).filter fun n => (rowOf (BitVec.ofNat 8 n)).isNone).length = 41 := by
    decide
  rw [List.range_add (n := 64) (m := 192), List.filter_append, List.length_append, hlow, hhigh,
    List.length_map, List.length_range]

/-! ### The statements -/

/-- Settles O3: both sides say that no row finds the word legal. -/
theorem illegalWordsAreTheReservedOnes : Obligations.IllegalWordsAreTheReservedOnes :=
  ⟨fun _ => decode_eq_error_iff.trans illegalWord_iff.symm, unnamed_opcodes_count⟩

/-- Settles O4: the fixed bits of two rows would give the word two opcodes. -/
theorem opcodeRowsNeverOverlap : Obligations.OpcodeRowsNeverOverlap :=
  opcodeRows_opcodes_nodup.imp_of_mem fun hr hq hne _ ⟨hwr, hwq⟩ =>
    hne ((fieldOp_of_fixed hr hwr).symm.trans (fieldOp_of_fixed hq hwq))

end Sys2Proof
end

section
/-! PROOFS. A legal word is the encoding of the command it decodes to (30_encoding R91, R92, R93). -/

namespace Sys2Proof

/-! ### Encoding the operands of a word gives its fields back -/

/-- Bits under zeros only are those bits, widened. -/
theorem eq_setWidth_of_upper_zero {w : CommandWord} (start len rest : Nat)
    (h : w.extractLsb' (start + len) rest = 0#rest) :
    w.extractLsb' start (rest + len) = (w.extractLsb' start len).setWidth (rest + len) := by
  rw [← BitVec.extractLsb'_append_extractLsb'_eq_extractLsb' rfl, h]
  apply BitVec.eq_of_toNat_eq
  rw [BitVec.toNat_setWidth_of_le (Nat.le_add_left len rest), BitVec.toNat_append, BitVec.toNat_ofNat,
    Nat.zero_mod, Nat.zero_shiftLeft, Nat.zero_or]

/-- A value of one bit in `VAL`. -/
theorem fieldVal_eq_fieldVal1 {w : CommandWord} (h : w.extractLsb' 17 15 = 0#15) :
    fieldVal w = (fieldVal1 w).setWidth 16 :=
  eq_setWidth_of_upper_zero 16 1 15 h

/-- A byte in `VAL`. -/
theorem fieldVal_eq_fieldVal8 {w : CommandWord} (h : w.extractLsb' 24 8 = 0#8) :
    fieldVal w = (fieldVal8 w).setWidth 16 :=
  eq_setWidth_of_upper_zero 16 8 8 h

/-- A byte in `RV`. -/
theorem fieldTmo_eq_fieldRv8 {w : CommandWord} (h : w.extractLsb' 8 8 = 0#8) :
    fieldTmo w = (fieldRv8 w).setWidth 16 :=
  eq_setWidth_of_upper_zero 0 8 8 h

/-- `BS` and `LM1` make up bits 39:32. -/
theorem fieldCnt_eq_append (w : CommandWord) : fieldCnt w = fieldBs w ++ fieldLm1 w :=
  (BitVec.extractLsb'_append_extractLsb'_eq_extractLsb' (x := w) (start₁ := 32) (len₁ := 4)
    (len₂ := 4) rfl).symm

theorem fieldCnt_eq_encodeCount (w : CommandWord) : fieldCnt w = encodeCount (operandCount w) := by
  simp [encodeCount, operandCount]

theorem fieldCnt_eq_encodeSpec (w : CommandWord) : fieldCnt w = encodeSpec (operandSpec w) := by
  simp [encodeSpec, operandSpec, fieldCnt_eq_append]

/-- A single-bit command has no use for `LM1`. -/
theorem fieldCnt_eq_encodeBitNum {w : CommandWord} (h : fieldLm1 w = 0#4) :
    fieldCnt w = encodeBitNum (operandBitNum w) := by
  simp [encodeBitNum, operandBitNum, fieldCnt_eq_append, h]

theorem fieldTov_eq_encodeTov (w : CommandWord) : fieldTov w = encodeTov (operandTimeout w) := by
  unfold operandTimeout
  split
  · assumption
  · rename_i h
    exact (BitVec.eq_zero_or_eq_one _).resolve_right h

theorem fieldTmo_eq_encodeTmo {w : CommandWord} (h : fieldTov w = 0#1 → fieldTmo w = 0#16) :
    fieldTmo w = encodeTmo (operandTimeout w) := by
  unfold operandTimeout
  split
  · rfl
  · rename_i h1
    exact h ((BitVec.eq_zero_or_eq_one _).resolve_right h1)

/-! ### Encoding the command of a legal word -/

/-- The bits that a row fixes in its words. -/
theorem OpcodeRow.Legal.bits {row : OpcodeRow} {w : CommandWord} (h : row.Legal w) {start len : Nat}
    {x : BitVec len} (hm : row.mask.extractLsb' start len = BitVec.allOnes len)
    (hp : row.pattern.extractLsb' start len = x) : w.extractLsb' start len = x :=
  extract_of_mask h.fixed hm hp

/-- A word is that of its own fields. -/
theorem WordFields.word_eq_of_ofWord {f : WordFields} {w : CommandWord} (h : .ofWord w = f) :
    f.word = w :=
  h ▸ WordFields.word_ofWord w

/-- The word of a read command: `OP` and `VAL` are fixed. -/
theorem read_word {w : CommandWord} {op : BitVec 8} {reg : RegAddr} {mid : BitVec 8}
    (hop : fieldOp w = op) (hval : fieldVal w = 0#16) (htmo : fieldTov w = 0#1 → fieldTmo w = 0#16)
    (hreg : fieldReg w = reg) (hmid : fieldCnt w = mid) :
    WordFields.word { op := op, tov := encodeTov (operandTimeout w), dev := fieldDev w, reg := reg
                      mid := mid, tmo := encodeTmo (operandTimeout w) } = w :=
  WordFields.word_eq_of_ofWord (by
    simp [WordFields.ofWord, hop, hval, hreg, hmid, ← fieldTov_eq_encodeTov,
      ← fieldTmo_eq_encodeTmo htmo])

/-- The word of a write command: `OP`, `TOV` and `TMO` are fixed. -/
theorem write_word {w : CommandWord} {op : BitVec 8} {mid : BitVec 8} {val : Word16}
    (hop : fieldOp w = op) (htov : fieldTov w = 0#1) (htmo : fieldTmo w = 0#16)
    (hmid : fieldCnt w = mid) (hval : fieldVal w = val) :
    WordFields.word { op := op, dev := fieldDev w, reg := fieldReg w, mid := mid, val := val } = w :=
  WordFields.word_eq_of_ofWord (by simp [WordFields.ofWord, hop, htov, htmo, hmid, hval])

/-- The word of a codec or configuration command: `OP`, `TOV`, `DEV` and `REG` are fixed. -/
theorem codec_word {w : CommandWord} {op : BitVec 8} {mid : BitVec 8} {val tmo : Word16}
    (hop : fieldOp w = op) (htov : fieldTov w = 0#1) (hdev : fieldDev w = 0#7)
    (hreg : fieldReg w = 0#8) (hmid : fieldCnt w = mid) (hval : fieldVal w = val)
    (htmo : fieldTmo w = tmo) :
    WordFields.word { op := op, mid := mid, val := val, tmo := tmo } = w :=
  WordFields.word_eq_of_ofWord (by
    simp [WordFields.ofWord, hop, htov, hdev, hreg, hmid, hval, htmo])

theorem encode_readRows (w : CommandWord) :
    ∀ row ∈ readRows, row.Legal w → encode (row.operands w) = w := by
  simp only [readRows, List.forall_mem_cons, List.not_mem_nil, false_implies, implies_true, and_true]
  refine ⟨fun h => ?readBit, fun h => ?readBitW, fun h => ?readBits, fun h => ?readBitsW,
    fun h => ?readByte, fun h => ?readWord, fun h => ?readBytes, fun h => ?readWords,
    fun h => ?readBytesNoRegAddress⟩
  case readBit =>
    exact read_word (h.bits rfl rfl) (h.bits rfl rfl) (h.timeout rfl) rfl
      (fieldCnt_eq_encodeBitNum (h.bits rfl rfl))
  case readBitW =>
    exact read_word (h.bits rfl rfl) (h.bits rfl rfl) (h.timeout rfl) rfl
      (fieldCnt_eq_encodeBitNum (h.bits rfl rfl))
  case readBits =>
    exact read_word (h.bits rfl rfl) (h.bits rfl rfl) (h.timeout rfl) rfl (fieldCnt_eq_encodeSpec w)
  case readBitsW =>
    exact read_word (h.bits rfl rfl) (h.bits rfl rfl) (h.timeout rfl) rfl (fieldCnt_eq_encodeSpec w)
  case readByte =>
    exact read_word (h.bits rfl rfl) (h.bits rfl rfl) (h.timeout rfl) rfl (h.bits rfl rfl)
  case readWord =>
    exact read_word (h.bits rfl rfl) (h.bits rfl rfl) (h.timeout rfl) rfl (h.bits rfl rfl)
  case readBytes =>
    exact read_word (h.bits rfl rfl) (h.bits rfl rfl) (h.timeout rfl) rfl
      (fieldCnt_eq_encodeCount w)
  case readWords =>
    exact read_word (h.bits rfl rfl) (h.bits rfl rfl) (h.timeout rfl) rfl
      (fieldCnt_eq_encodeCount w)
  case readBytesNoRegAddress =>
    exact read_word (h.bits rfl rfl) (h.bits rfl rfl) (h.timeout rfl) (h.bits rfl rfl)
      (fieldCnt_eq_encodeCount w)

theorem encode_writeRows (w : CommandWord) :
    ∀ row ∈ writeRows, row.Legal w → encode (row.operands w) = w := by
  simp only [writeRows, List.forall_mem_cons, List.not_mem_nil, false_implies, implies_true, and_true]
  refine ⟨fun h => ?writeBit, fun h => ?writeBitW, fun h => ?writeBits, fun h => ?writeBitsW,
    fun h => ?writeByte, fun h => ?writeWord, fun h => ?writeBytes, fun h => ?writeWords⟩
  case writeBit =>
    exact write_word (h.bits rfl rfl) (h.bits rfl rfl) (h.bits rfl rfl)
      (fieldCnt_eq_encodeBitNum (h.bits rfl rfl)) (fieldVal_eq_fieldVal1 (h.bits rfl rfl))
  case writeBitW =>
    exact write_word (h.bits rfl rfl) (h.bits rfl rfl) (h.bits rfl rfl)
      (fieldCnt_eq_encodeBitNum (h.bits rfl rfl)) (fieldVal_eq_fieldVal1 (h.bits rfl rfl))
  case writeBits =>
    exact write_word (h.bits rfl rfl) (h.bits rfl rfl) (h.bits rfl rfl) (fieldCnt_eq_encodeSpec w)
      (fieldVal_eq_fieldVal8 (h.bits rfl rfl))
  case writeBitsW =>
    exact write_word (h.bits rfl rfl) (h.bits rfl rfl) (h.bits rfl rfl) (fieldCnt_eq_encodeSpec w)
      rfl
  case writeByte =>
    exact write_word (h.bits rfl rfl) (h.bits rfl rfl) (h.bits rfl rfl) (h.bits rfl rfl)
      (fieldVal_eq_fieldVal8 (h.bits rfl rfl))
  case writeWord =>
    exact write_word (h.bits rfl rfl) (h.bits rfl rfl) (h.bits rfl rfl) (h.bits rfl rfl) rfl
  case writeBytes =>
    exact write_word (h.bits rfl rfl) (h.bits rfl rfl) (h.bits rfl rfl) (fieldCnt_eq_encodeCount w)
      (h.bits rfl rfl)
  case writeWords =>
    exact write_word (h.bits rfl rfl) (h.bits rfl rfl) (h.bits rfl rfl) (fieldCnt_eq_encodeCount w)
      (h.bits rfl rfl)

theorem encode_codecRows (w : CommandWord) :
    ∀ row ∈ codecRows, row.Legal w → encode (row.operands w) = w := by
  simp only [codecRows, List.forall_mem_cons, List.not_mem_nil, false_implies, implies_true, and_true]
  refine ⟨fun h => ?extractField8, fun h => ?extractField16, fun h => ?injectField8,
    fun h => ?injectField16, fun h => ?setDefaultTimeout, fun h => ?getDefaultTimeout⟩
  case extractField8 =>
    exact codec_word (h.bits rfl rfl) (h.bits rfl rfl) (h.bits rfl rfl) (h.bits rfl rfl)
      (fieldCnt_eq_encodeSpec w) (h.bits rfl rfl) (fieldTmo_eq_fieldRv8 (h.bits rfl rfl))
  case extractField16 =>
    exact codec_word (h.bits rfl rfl) (h.bits rfl rfl) (h.bits rfl rfl) (h.bits rfl rfl)
      (fieldCnt_eq_encodeSpec w) (h.bits rfl rfl) rfl
  case injectField8 =>
    exact codec_word (h.bits rfl rfl) (h.bits rfl rfl) (h.bits rfl rfl) (h.bits rfl rfl)
      (fieldCnt_eq_encodeSpec w) (fieldVal_eq_fieldVal8 (h.bits rfl rfl))
      (fieldTmo_eq_fieldRv8 (h.bits rfl rfl))
  case injectField16 =>
    exact codec_word (h.bits rfl rfl) (h.bits rfl rfl) (h.bits rfl rfl) (h.bits rfl rfl)
      (fieldCnt_eq_encodeSpec w) rfl rfl
  case setDefaultTimeout =>
    exact codec_word (h.bits rfl rfl) (h.bits rfl rfl) (h.bits rfl rfl) (h.bits rfl rfl)
      (h.bits rfl rfl) (h.bits rfl rfl) rfl
  case getDefaultTimeout =>
    exact codec_word (h.bits rfl rfl) (h.bits rfl rfl) (h.bits rfl rfl) (h.bits rfl rfl)
      (h.bits rfl rfl) (h.bits rfl rfl) (h.bits rfl rfl)

/-- Encoding the command of a legal word gives the word back. -/
theorem encode_of_legal {row : OpcodeRow} {w : CommandWord} (hrow : row ∈ opcodeRows)
    (h : row.Legal w) : encode (row.operands w) = w := by
  rw [opcodeRows, List.mem_append, List.mem_append] at hrow
  obtain (hr | hw) | hc := hrow
  · exact encode_readRows w row hr h
  · exact encode_writeRows w row hw h
  · exact encode_codecRows w row hc h

theorem encode_of_decode {w : CommandWord} {i : Instr} (h : decode w = .ok i) : encode i = w := by
  obtain ⟨row, hrow, hlegal, rfl⟩ := decode_eq_ok_iff.1 h
  exact encode_of_legal (List.mem_of_find?_eq_some hrow) hlegal

/-! ### The statement -/

/-- Settles O2. -/
theorem legalWordIsEncodingOfItsCommand : Obligations.LegalWordIsEncodingOfItsCommand :=
  ⟨fun _ _ h => ⟨encode_of_decode h, decode_wf h⟩,
    fun _ _ _ hw hv => (encode_of_decode hw).symm.trans (encode_of_decode hv)⟩

end Sys2Proof
end

section
/-! PROOFS. Decoding the encoding of a well-formed command gives the command back
(30_encoding R91, R92, R94, R97). -/

namespace Sys2Proof

/-! ### Reading an encoded word -/

section
variable (i : Instr)

@[simp] theorem fieldDev_encode : fieldDev (encode i) = (encodeFields i).dev := fieldDev_word _

@[simp] theorem fieldReg_encode : fieldReg (encode i) = (encodeFields i).reg := fieldReg_word _

@[simp] theorem fieldVal_encode : fieldVal (encode i) = (encodeFields i).val := fieldVal_word _

@[simp] theorem fieldTmo_encode : fieldTmo (encode i) = (encodeFields i).tmo := fieldTmo_word _

end

section
variable {i : Instr}

/-- A bit in `VAL` is read back. -/
theorem fieldVal1_encode {v : BitVec 1} (h : (encodeFields i).val = v.setWidth 16) :
    fieldVal1 (encode i) = v := by
  apply BitVec.eq_of_toNat_eq
  rw [encode, fieldVal1_word, h, BitVec.toNat_setWidth_of_le (by omega)]
  exact Nat.mod_eq_of_lt v.isLt

/-- A byte in `VAL` is read back. -/
theorem fieldVal8_encode {v : Byte} (h : (encodeFields i).val = v.setWidth 16) :
    fieldVal8 (encode i) = v := by
  apply BitVec.eq_of_toNat_eq
  rw [encode, fieldVal8_word, h, BitVec.toNat_setWidth_of_le (by omega)]
  exact Nat.mod_eq_of_lt v.isLt

/-- A byte in `RV` is read back. -/
theorem fieldRv8_encode {v : Byte} (h : (encodeFields i).tmo = v.setWidth 16) :
    fieldRv8 (encode i) = v := by
  apply BitVec.eq_of_toNat_eq
  rw [encode, fieldRv8_word, h, BitVec.toNat_setWidth_of_le (by omega)]
  exact Nat.mod_eq_of_lt v.isLt

/-- An optional timeout in `TOV` and `TMO` is read back. -/
theorem operandTimeout_encode {t : Option Millis} (htov : (encodeFields i).tov = encodeTov t)
    (htmo : (encodeFields i).tmo = encodeTmo t) : operandTimeout (encode i) = t := by
  rw [operandTimeout, encode, fieldTov_word, fieldTmo_word, htov, htmo]
  cases t <;> rfl

/-- Bits 39:32 of a field command, as a number. -/
theorem encodeSpec_toNat {f : FieldSpec} (hf : f.encodable) :
    (encodeSpec f).toNat = 16 * f.bitStart + (f.length - 1) := by
  obtain ⟨hb, hl, hl'⟩ := hf
  rw [encodeSpec, BitVec.toNat_append, BitVec.toNat_ofNat, BitVec.toNat_ofNat,
    Nat.mod_eq_of_lt (by omega), Nat.mod_eq_of_lt (by omega),
    ← Nat.shiftLeft_add_eq_or_of_lt (by omega), Nat.shiftLeft_eq]
  omega

/-- A single-bit command is encoded as the field command of that bit (30_encoding R97, R99). -/
theorem encodeBitNum_eq_encodeSpec (b : Nat) : encodeBitNum b = encodeSpec (FieldSpec.bit b) := rfl

/-- A field specification in `BS` and `LM1` is read back. -/
theorem operandSpec_encode {f : FieldSpec} (hf : f.encodable)
    (h : (encodeFields i).mid = encodeSpec f) : operandSpec (encode i) = f := by
  rw [operandSpec, encode, fieldBs_word, fieldLm1_word, h, encodeSpec_toNat hf]
  obtain ⟨hb, hl, hl'⟩ := hf
  congr <;> omega

/-- A bit number in `BS` is read back. -/
theorem operandBitNum_encode {b : Nat} (hb : encodableBit b)
    (h : (encodeFields i).mid = encodeBitNum b) : operandBitNum (encode i) = b :=
  congrArg FieldSpec.bitStart
    (operandSpec_encode (f := FieldSpec.bit b) ⟨hb, Nat.le_refl 1, Nat.le_add_left 1 15⟩ h)

/-- A count in `CNT` is read back. -/
theorem operandCount_encode {n : Nat} (hn : encodableCount n)
    (h : (encodeFields i).mid = encodeCount n) : operandCount (encode i) = n := by
  rw [operandCount, encode, fieldCnt_word, h, encodeCount, BitVec.toNat_ofNat]
  exact Nat.mod_eq_of_lt (by omega)

end

/-! ### The row of an encoded word -/

/-- A command has no `TMO` without `TOV`. -/
theorem encodeTmo_of_encodeTov {t : Option Millis} (h : encodeTov t = 0#1) : encodeTmo t = 0#16 := by
  cases t with
  | none => rfl
  | some _ => cases h

/-- The encoding of a command passes its row's mask, so it decodes to what the row reads from it. -/
theorem decode_encode_of {i : Instr} {row : OpcodeRow} (hrow : rowOf (encodeFields i).op = some row)
    (hm : Laws.RowMatches.Statement i)
    (ht : row.format.hasTov = true → (encodeFields i).tov = 0#1 → (encodeFields i).tmo = 0#16)
    (hops : row.operands (encode i) = i) : decode (encode i) = .ok i := by
  have hop : rowOf (fieldOp (encode i)) = some row := by rw [encode, fieldOp_word, hrow]
  obtain ⟨row', hrow', hfixed⟩ := hm
  obtain rfl : row' = row := Option.some.inj (hrow'.symm.trans hop)
  refine decode_eq_ok_iff.2 ⟨row', hop, ⟨hfixed, ?_⟩, hops⟩
  rwa [encode, fieldTov_word, fieldTmo_word]

open Laws in
/-- Case by case: every operand is read back from where the encoder put it. -/
theorem decode_encode {i : Instr} (hwf : i.wf = true) : decode (encode i) = .ok i := by
  cases i with
  | readBit dev reg b t =>
    refine decode_encode_of rfl (RowMatches.readBit dev reg b t) (fun _ => encodeTmo_of_encodeTov) ?_
    exact (Instr.readBit.injEq ..).mpr ⟨fieldDev_encode _, fieldReg_encode _,
      operandBitNum_encode (of_decide_eq_true hwf) rfl, operandTimeout_encode rfl rfl⟩
  | readBitW dev reg b t =>
    refine decode_encode_of rfl (RowMatches.readBitW dev reg b t) (fun _ => encodeTmo_of_encodeTov) ?_
    exact (Instr.readBitW.injEq ..).mpr ⟨fieldDev_encode _, fieldReg_encode _,
      operandBitNum_encode (of_decide_eq_true hwf) rfl, operandTimeout_encode rfl rfl⟩
  | readBits dev reg f t =>
    refine decode_encode_of rfl (RowMatches.readBits dev reg f t) (fun _ => encodeTmo_of_encodeTov) ?_
    exact (Instr.readBits.injEq ..).mpr ⟨fieldDev_encode _, fieldReg_encode _,
      operandSpec_encode (of_decide_eq_true hwf) rfl, operandTimeout_encode rfl rfl⟩
  | readBitsW dev reg f t =>
    refine decode_encode_of rfl (RowMatches.readBitsW dev reg f t) (fun _ => encodeTmo_of_encodeTov) ?_
    exact (Instr.readBitsW.injEq ..).mpr ⟨fieldDev_encode _, fieldReg_encode _,
      operandSpec_encode (of_decide_eq_true hwf) rfl, operandTimeout_encode rfl rfl⟩
  | readByte dev reg t =>
    refine decode_encode_of rfl (RowMatches.readByte dev reg t) (fun _ => encodeTmo_of_encodeTov) ?_
    exact (Instr.readByte.injEq ..).mpr ⟨fieldDev_encode _, fieldReg_encode _,
      operandTimeout_encode rfl rfl⟩
  | readWord dev reg t =>
    refine decode_encode_of rfl (RowMatches.readWord dev reg t) (fun _ => encodeTmo_of_encodeTov) ?_
    exact (Instr.readWord.injEq ..).mpr ⟨fieldDev_encode _, fieldReg_encode _,
      operandTimeout_encode rfl rfl⟩
  | readBytes dev reg n t =>
    refine decode_encode_of rfl (RowMatches.readBytes dev reg n t) (fun _ => encodeTmo_of_encodeTov) ?_
    exact (Instr.readBytes.injEq ..).mpr ⟨fieldDev_encode _, fieldReg_encode _,
      operandCount_encode (of_decide_eq_true hwf) rfl, operandTimeout_encode rfl rfl⟩
  | readWords dev reg n t =>
    refine decode_encode_of rfl (RowMatches.readWords dev reg n t) (fun _ => encodeTmo_of_encodeTov) ?_
    exact (Instr.readWords.injEq ..).mpr ⟨fieldDev_encode _, fieldReg_encode _,
      operandCount_encode (of_decide_eq_true hwf) rfl, operandTimeout_encode rfl rfl⟩
  | readBytesNoRegAddress dev n t =>
    refine decode_encode_of rfl (RowMatches.readBytesNoRegAddress dev n t)
      (fun _ => encodeTmo_of_encodeTov) ?_
    exact (Instr.readBytesNoRegAddress.injEq ..).mpr ⟨fieldDev_encode _,
      operandCount_encode (of_decide_eq_true hwf) rfl, operandTimeout_encode rfl rfl⟩
  | writeBit dev reg b v =>
    refine decode_encode_of rfl (RowMatches.writeBit dev reg b v) nofun ?_
    exact (Instr.writeBit.injEq ..).mpr ⟨fieldDev_encode _, fieldReg_encode _,
      operandBitNum_encode (of_decide_eq_true hwf) rfl, fieldVal1_encode rfl⟩
  | writeBitW dev reg b v =>
    refine decode_encode_of rfl (RowMatches.writeBitW dev reg b v) nofun ?_
    exact (Instr.writeBitW.injEq ..).mpr ⟨fieldDev_encode _, fieldReg_encode _,
      operandBitNum_encode (of_decide_eq_true hwf) rfl, fieldVal1_encode rfl⟩
  | writeBits dev reg f v =>
    refine decode_encode_of rfl (RowMatches.writeBits dev reg f v) nofun ?_
    exact (Instr.writeBits.injEq ..).mpr ⟨fieldDev_encode _, fieldReg_encode _,
      operandSpec_encode (of_decide_eq_true hwf) rfl, fieldVal8_encode rfl⟩
  | writeBitsW dev reg f v =>
    refine decode_encode_of rfl (RowMatches.writeBitsW dev reg f v) nofun ?_
    exact (Instr.writeBitsW.injEq ..).mpr ⟨fieldDev_encode _, fieldReg_encode _,
      operandSpec_encode (of_decide_eq_true hwf) rfl, fieldVal_encode _⟩
  | writeByte dev reg v =>
    refine decode_encode_of rfl (RowMatches.writeByte dev reg v) nofun ?_
    exact (Instr.writeByte.injEq ..).mpr ⟨fieldDev_encode _, fieldReg_encode _,
      fieldVal8_encode rfl⟩
  | writeWord dev reg v =>
    refine decode_encode_of rfl (RowMatches.writeWord dev reg v) nofun ?_
    exact (Instr.writeWord.injEq ..).mpr ⟨fieldDev_encode _, fieldReg_encode _, fieldVal_encode _⟩
  | writeBytes dev reg n =>
    refine decode_encode_of rfl (RowMatches.writeBytes dev reg n) nofun ?_
    exact (Instr.writeBytes.injEq ..).mpr ⟨fieldDev_encode _, fieldReg_encode _,
      operandCount_encode (of_decide_eq_true hwf) rfl⟩
  | writeWords dev reg n =>
    refine decode_encode_of rfl (RowMatches.writeWords dev reg n) nofun ?_
    exact (Instr.writeWords.injEq ..).mpr ⟨fieldDev_encode _, fieldReg_encode _,
      operandCount_encode (of_decide_eq_true hwf) rfl⟩
  | extractField8 rv f =>
    refine decode_encode_of rfl (RowMatches.extractField8 rv f) nofun ?_
    exact (Instr.extractField8.injEq ..).mpr ⟨fieldRv8_encode rfl,
      operandSpec_encode (of_decide_eq_true hwf) rfl⟩
  | extractField16 rv f =>
    refine decode_encode_of rfl (RowMatches.extractField16 rv f) nofun ?_
    exact (Instr.extractField16.injEq ..).mpr ⟨fieldTmo_encode _,
      operandSpec_encode (of_decide_eq_true hwf) rfl⟩
  | injectField8 rv f v =>
    refine decode_encode_of rfl (RowMatches.injectField8 rv f v) nofun ?_
    exact (Instr.injectField8.injEq ..).mpr ⟨fieldRv8_encode rfl,
      operandSpec_encode (of_decide_eq_true hwf) rfl, fieldVal8_encode rfl⟩
  | injectField16 rv f v =>
    refine decode_encode_of rfl (RowMatches.injectField16 rv f v) nofun ?_
    exact (Instr.injectField16.injEq ..).mpr ⟨fieldTmo_encode _,
      operandSpec_encode (of_decide_eq_true hwf) rfl, fieldVal_encode _⟩
  | setDefaultTimeout ms =>
    refine decode_encode_of rfl (RowMatches.setDefaultTimeout ms) nofun ?_
    exact (Instr.setDefaultTimeout.injEq ..).mpr (fieldTmo_encode _)
  | getDefaultTimeout => exact decode_encode_of rfl RowMatches.getDefaultTimeout nofun rfl

/-! ### The statement -/

/-- Settles O1. -/
theorem decodeOfEncodeIsIdentity : Obligations.DecodeOfEncodeIsIdentity := fun _ hwf =>
  decode_encode hwf

end Sys2Proof
end

section
/-! PROOFS. The response word field by field, and what software makes of it (30_encoding R96, R100). -/

namespace Sys2Proof.Machine

/-! ### The response word as its fields -/

/-- The response word as a number. -/
theorem responseWord_toNat (ok : Bool) (kind : BitVec 2) (count : BitVec 8) (value : Word16) :
    (responseWord ok kind count value).toNat =
      ok.toNat * 2 ^ 31 + kind.toNat * 2 ^ 29 + count.toNat * 2 ^ 16 + value.toNat := by
  have := kind.isLt
  have := count.isLt
  have := value.isLt
  simp only [responseWord, BitVec.toNat_append, BitVec.toNat_ofBool, BitVec.toNat_ofNat]
  rw [← Nat.shiftLeft_add_eq_or_of_lt (by omega), ← Nat.shiftLeft_add_eq_or_of_lt (by omega),
    ← Nat.shiftLeft_add_eq_or_of_lt (by omega), ← Nat.shiftLeft_add_eq_or_of_lt (by omega)]
  simp only [Nat.shiftLeft_eq]
  omega

/-- A response word from its number. -/
theorem responseWord_eq_ofNat {ok : Bool} {kind : BitVec 2} {count : BitVec 8} {value : Word16} {n : Nat}
    (h : ok.toNat * 2 ^ 31 + kind.toNat * 2 ^ 29 + count.toNat * 2 ^ 16 + value.toNat = n) :
    responseWord ok kind count value = BitVec.ofNat 32 n := by
  rw [← h, ← responseWord_toNat, BitVec.ofNat_toNat, BitVec.setWidth_eq]

section
variable (ok : Bool) (kind : BitVec 2) (count : BitVec 8) (value : Word16)

@[simp] theorem respOk_responseWord : respOk (responseWord ok kind count value) = ok := by
  rw [respOk, responseWord]
  simp only [BitVec.getLsbD_append]
  simp

@[simp] theorem respKind_responseWord : respKind (responseWord ok kind count value) = kind := by
  apply BitVec.eq_of_toNat_eq
  rw [respKind, BitVec.extractLsb'_toNat, responseWord_toNat, Nat.shiftRight_eq_div_pow]
  have := kind.isLt; have := count.isLt; have := value.isLt
  omega

@[simp] theorem respReserved_responseWord : respReserved (responseWord ok kind count value) = 0 := by
  apply BitVec.eq_of_toNat_eq
  rw [respReserved, BitVec.extractLsb'_toNat, responseWord_toNat, Nat.shiftRight_eq_div_pow]
  have := count.isLt; have := value.isLt
  rw [show (0 : BitVec 5).toNat = 0 from rfl]
  omega

@[simp] theorem respCount_responseWord : respCount (responseWord ok kind count value) = count := by
  apply BitVec.eq_of_toNat_eq
  rw [respCount, BitVec.extractLsb'_toNat, responseWord_toNat, Nat.shiftRight_eq_div_pow]
  have := count.isLt; have := value.isLt
  omega

@[simp] theorem respValue_responseWord : respValue (responseWord ok kind count value) = value := by
  apply BitVec.eq_of_toNat_eq
  rw [respValue, BitVec.extractLsb'_toNat, responseWord_toNat, Nat.shiftRight_eq_div_pow]
  have := value.isLt
  omega

end

/-- Settles O55. -/
theorem responseWordsAreTheTable : Obligations.ResponseWordsAreTheTable := by
  refine ⟨fun v => responseWord_eq_ofNat ?_, fun v => responseWord_eq_ofNat ?_, rfl, rfl,
    fun n hn => responseWord_eq_ofNat ?_, rfl, rfl, fun v => responseWord_eq_ofNat ?_, rfl,
    fun ok kind count value => ?_⟩
  · simp
  · simp
  · simp [Nat.mod_eq_of_lt (Nat.lt_succ_of_le hn)]
  · simp
  · simp

/-! ### The software view -/

/-- Only the response to an illegal word has `KIND = 3`. -/
theorem respKind_word_ne {r : Response} (h : r ≠ .illegal) : respKind r.word ≠ 3 := by
  cases r with
  | illegal => exact absurd rfl h
  | boolRead success v => simp [Response.word]
  | write success => simp [Response.word]
  | count k => simp [Response.word]
  | sentinelA => simp [Response.word]
  | sentinelB => simp [Response.word]
  | value v => simp [Response.word]

theorem softwareView_illegal (i : Instr) :
    softwareView i Response.illegal.word = .noCounterpart :=
  if_pos (respKind_responseWord ..)

/-- The view of a Boolean-result read of `bits` bits, after a success and after a failure. -/
theorem softwareRead_boolRead (bits : Nat) (v : Word16) :
    softwareRead bits (Response.boolRead true v).word = .read (some (v.toNat % 2 ^ bits)) ∧
    softwareRead bits (Response.boolRead false v).word = .read none := by
  simp [softwareRead, Response.word]

/-- The results of a read command of `bits` bits. -/
theorem softwareView_boolRead {i : Instr} {bits : Nat}
    (hi : ∀ p, respKind p ≠ 3 → softwareView i p = softwareRead bits p) (v : Word16) :
    softwareView i (Response.boolRead true v).word = .read (some (v.toNat % 2 ^ bits)) ∧
    softwareView i (Response.boolRead false v).word = .read none := by
  rw [hi (Response.boolRead true v).word (respKind_word_ne nofun),
    hi (Response.boolRead false v).word (respKind_word_ne nofun)]
  exact softwareRead_boolRead bits v

/-- The results of a write command. -/
theorem softwareView_write {i : Instr} (hi : ∀ p, respKind p ≠ 3 → softwareView i p = .write (respOk p))
    (ok : Bool) : softwareView i (Response.write ok).word = .write ok := by
  rw [hi (Response.write ok).word (respKind_word_ne nofun), Response.word, respOk_responseWord]

/-- The results of an array read command. -/
theorem softwareView_arrayRead {i : Instr}
    (hi : ∀ p, respKind p ≠ 3 → softwareView i p = softwareArrayRead p) :
    (∀ m : Nat, m ≤ 255 → softwareView i (Response.count m).word = .arrayRead m) ∧
    softwareView i Response.sentinelA.word = .arrayRead Config.sentinelA ∧
    softwareView i Response.sentinelB.word = .arrayRead Config.sentinelB := by
  refine ⟨fun m hm => ?_, ?_, ?_⟩
  · rw [hi (Response.count m).word (respKind_word_ne nofun)]
    simp [softwareArrayRead, Response.word, Nat.mod_eq_of_lt (Nat.lt_succ_of_le hm)]
  · rw [hi Response.sentinelA.word (respKind_word_ne nofun)]
    simp [softwareArrayRead, Response.word]
  · rw [hi Response.sentinelB.word (respKind_word_ne nofun)]
    simp [softwareArrayRead, Response.word]

/-! ### The sentinels (00_scope R6) -/

theorem outsideByteRange_ne_count (x : Int) {n : Nat} (hn : n ≤ 255) : outsideByteRange x ≠ n := by
  unfold outsideByteRange
  split <;> omega

theorem outsideByteRange_injective : Function.Injective outsideByteRange := by
  intro x y h
  unfold outsideByteRange at h
  split at h <;> split at h <;> omega

theorem sentinelA_ne_sentinelB : Config.sentinelA ≠ Config.sentinelB := by
  intro h
  have hseed := outsideByteRange_injective h
  split at hseed <;> omega

/-! ### The statement -/

/-- Settles O56: each command of a list has the view of its kind. -/
theorem softwareViewOfResponses : Obligations.SoftwareViewOfResponses := by
  refine ⟨softwareView_illegal, fun dev reg b f t v =>
      ⟨fun i hi => softwareView_boolRead (bits := 1) (fun p h => ?bit) v,
        fun i hi => softwareView_boolRead (bits := 8) (fun p h => ?byte) v,
        fun i hi => Nat.mod_eq_of_lt v.isLt ▸
          softwareView_boolRead (bits := 16) (fun p h => ?word) v⟩,
    fun dev reg b n f bit v8 v16 ok i hi => softwareView_write (fun p h => ?write) ok,
    sentinelA_ne_sentinelB, fun n hn => ⟨outsideByteRange_ne_count _ hn, outsideByteRange_ne_count _ hn⟩,
    fun dev reg n t i hi => softwareView_arrayRead fun p h => ?array⟩
  all_goals simp only [List.mem_cons, List.not_mem_nil, or_false] at hi
  case bit => obtain rfl | rfl := hi <;> exact if_neg h
  case byte => obtain rfl | rfl := hi <;> exact if_neg h
  case word => obtain rfl | rfl := hi <;> exact if_neg h
  case write => obtain rfl | rfl | rfl | rfl | rfl | rfl | rfl | rfl := hi <;> exact if_neg h
  case array => obtain rfl | rfl | rfl := hi <;> exact if_neg h

end Sys2Proof.Machine
end

section
/-! PROOFS. A single-bit command is the field command of length 1 (30_encoding R99): their rules differ in
the command that is latched, and no step looks at that one. -/

namespace Sys2Proof.Machine

/-- Two blocks that agree in every context and in `DEFAULT_TIMEOUT`, but for the latched command of
context `c`. -/
def AgreeButCommand (c : Nat) (u v : State) : Prop :=
  ∃ q r, u.ctx? c = some q ∧ v.ctx? c = some r ∧
    q.phase = r.phase ∧ q.outstanding = r.outstanding ∧ q.resp = r.resp ∧
    q.rvl = r.rvl ∧ q.buf = r.buf ∧ (∀ d, d ≠ c → u.ctx? d = v.ctx? d) ∧
    u.defaultTimeout = v.defaultTimeout

/-- The situations in which a command or an awaited reply reaches context `c`. -/
def State.Working (s : State) (c : Nat) (bus : BusId) (k : Context) : Prop :=
  s.Issuing c bus k ∨ (∃ r, s.ReadAnswered c k r) ∨ (∃ r, s.WriteAnswered c k r)

section
variable {s : State} {c : Nat} {bus : BusId} {k : Context}

/-- A block with a context `c` agrees with itself. -/
theorem AgreeButCommand.refl {u : State} (h : u.ctx? c = some k) : AgreeButCommand c u u :=
  ⟨k, k, h, h, rfl, rfl, rfl, rfl, rfl, fun _ _ => rfl, rfl⟩

/-- Sending the same read for two commands. -/
theorem sendRead_agree (h : s.ctx? c = some k) (i j : Instr) (dev : DevAddr) (reg : Option RegAddr)
    (len : Nat) (t : Millis) :
    AgreeButCommand c (s.sendRead c k bus i dev reg len t) (s.sendRead c k bus j dev reg len t) := by
  obtain ⟨q, hq, hsq⟩ := sendRead_spec bus i dev reg len t h
  obtain ⟨r, hr, hsr⟩ := sendRead_spec bus j dev reg len t h
  exact ⟨q, r, hq.here, hr.here, hsq.phase.trans hsr.phase.symm, hsq.outstanding.trans hsr.outstanding.symm,
    hsq.resp.trans hsr.resp.symm, hsq.rvl.trans hsr.rvl.symm, hsq.buf.trans hsr.buf.symm,
    fun d hd => (hq.others d hd).trans (hr.others d hd).symm,
    hq.defaultTimeout.trans hr.defaultTimeout.symm⟩

/-- A write reply that the rule of a command does not await is refused. -/
theorem run_writeReply_of_none {reply : WriteReply} {rule : CommandRule}
    (h : s.WriteAnswered c k reply) (hf : rule.writeReply = none) :
    s.run rule = .refused .replyNotAwaited := by
  obtain ⟨⟨rest, hm⟩, hc, hw, bus, dev, reg, bytes, ho⟩ := h
  simp only [State.run, hm, List.head?_cons, hc, hw, ho, hf]

/-- Two commands whose issue steps send the same read and whose reply steps are the same have the same
outcome in every situation. -/
theorem exec_sameOutcome {i j : Instr} (h : s.Working c bus k)
    (hissue : s.ctx? c = some k →
      AgreeButCommand c ((s.ruleOf i).issue c k bus) ((s.ruleOf j).issue c k bus))
    {f : Nat → Context → ReadReply → State} (hri : (s.ruleOf i).readReply = some f)
    (hrj : (s.ruleOf j).readReply = some f) (hw : (s.ruleOf i).writeReply = (s.ruleOf j).writeReply) :
    SameOutcome (AgreeButCommand c) (exec i s) (exec j s) := by
  rw [exec_eq_run, exec_eq_run]
  rcases h with h | ⟨r, h⟩ | ⟨r, h⟩
  · rw [run_issuing _ h, run_issuing _ h]
    exact hissue h.ctx
  · rw [run_readAnswered h hri, run_readAnswered h hrj]
    obtain ⟨k', hk', -⟩ := readReply_effect r h.ctx hri
    exact .refl hk'.here
  · cases hg : (s.ruleOf j).writeReply with
    | none =>
      rw [run_writeReply_of_none h hg, run_writeReply_of_none h (hw.trans hg)]
      rfl
    | some g =>
      rw [run_writeAnswered h hg, run_writeAnswered h (hw.trans hg), ruleOf_writeReply hg]
      obtain ⟨k', hk', -⟩ := reportWrite_spec r h.ctx
      exact .refl hk'.here

end

/-- Widening the bit of a single-bit write does not change its value. -/
theorem setWidth_bit_toNat {bit : BitVec 1} {n : Nat} (hn : 1 ≤ n) :
    (bit.setWidth n).toNat = bit.toNat :=
  BitVec.toNat_setWidth_of_le hn

/-- Settles O23. -/
theorem singleBitCommandsAreLengthOne : Obligations.SingleBitCommandsAreLengthOne := by
  intro s c bus k dev reg b t bit h
  simp only [List.forall_mem_cons, List.not_mem_nil, false_implies, implies_true, and_true]
  refine ⟨?readBit, ?readBitW, ?writeBit, ?writeBitW⟩
  case readBit => exact exec_sameOutcome h (fun hc => sendRead_agree hc ..) rfl rfl rfl
  case readBitW => exact exec_sameOutcome h (fun hc => sendRead_agree hc ..) rfl rfl rfl
  case writeBit =>
    refine exec_sameOutcome h (fun hc => sendRead_agree hc ..) rfl ?_ rfl
    simp only [State.ruleOf, State.rmwRule, setWidth_bit_toNat (by decide : 1 ≤ 8)]
    rfl
  case writeBitW =>
    refine exec_sameOutcome h (fun hc => sendRead_agree hc ..) rfl ?_ rfl
    simp only [State.ruleOf, State.rmwRule, setWidth_bit_toNat (by decide : 1 ≤ 16)]
    rfl

end Sys2Proof.Machine
end

section
/-! PROOFS. The laws of the codec's two formulas, bit by bit, for every number of bits `W`
(40_codec R121, R124, R128 to R132). -/

namespace Sys2Proof.Machine

/-- A word of `W` bits has no bit from `W` on. -/
theorem lt_and_testBit {W r : Nat} (hr : r < 2 ^ W) (i : Nat) :
    (decide (i < W) && r.testBit i) = r.testBit i := by
  rw [← Nat.testBit_mod_two_pow, Nat.mod_eq_of_lt hr]

section
variable {W r bitStart length : Nat}

/-! ### What the formulas compute -/

/-- Shift and mask are division and remainder (40_codec R121). -/
theorem extractW_eq_div_mod (hr : r < 2 ^ W) (bitStart length : Nat) :
    extractW W r bitStart length = r / 2 ^ bitStart % 2 ^ length := by
  have hle : r / 2 ^ bitStart % 2 ^ length ≤ r := (Nat.mod_le _ _).trans (Nat.div_le_self _ _)
  rw [extractW, Nat.one_shiftLeft, Nat.and_two_pow_sub_one_eq_mod, Nat.shiftRight_eq_div_pow,
    Nat.mod_eq_of_lt (hle.trans_lt hr)]

/-- For a field that fits, an injected word has the value's bits inside the field and the register's
elsewhere (40_codec R124). -/
theorem injectW_testBit_of_fits (hr : r < 2 ^ W) (hf : bitStart + length ≤ W) (v i : Nat) :
    (injectW W r bitStart length v).testBit i =
      if bitStart ≤ i ∧ i < bitStart + length then v.testBit (i - bitStart) else r.testBit i := by
  rw [injectW_testBit]
  split
  · next hi => simp [hi.2.trans_le hf]
  · exact lt_and_testBit hr i

/-! ### Laws of every field, also one out of range -/

/-- What is injected is read back, as far as the field lies inside the word. -/
theorem extractW_injectW (W r bitStart length v : Nat) :
    extractW W (injectW W r bitStart length v) bitStart length =
      v % 2 ^ min length (W - bitStart) := by
  refine Nat.eq_of_testBit_eq fun i => ?_
  rw [extractW_testBit, injectW_testBit, Nat.testBit_mod_two_pow, Nat.add_sub_cancel_left]
  by_cases hlen : i < length
  · have hfield : bitStart ≤ bitStart + i ∧ bitStart + i < bitStart + length := by omega
    have hword : (i < W ∧ bitStart + i < W) ↔ i < W - bitStart := by omega
    simp [hlen, hfield, ← hword, Bool.and_assoc]
  · simp [hlen]

/-- A second injection into the same field replaces the first. -/
theorem injectW_injectW (W r bitStart length u v : Nat) :
    injectW W (injectW W r bitStart length u) bitStart length v =
      injectW W r bitStart length v := by
  refine Nat.eq_of_testBit_eq fun i => ?_
  simp only [injectW_testBit]
  by_cases hi : bitStart ≤ i ∧ i < bitStart + length
  · simp only [hi, and_self, if_true]
  · simp only [hi, if_false, Bool.and_self_left]

/-- No bit outside the field changes. -/
theorem andNot_injectW (hr : r < 2 ^ W) (bitStart length v : Nat) :
    andNot (injectW W r bitStart length v) (fieldMask bitStart length) =
      andNot r (fieldMask bitStart length) := by
  refine Nat.eq_of_testBit_eq fun i => ?_
  rw [andNot_testBit, andNot_testBit, fieldMask_testBit, ← Bool.decide_and, injectW_testBit]
  by_cases hi : bitStart ≤ i ∧ i < bitStart + length
  · simp [hi]
  · simp only [hi, if_false, lt_and_testBit hr]

/-- Injecting what is there changes nothing. -/
theorem injectW_extractW (hr : r < 2 ^ W) (bitStart length : Nat) :
    injectW W r bitStart length (extractW W r bitStart length) = r := by
  refine Nat.eq_of_testBit_eq fun i => ?_
  rw [injectW_testBit, extractW_testBit]
  split
  · next hi =>
    have hbit : bitStart + (i - bitStart) = i := by omega
    have hlen : i - bitStart < length := by omega
    rw [hbit, ← lt_and_testBit hr i]
    by_cases hw : i < W
    · simp [hw, hlen, (Nat.sub_le i bitStart).trans_lt hw]
    · simp [hw]
  · exact lt_and_testBit hr i

/-- Only the low `length` bits of the value matter. -/
theorem injectW_mod (W r bitStart length v : Nat) :
    injectW W r bitStart length (v % 2 ^ length) = injectW W r bitStart length v := by
  refine Nat.eq_of_testBit_eq fun i => ?_
  rw [injectW_testBit, injectW_testBit, Nat.testBit_mod_two_pow]
  split
  · next hi =>
    have hlen : i - bitStart < length := by omega
    simp [hlen]
  · rfl

/-! ### The field out of range -/

/-- A field that reaches past the word acts as its part inside the word (40_codec R128). -/
theorem injectW_clip (hf : W ≤ bitStart + length) (r v : Nat) :
    injectW W r bitStart length v = injectW W r bitStart (W - bitStart) v := by
  refine Nat.eq_of_testBit_eq fun i => ?_
  rw [injectW_testBit, injectW_testBit]
  by_cases hw : i < W
  · have hiff : (bitStart ≤ i ∧ i < bitStart + length) ↔
        bitStart ≤ i ∧ i < bitStart + (W - bitStart) := by omega
    simp only [hiff]
  · simp [hw]

/-- A field of no bits changes nothing. -/
theorem injectW_length_zero (hr : r < 2 ^ W) (bitStart v : Nat) :
    injectW W r bitStart 0 v = r := by
  refine Nat.eq_of_testBit_eq fun i => ?_
  rw [injectW_testBit, if_neg (by omega), lt_and_testBit hr]

/-- There is no field from bit `W` on. -/
theorem extractW_of_le (hr : r < 2 ^ W) (hf : W ≤ bitStart) (length : Nat) :
    extractW W r bitStart length = 0 := by
  rw [extractW_eq_div_mod hr, Nat.div_eq_of_lt (hr.trans_le (Nat.pow_le_pow_right two_pos hf)),
    Nat.zero_mod]

/-- Nothing is injected from bit `W` on. -/
theorem injectW_of_le (hr : r < 2 ^ W) (hf : W ≤ bitStart) (length v : Nat) :
    injectW W r bitStart length v = r := by
  rw [injectW_clip (by omega), Nat.sub_eq_zero_of_le hf, injectW_length_zero hr]

/-! ### The full field -/

/-- The full field is the whole word. -/
theorem extractW_full (hr : r < 2 ^ W) : extractW W r 0 W = r := by
  rw [extractW_eq_div_mod hr, Nat.pow_zero, Nat.div_one, Nat.mod_eq_of_lt hr]

/-- Injecting the full field replaces the whole word. -/
theorem injectW_full {v : Nat} (hv : v < 2 ^ W) (r : Nat) : injectW W r 0 W v = v := by
  refine Nat.eq_of_testBit_eq fun i => ?_
  rw [injectW_testBit, ← lt_and_testBit hv i]
  by_cases hw : i < W
  · simp [hw]
  · simp [hw]

/-! ### The single bit -/

/-- The field of length 1 is one bit. -/
theorem extractW_one (hr : r < 2 ^ W) (b : Nat) : extractW W r b 1 = (r.testBit b).toNat := by
  rw [extractW_eq_div_mod hr, Nat.pow_one, Nat.toNat_testBit]

/-- Injecting one bit sets that bit and leaves the others (40_codec R132). -/
theorem injectW_one_testBit {b : Nat} (hr : r < 2 ^ W) (hb : b < W) (v i : Nat) :
    (injectW W r b 1 v).testBit i = if i = b then v.testBit 0 else r.testBit i := by
  rw [injectW_testBit_of_fits hr hb]
  have hiff : (b ≤ i ∧ i < b + 1) ↔ i = b := by omega
  simp only [hiff]
  split
  · next hi => rw [hi, Nat.sub_self]
  · rfl

end

/-! ### The statements -/

/-- Settles O6. -/
theorem extractIsShiftAndMask : Obligations.ExtractIsShiftAndMask := by
  intro W r f hr
  have heq := extractW_eq_div_mod hr f.bitStart f.length
  exact ⟨rfl, heq, heq ▸ Nat.mod_lt _ (Nat.two_pow_pos _)⟩

/-- Settles O7. -/
theorem injectReplacesExactlyTheField : Obligations.InjectReplacesExactlyTheField :=
  fun _ _ v _ hr => ⟨rfl, fun hf => injectW_testBit_of_fits hr hf v⟩

/-- Settles O8. -/
theorem codecRoundTripIdempotenceLocality : Obligations.CodecRoundTripIdempotenceLocality := by
  intro W r v hr _
  refine ⟨fun f _ hf => ⟨?roundTrip, injectW_injectW ..⟩, fun b i hb hi => ?locality⟩
  case roundTrip => rw [extractW_injectW, Nat.min_eq_left (Nat.le_sub_of_add_le' hf)]
  case locality => rw [injectW_one_testBit hr hb, if_neg hi]

/-- Settles O9.  The laws of a field out of range are those of its part inside the word. -/
theorem codecFurtherLaws : Obligations.CodecFurtherLaws := by
  intro W r v f hr hv _
  refine ⟨fun _ => ?valid, ⟨extractW_full hr, injectW_full hv r⟩, fun hf _ => ?outOfRange,
    fun hf => ⟨extractW_of_le hr hf _, injectW_of_le hr hf _ v⟩⟩
  case valid =>
    exact ⟨andNot_injectW hr .., injectW_extractW hr .., (injectW_mod ..).symm⟩
  case outOfRange =>
    have hclip := injectW_clip (Nat.le_of_not_le hf)
    refine ⟨?roundTrip, injectW_injectW .., ?locality, ?low⟩
    case roundTrip => rw [extractW_injectW, Nat.min_eq_right (by omega)]
    case locality => rw [hclip, andNot_injectW hr]
    case low => rw [hclip, hclip, injectW_mod]

/-- Settles O10. -/
theorem singleBitIsLengthOne : Obligations.SingleBitIsLengthOne :=
  fun _ _ v b hr hb => ⟨extractW_one hr b, injectW_one_testBit hr hb v⟩

end Sys2Proof.Machine
end

section
/-! PROOFS. The codec commands: each answers its value in its issue step (40_codec R122 to R128). -/

namespace Sys2Proof.Machine

/-! ### The value of a codec command -/

/-- Where the formulas decide, a codec result is the formula's value. -/
theorem codecResult_toNat {s : State} {W : Width} {f : FieldSpec} {x : Nat} (c : Nat)
    (hf : s.definite W f) (hx : x < 2 ^ W.bits) : (s.codecResult c W f x).toNat = x := by
  have hW : 2 ^ W.bits ≤ 2 ^ 16 := by cases W <;> decide
  rw [State.codecResult, if_pos hf, BitVec.toNat_ofNat, Nat.mod_eq_of_lt (hx.trans_le hW)]

/-- The field of a register value (40_codec R121). -/
theorem extract_toNat {s : State} {W : Width} {f : FieldSpec} {r : Nat} (c : Nat)
    (hf : s.definite W f) (hr : r < 2 ^ W.bits) :
    (s.extract c W f r).toNat = r / 2 ^ f.bitStart % 2 ^ f.length := by
  rw [State.extract, codecResult_toNat c hf (extractW_lt ..), extractW_eq_div_mod hr]

/-- The register value with a field replaced (40_codec R124). -/
theorem inject_toNat {s : State} {W : Width} {f : FieldSpec} (c r v : Nat) (hf : s.definite W f) :
    (s.inject c W f r v).toNat = injectW W.bits r f.bitStart f.length v :=
  codecResult_toNat c hf (injectW_lt ..)

/-- An extracted field fits `W` bits under either policy. -/
theorem extract_lt (s : State) (c : Nat) (W : Width) (f : FieldSpec) (r : Nat) :
    (s.extract c W f r).toNat < 2 ^ W.bits :=
  codecResult_lt s c W f (extractW_lt ..)

/-- An injected word fits `W` bits under either policy. -/
theorem inject_lt (s : State) (c : Nat) (W : Width) (f : FieldSpec) (r v : Nat) :
    (s.inject c W f r v).toNat < 2 ^ W.bits :=
  codecResult_lt s c W f (injectW_lt ..)

/-! ### The issue step -/

/-- `Moves` concludes no more than its condition says. -/
theorem Moves.mono {i : Instr} {s : State} {c : Nat} {P Q : Context → Prop} (h : Moves i s c P)
    (hPQ : ∀ k', P k' → Q k') : Moves i s c Q := by
  obtain ⟨t, k', hexec, honly, hP⟩ := h
  exact ⟨t, k', hexec, honly, hPQ k' hP⟩

/-- The response of a value, as a number (30_encoding R96). -/
theorem value_word (v : Word16) :
    (Response.value v).word = BitVec.ofNat 32 (0x80000000 + v.toNat) :=
  responseWord_eq_ofNat (by simp)

section
variable {s : State} {c : Nat} {bus : BusId} {k : Context}

/-- A command that answers a value does so in its issue step and changes `RESP` only. -/
theorem moves_of_valueRule {i : Instr} {f : Nat → Word16} (h : s.Issuing c bus k)
    (hi : s.ruleOf i = s.valueRule f) :
    Moves i s c fun k' => Answered k k' (BitVec.ofNat 32 (0x80000000 + (f c).toNat)) := by
  obtain ⟨k', honly, hans⟩ := respond_spec k (.value (f c)) h.ctx
  exact ⟨_, k', by rw [exec_eq_run, hi, run_issuing _ h]; rfl, honly, value_word (f c) ▸ hans⟩

/-- The value answered is any number known to equal it. -/
theorem moves_answer_eq {i : Instr} {f : Nat → Word16} {x : Nat} (h : s.Issuing c bus k)
    (hi : s.ruleOf i = s.valueRule f) (hx : (f c).toNat = x) :
    Moves i s c fun k' => Answered k k' (BitVec.ofNat 32 (0x80000000 + x)) :=
  hx ▸ moves_of_valueRule h hi

/-- The value answered is below any bound known of it. -/
theorem moves_answer_lt {i : Instr} {f : Nat → Word16} {n : Nat} (h : s.Issuing c bus k)
    (hi : s.ruleOf i = s.valueRule f) (hn : (f c).toNat < n) :
    Moves i s c fun k' =>
      ∃ x : Nat, x < n ∧ Answered k k' (BitVec.ofNat 32 (0x80000000 + x)) :=
  (moves_of_valueRule h hi).mono fun _ hans => ⟨_, hn, hans⟩

end

/-! ### The statements -/

/-- Settles O11. -/
theorem extractCommandsAnswerTheField : Obligations.ExtractCommandsAnswerTheField :=
  fun _ c _ _ h _ =>
    ⟨fun rv hf => moves_answer_eq h rfl (extract_toNat c hf rv.isLt),
     fun rv hf => moves_answer_eq h rfl (extract_toNat c hf rv.isLt)⟩

/-- Settles O12. -/
theorem injectCommandsAnswerTheNewWord : Obligations.InjectCommandsAnswerTheNewWord :=
  fun _ c _ _ h _ =>
    ⟨fun _ _ hf => moves_answer_eq h rfl (inject_toNat c _ _ hf),
     fun _ _ hf => moves_answer_eq h rfl (inject_toNat c _ _ hf)⟩

/-- Settles O13. -/
theorem codecCommandsNeverFail : Obligations.CodecCommandsNeverFail :=
  fun s c _ _ h f =>
    ⟨fun rv => moves_answer_lt h rfl (extract_lt s c .w8 f rv.toNat),
     fun rv => moves_answer_lt h rfl (extract_lt s c .w16 f rv.toNat),
     fun rv v => moves_answer_lt h rfl (inject_lt s c .w8 f rv.toNat v.toNat),
     fun rv v => moves_answer_lt h rfl (inject_lt s c .w16 f rv.toNat v.toNat)⟩

end Sys2Proof.Machine
end

section
/-! PROOFS. Bit and field access: each step of a full-register read and of `Rmw_W` once, as a move of any
command whose rule has that step (41_field_access R140, R141), and the statements about single steps. -/

namespace Sys2Proof.Machine

/-! ### Bytes and units -/

theorem wordOf_toNat (b0 b1 : Byte) : (wordOf b0 b1).toNat = b0.toNat * 256 + b1.toNat := by
  rw [wordOf, BitVec.toNat_append, ← Nat.shiftLeft_add_eq_or_of_lt b1.isLt, Nat.shiftLeft_eq]

/-- The one byte sent for a register value is its remainder by 256. -/
theorem lowByte_toNat (x : Word16) : (lowByte x).toNat = x.toNat % 256 := by
  rw [lowByte, BitVec.extractLsb'_toNat, Nat.shiftRight_zero]

theorem lowByte_ofNat (n : Nat) : lowByte (BitVec.ofNat 16 n) = BitVec.ofNat 8 n := by
  apply BitVec.eq_of_toNat_eq
  rw [lowByte_toNat, BitVec.toNat_ofNat, BitVec.toNat_ofNat]
  omega

/-- A register value of 8 bits is its low byte. -/
theorem setWidth_lowByte {x : Word16} (h : x.toNat < 256) : (lowByte x).setWidth 16 = x := by
  apply BitVec.eq_of_toNat_eq
  rw [BitVec.toNat_setWidth, lowByte_toNat]
  omega

theorem byte_setWidth_toNat (b : Byte) : (b.setWidth 16).toNat = b.toNat :=
  BitVec.toNat_setWidth_of_le (by decide)

/-- A reply that is not one byte holds no unit of 8 bits. -/
theorem unit_w8_none {reply : ReadReply} (h : ∀ b0, reply ≠ .bytes [b0]) : reply.unit .w8 = none := by
  cases reply with
  | bytes b =>
    refine unitValue_none fun hlen => ?_
    obtain ⟨b0, rfl⟩ := List.length_eq_one_iff.1 hlen
    exact h b0 rfl
  | busError => rfl
  | timeout => rfl

/-- A reply that is not two bytes holds no unit of 16 bits. -/
theorem unit_w16_none {reply : ReadReply} (h : ∀ b0 b1, reply ≠ .bytes [b0, b1]) :
    reply.unit .w16 = none := by
  cases reply with
  | bytes b =>
    refine unitValue_none fun hlen => ?_
    obtain ⟨b0, b1, rfl⟩ := List.length_eq_two.1 hlen
    exact h b0 b1 rfl
  | busError => rfl
  | timeout => rfl

/-- A unit comes in a reply of exactly its bytes (41_field_access R140). -/
theorem bytes_of_unit {W : Width} {reply : ReadReply} {r : Word16} (h : reply.unit W = some r) :
    ∃ b, reply = .bytes b ∧ b.length = W.bytes := by
  cases reply with
  | bytes b =>
    refine ⟨b, rfl, Decidable.byContradiction fun hlen => ?_⟩
    rw [unit_bytes, unitValue_none hlen] at h
    cases h
  | busError => cases h
  | timeout => cases h

/-! ### The response words -/

/-- The response of a successful read, as a number (30_encoding R96). -/
theorem boolRead_true_word (v : Word16) :
    (Response.boolRead true v).word = BitVec.ofNat 32 (0x80000000 + v.toNat) := value_word v

/-- The response of a failed read is its value alone: `OK`, `KIND` and `COUNT` are 0. -/
theorem boolRead_false_word (v : Word16) : (Response.boolRead false v).word = v.setWidth 32 := by
  apply BitVec.eq_of_toNat_eq
  rw [BitVec.toNat_setWidth_of_le (by decide), Response.word, responseWord_toNat]
  simp

/-- Where the formulas decide, the injected word is the formula's value (40_codec R124). -/
theorem inject_eq_ofNat {s : State} {W : Width} {f : FieldSpec} (c r v : Nat) (hf : s.definite W f) :
    s.inject c W f r v = BitVec.ofNat 16 (injectW W.bits r f.bitStart f.length v) := if_pos hf

/-- Where the formulas decide, the field of length 1 is the bit (40_codec R132). -/
theorem extract_bit_toNat {s : State} {W : Width} {b r : Nat} (c : Nat)
    (hb : s.definite W (FieldSpec.bit b)) (hr : r < 2 ^ W.bits) :
    (s.extract c W (FieldSpec.bit b) r).toNat = (r.testBit b).toNat := by
  rw [State.extract, codecResult_toNat c hb (extractW_lt ..)]
  exact extractW_one hr b

/-! ### One step of a rule, as a move -/

/-- A command moves as the step of its rule that runs. -/
theorem moves_of_run {i : Instr} {s t : State} {c : Nat} {P : Context → Prop}
    (hrun : s.run (s.ruleOf i) = .next t) (ht : ∃ k', OnlyContext s t c k' ∧ P k') : Moves i s c P := by
  obtain ⟨k', honly, hP⟩ := ht
  exact ⟨t, k', (exec_eq_run i s).trans hrun, honly, hP⟩

section
variable {i : Instr} {s : State} {c : Nat} {k : Context} {W : Width} {dev : DevAddr} {reg : RegAddr}

/-- The issue step that sends one read. -/
theorem moves_sendRead {bus : BusId} {len : Nat} {t : Millis} (h : s.Issuing c bus k)
    (hi : (s.ruleOf i).issue c k bus = s.sendRead c k bus i dev (some reg) len t) :
    Moves i s c fun k' =>
      Sent k k' .rdWait ⟨i, bus, some t⟩ (.read bus dev (some reg) len t) :=
  moves_of_run (run_issuing _ h) (hi ▸ sendRead_spec bus i dev (some reg) len t h.ctx)

/-- A full unit ends a read with any number known to be the value made of it. -/
theorem moves_reportRead_full {g : Nat → Word16 → Word16} {reply : ReadReply} {r : Word16} {x : Nat}
    (h : s.ReadAnswered c k reply) (hi : (s.ruleOf i).readReply = some (s.reportRead W g))
    (hu : reply.unit W = some r) (hx : (g c r).toNat = x) :
    Moves i s c fun k' => Answered k k' (BitVec.ofNat 32 (0x80000000 + x)) :=
  moves_of_run (run_readAnswered h hi)
    (hx ▸ boolRead_true_word (g c r) ▸ reportRead_full g h.ctx hu)

/-- Anything else ends it with failure and some value. -/
theorem moves_reportRead_failed {g : Nat → Word16 → Word16} {reply : ReadReply}
    (h : s.ReadAnswered c k reply) (hi : (s.ruleOf i).readReply = some (s.reportRead W g))
    (hu : reply.unit W = none) :
    Moves i s c fun k' => ∃ v : Word16, Answered k k' (v.setWidth 32) := by
  obtain ⟨k', honly, ha⟩ := reportRead_failed g h.ctx hu
  exact moves_of_run (run_readAnswered h hi) ⟨k', honly, _, boolRead_false_word _ ▸ ha⟩

/-- A full unit makes a bit or field write send the changed unit back. -/
theorem moves_modify_full {f : FieldSpec} {v : Nat} {reply : ReadReply} {r : Word16}
    (h : s.ReadAnswered c k reply) (hi : (s.ruleOf i).readReply = some (s.modify W dev reg f v))
    (hu : reply.unit W = some r) :
    Moves i s c fun k' => SentBack k k' (s.inject c W f r.toNat v)
      (.write k.cmdl.bus dev reg (unitBytes W (s.inject c W f r.toNat v))) :=
  moves_of_run (run_readAnswered h hi) (modify_full dev reg f v h.ctx hu)

/-- Where the formulas decide, the changed unit is the formula's value. -/
theorem moves_modify_definite {f : FieldSpec} {v : Nat} {reply : ReadReply} {r : Word16} {x : Word16}
    (h : s.ReadAnswered c k reply) (hi : (s.ruleOf i).readReply = some (s.modify W dev reg f v))
    (hu : reply.unit W = some r) (hf : s.definite W f)
    (hx : x = BitVec.ofNat 16 (injectW W.bits r.toNat f.bitStart f.length v)) :
    Moves i s c fun k' => SentBack k k' x (.write k.cmdl.bus dev reg (unitBytes W x)) := by
  rw [hx, ← inject_eq_ofNat c r.toNat v hf]
  exact moves_modify_full h hi hu

/-- Anything else ends it with failure, and nothing is sent. -/
theorem moves_modify_failed {f : FieldSpec} {v : Nat} {reply : ReadReply}
    (h : s.ReadAnswered c k reply) (hi : (s.ruleOf i).readReply = some (s.modify W dev reg f v))
    (hu : reply.unit W = none) : Moves i s c fun k' => Answered k k' 0 :=
  moves_of_run (run_readAnswered h hi) (modify_failed dev reg f v h.ctx hu)

/-- The write-reply step reports the reply. -/
theorem moves_reportWrite {reply : WriteReply} (h : s.WriteAnswered c k reply)
    (hi : (s.ruleOf i).writeReply = some s.reportWrite) :
    Moves i s c fun k' => Answered k k' (Response.write (reply == .ok)).word :=
  moves_of_run (run_writeAnswered h hi) (reportWrite_spec reply h.ctx)

end

/-! ### The statements about the reads -/

/-- Settles O14. -/
theorem fieldReadsSendOneRead : Obligations.FieldReadsSendOneRead := fun _ _ _ _ h _ _ _ _ _ =>
  ⟨moves_sendRead h rfl, moves_sendRead h rfl, moves_sendRead h rfl, moves_sendRead h rfl⟩

/-- Settles O15. -/
theorem fieldReadsAnswerTheField : Obligations.FieldReadsAnswerTheField := by
  intro s c k dev reg b f t
  refine ⟨fun b0 h => ?byte, fun b0 b1 h => ?word⟩
  case byte =>
    have hr : (b0.setWidth 16).toNat < 2 ^ 8 := byte_setWidth_toNat b0 ▸ b0.isLt
    simp only [← byte_setWidth_toNat b0]
    exact ⟨fun hb => moves_reportRead_full h rfl rfl (extract_bit_toNat c hb hr),
      fun hf => moves_reportRead_full h rfl rfl (extract_toNat c hf hr)⟩
  case word =>
    have hr : (wordOf b0 b1).toNat < 2 ^ 16 := (wordOf b0 b1).isLt
    simp only [← wordOf_toNat]
    exact ⟨fun hb => moves_reportRead_full h rfl rfl (extract_bit_toNat c hb hr),
      fun hf => moves_reportRead_full h rfl rfl (extract_toNat c hf hr)⟩

/-- Settles O16. -/
theorem failedReadsCollapse : Obligations.FailedReadsCollapse := by
  intro s c k reply h dev reg b f t
  simp only [List.forall_mem_cons, List.not_mem_nil, false_implies, implies_true, and_true]
  refine ⟨fun hb => ?byte, fun hb => ?word⟩
  case byte =>
    have hu := unit_w8_none hb
    exact ⟨moves_reportRead_failed h rfl hu, moves_reportRead_failed h rfl hu,
      moves_reportRead_failed h rfl hu⟩
  case word =>
    have hu := unit_w16_none hb
    exact ⟨moves_reportRead_failed h rfl hu, moves_reportRead_failed h rfl hu,
      moves_reportRead_failed h rfl hu⟩

/-! ### The statements about the writes -/

/-- Settles O17. -/
theorem fieldWritesReadFirst : Obligations.FieldWritesReadFirst := by
  intro s c bus k h dev reg b f bit v8 v16
  simp only [List.forall_mem_cons, List.not_mem_nil, false_implies, implies_true, and_true]
  exact ⟨⟨moves_sendRead h rfl, moves_sendRead h rfl⟩, moves_sendRead h rfl, moves_sendRead h rfl⟩

/-- Settles O18. -/
theorem byteFieldWritesSendWholeByteBack : Obligations.ByteFieldWritesSendWholeByteBack := by
  intro s c k b0 h dev reg b f bit v
  simp only [← lowByte_ofNat, ← byte_setWidth_toNat b0]
  exact ⟨fun hb => moves_modify_definite h rfl rfl hb rfl,
    fun hf => moves_modify_definite h rfl rfl hf rfl⟩

/-- Settles O19. -/
theorem wordFieldWritesSendWholeWordBack : Obligations.WordFieldWritesSendWholeWordBack := by
  intro s c k b0 b1 h dev reg b f bit v
  simp only [← wordOf_toNat]
  exact ⟨fun hb => (moves_modify_definite h rfl rfl hb rfl).mono fun _ hsent => ⟨_, rfl, hsent⟩,
    fun hf => (moves_modify_definite h rfl rfl hf rfl).mono fun _ hsent => ⟨_, rfl, hsent⟩⟩

/-- Settles O20. -/
theorem fieldWritesAlwaysWriteAfterRead : Obligations.FieldWritesAlwaysWriteAfterRead := by
  intro s c k dev reg b f bit v8 v16
  simp only [List.forall_mem_cons, List.not_mem_nil, false_implies, implies_true, and_true]
  refine ⟨fun b0 h => ?byte, fun b0 b1 h => ?word⟩
  case byte =>
    have hsend {i : Instr} {g : FieldSpec} {v : Nat}
        (hi : (s.ruleOf i).readReply = some (s.modify .w8 dev reg g v)) :
        Moves i s c fun k' => ∃ x : Byte,
          SentBack k k' (x.setWidth 16) (.write k.cmdl.bus dev reg [x]) := by
      refine (moves_modify_full h hi rfl).mono fun _ hsent =>
        ⟨lowByte (s.inject c .w8 g (b0.setWidth 16).toNat v), ?_⟩
      rw [setWidth_lowByte (inject_w8_lt ..)]
      exact hsent
    exact ⟨hsend rfl, hsend rfl⟩
  case word =>
    exact ⟨(moves_modify_full h rfl rfl).mono fun _ hsent => ⟨_, hsent⟩,
      (moves_modify_full h rfl rfl).mono fun _ hsent => ⟨_, hsent⟩⟩

/-- Settles O21. -/
theorem failedReadPreventsWrite : Obligations.FailedReadPreventsWrite := by
  intro s c k reply h dev reg b f bit v8 v16
  simp only [List.forall_mem_cons, List.not_mem_nil, false_implies, implies_true, and_true]
  refine ⟨fun hb => ?byte, fun hb => ?word⟩
  case byte =>
    have hu := unit_w8_none hb
    exact ⟨moves_modify_failed h rfl hu, moves_modify_failed h rfl hu⟩
  case word =>
    have hu := unit_w16_none hb
    exact ⟨moves_modify_failed h rfl hu, moves_modify_failed h rfl hu⟩

/-- Settles O22: the rule of each of the eight has the same write-reply step. -/
theorem writeRepliesEndTheWrites : Obligations.WriteRepliesEndTheWrites := by
  intro s c k reply h dev reg b n f bit v8 v16 i hi
  have hrule : (s.ruleOf i).writeReply = some s.reportWrite := by
    simp only [List.mem_cons, List.not_mem_nil, or_false] at hi
    rcases hi with rfl | rfl | rfl | rfl | rfl | rfl | rfl | rfl <;> rfl
  cases reply with
  | ok => exact moves_reportWrite h hrule
  | error => exact moves_reportWrite h hrule

/-! ### A write request only after a full read -/

/-- The commands with a read-reply step and a write request are the bit and field writes. -/
theorem modify_of_readReply_of_writeRequest {s : State} {i : Instr} {q : Context} {bus : BusId}
    {g : Nat → Context → ReadReply → State} {w : Request} (hg : (s.ruleOf i).readReply = some g)
    (hw : writeRequest q bus i = some w) :
    ∃ W dev reg f v, g = s.modify W dev reg f v ∧
      ∀ b t, readRequest b t i = some (.read b dev (some reg) W.bytes t) := by
  cases i with
  | writeBit => cases hg; exact ⟨_, _, _, _, _, rfl, fun _ _ => rfl⟩
  | writeBitW => cases hg; exact ⟨_, _, _, _, _, rfl, fun _ _ => rfl⟩
  | writeBits => cases hg; exact ⟨_, _, _, _, _, rfl, fun _ _ => rfl⟩
  | writeBitsW => cases hg; exact ⟨_, _, _, _, _, rfl, fun _ _ => rfl⟩
  | _ => cases hg <;> cases hw

/-- A read reply that is handled was awaited and allowed, and runs the read-reply step. -/
theorem step_readReply_next {s t : State} {c : Nat} {reply : ReadReply} {rest : List Input}
    (hin : s.inputs = .readReply c reply :: rest) (h : step s = .next t) :
    ∃ k g, s.ReadAnswered c k reply ∧ (s.ruleOf k.cmdl.cmd).readReply = some g ∧
      t = (g c k reply).advance := by
  rcases step_next h with ⟨hm, -⟩ | ⟨_, _, _, _, _, _, hm, -⟩ | ⟨_, _, _, k, g, hm, hR, hg, ht⟩ |
    ⟨_, _, _, _, _, hm, -⟩ | ⟨_, _, _, _, _, hm, -⟩ | ⟨_, _, _, _, _, hm, -⟩ | ⟨_, _, _, hm, -⟩ |
    ⟨_, hm, -⟩ | ⟨_, _, hm, -⟩
  all_goals
    rw [hin] at hm
    cases hm
  exact ⟨k, g, hR, hg, ht⟩

/-- While the read of a command waits, it is the read request of 20_memory R64. -/
theorem outstanding_of_rdWait {k : Context} {r : Millis → Request} (hk : k.coherent)
    (hp : k.phase = .rdWait) (hr : ∀ t, readRequest k.cmdl.bus t k.cmdl.cmd = some (r t)) :
    ∃ t, k.outstanding = some (r t) := by
  obtain ⟨hsome, hreq, -⟩ := (Context.coherent_rdWait hp).1 hk
  cases ht : k.cmdl.timeout with
  | none =>
    rw [hreq, ht] at hsome
    cases hsome
  | some t => exact ⟨t, by rw [hreq, ht, Option.bind_some, hr]⟩

/-- Settles O49.  A command that leaves a request behind at its read-reply step is a bit or field write,
and such a command sends its write only when the reply was a full unit. -/
theorem noWriteWithoutFullRead : Obligations.NoWriteWithoutFullRead := by
  intro s t c k k' reply rest hinv hin hc hstep hc' hsent
  obtain ⟨q, g, hR, hg, rfl⟩ := step_readReply_next hin hstep
  obtain rfl : q = k := Option.some.inj (hR.ctx.symm.trans hc)
  have hafter {k₁ : Context} (h : OnlyContext s (g c q reply) c k₁) : k₁ = k' :=
    Option.some.inj (h.here.symm.trans ((State.advance_ctx? ..).symm.trans hc'))
  obtain ⟨k₁, honly, hhandled⟩ := readReply_effect reply hc hg
  obtain rfl := hafter honly
  cases hhandled with
  | ended p he => exact absurd he.outstanding hsent
  | sentBack x r hb req byte size =>
    obtain ⟨W, dev, reg, f, v, rfl, hread⟩ := modify_of_readReply_of_writeRequest hg req
    cases hu : reply.unit W with
    | none =>
      obtain ⟨k₂, honly₂, ha⟩ := modify_failed dev reg f v hc hu
      obtain rfl := hafter honly₂
      exact absurd ha.outstanding hsent
    | some u =>
      obtain ⟨k₂, honly₂, hback⟩ := modify_full dev reg f v hc hu
      obtain rfl := hafter honly₂
      obtain ⟨b, hbytes, hlen⟩ := bytes_of_unit hu
      exact ⟨W, b, dev, reg, _, hbytes, hlen, hback.rvl, hback.outstanding,
        outstanding_of_rdWait (hinv c q hc).coherent hR.waits fun t => hread _ t⟩

end Sys2Proof.Machine
end

section
/-! PROOFS. A whole command beside an environment that answers its requests (20_memory R73,
95_test_vectors Part 8): a command that ends at its read, and `Rmw_W` through both its requests. -/

namespace Sys2Proof.Machine

/-! ### The bytes of a unit -/

theorem lowByte_setWidth (b : Byte) : lowByte (b.setWidth 16) = b := by
  apply BitVec.eq_of_toNat_eq
  rw [lowByte_toNat, byte_setWidth_toNat, Nat.mod_eq_of_lt b.isLt]

theorem highByte_wordOf (b0 b1 : Byte) : highByte (wordOf b0 b1) = b0 :=
  BitVec.extractLsb'_append_eq_left

theorem lowByte_wordOf (b0 b1 : Byte) : lowByte (wordOf b0 b1) = b1 :=
  BitVec.extractLsb'_append_eq_right

theorem wordOf_highByte_lowByte (x : Word16) : wordOf (highByte x) (lowByte x) = x := by
  apply BitVec.eq_of_toNat_eq
  rw [wordOf_toNat, lowByte_toNat, highByte, BitVec.extractLsb'_toNat, Nat.shiftRight_eq_div_pow]
  omega

/-- The bytes of a value that fits `W` bits are a unit with that value. -/
theorem unit_unitBytes {W : Width} {x : Word16} (hx : x.toNat < 2 ^ W.bits) :
    (ReadReply.bytes (unitBytes W x)).unit W = some x := by
  cases W with
  | w8 => exact congrArg some (setWidth_lowByte hx)
  | w16 => exact congrArg some (wordOf_highByte_lowByte x)

/-- A full reply has no more bytes than were asked for. -/
theorem breach_unitBytes (W : Width) (x : Word16) (t : Millis) :
    (ReadReply.bytes (unitBytes W x)).breach W.bytes t = none :=
  if_neg (by rw [unitBytes_length]; exact lt_irrefl _)

/-! ### One move on a given input -/

/-- The block makes a move on input `i` that leaves context `c` with `P`. -/
def State.Feeds (s : State) (i : Input) (c : Nat) (P : Context → Prop) : Prop :=
  ∃ t k', s.feed i = some t ∧ t.ctx? c = some k' ∧ P k'

section
variable {s : State} {c : Nat} {k : Context} {P : Context → Prop}

/-- A move that runs the meaning of a command leaves its context as that meaning does. -/
theorem feeds_of_moves {i : Input} {cmd : Instr}
    (hstep : step { s with inputs := [i] } = finish (exec cmd { s with inputs := [i] }))
    (hm : Moves cmd { s with inputs := [i] } c P) : s.Feeds i c P := by
  obtain ⟨t, k', hexec, honly, hP⟩ := hm
  refine ⟨t.advance, k', ?_, (State.advance_ctx? t c).trans honly.here, hP⟩
  rw [State.feed, hstep, hexec]
  rfl

/-- A legal word presented to an idle context. -/
theorem feeds_command {bus : BusId} {w : CommandWord} {cmd : Instr} (hc : s.ctx? c = some k)
    (hp : k.phase = .idle) (hd : decode w = .ok cmd)
    (hm : ∀ u : State, u.Issuing c bus k → Moves cmd u c P) : s.Feeds (.command c bus w) c P := by
  refine feeds_of_moves (cmd := cmd) (by simp only [step, stepCommand, hd]) (hm _ ?_)
  exact ⟨⟨w, [], rfl⟩, (State.ctx?_with_inputs ..).trans hc, hp⟩

/-- An allowed reply to the outstanding read. -/
theorem feeds_readReply {reply : ReadReply} {bus : BusId} {dev : DevAddr} {reg : Option RegAddr}
    {len : Nat} {t : Millis} (hc : s.ctx? c = some k) (hw : k.phase = .rdWait)
    (ho : k.outstanding = some (.read bus dev reg len t)) (hb : reply.breach len t = none)
    (hm : ∀ u : State, u.ReadAnswered c k reply → Moves k.cmdl.cmd u c P) :
    s.Feeds (.readReply c reply) c P := by
  have hc' := (State.ctx?_with_inputs s [.readReply c reply] c).trans hc
  have hbusy : k.phase ≠ .idle := by rw [hw]; exact nofun
  refine feeds_of_moves (cmd := k.cmdl.cmd) ?_ (hm _ ?_)
  · simp only [step, stepReply_of_waiting hc' hbusy]
  · exact ⟨⟨[], rfl⟩, hc', hw, bus, dev, reg, len, t, ho, hb⟩

/-- A reply to the outstanding write. -/
theorem feeds_writeReply {reply : WriteReply} {bus : BusId} {dev : DevAddr} {reg : RegAddr}
    {bytes : List Byte} (hc : s.ctx? c = some k) (hw : k.phase = .wrWait)
    (ho : k.outstanding = some (.write bus dev reg bytes))
    (hm : ∀ u : State, u.WriteAnswered c k reply → Moves k.cmdl.cmd u c P) :
    s.Feeds (.writeReply c reply) c P := by
  have hc' := (State.ctx?_with_inputs s [.writeReply c reply] c).trans hc
  have hbusy : k.phase ≠ .idle := by rw [hw]; exact nofun
  refine feeds_of_moves (cmd := k.cmdl.cmd) ?_ (hm _ ?_)
  · simp only [step, stepReply_of_waiting hc' hbusy]
  · exact ⟨⟨[], rfl⟩, hc', hw, bus, dev, reg, bytes, ho⟩

end

/-! ### Serving a request -/

section
variable {D : Type} {answer : D → Nat → Request → Input × D} {s : State} {c : Nat} {k : Context}
  {d d' : D}

/-- Nothing is outstanding, so nothing is answered. -/
theorem serve_of_none (hc : s.ctx? c = some k) (ho : k.outstanding = none) :
    serve answer c (s, d) = some (s, d) := by
  simp only [serve, hc, ho]

/-- The environment's answer is fed to the block. -/
theorem serve_of_feeds {req : Request} {i : Input} {P : Context → Prop} (hc : s.ctx? c = some k)
    (ho : k.outstanding = some req) (hans : answer d c req = (i, d')) (hfeed : s.Feeds i c P) :
    ∃ t k', serve answer c (s, d) = some (t, d') ∧ t.ctx? c = some k' ∧ P k' := by
  obtain ⟨t, k', ht, hk', hP⟩ := hfeed
  exact ⟨t, k', by simp only [serve, hc, ho, hans, ht], hk', hP⟩

end

/-! ### A whole command -/

/-- The whole command of word `w` ends, with the environment in `d'` and the response `p`. -/
def RunsTo {D : Type} (answer : D → Nat → Request → Input × D) (c : Nat) (bus : BusId)
    (w : CommandWord) (x : State × D) (d' : D) (p : ResponseWord) : Prop :=
  ∃ t k', runCommand answer c bus w x = some (t, d') ∧ t.ctx? c = some k' ∧ k'.phase = .idle ∧
    k'.resp = p

section
variable {D : Type} {answer : D → Nat → Request → Input × D} {s : State} {c : Nat} {k : Context}
  {d d₁ d₂ : D} {bus : BusId} {w : CommandWord} {i : Instr} {dev : DevAddr} {reg : RegAddr}
  {len : Nat} {reply : ReadReply}
  (hc : s.ctx? c = some k) (hp : k.phase = .idle) (hd : decode w = .ok i)

include hc hp hd

/-- A command that sends a read: it is presented, its read is answered, and a second request is served
if there is one. -/
theorem runCommand_of_read {P : Context → Prop}
    (hissue : ∀ u : State, (u.ruleOf i).issue c k bus =
      u.sendRead c k bus i dev (some reg) len u.defaultTimeout)
    (hread : ∀ t, answer d c (.read bus dev (some reg) len t) = (.readReply c reply, d₁))
    (hbreach : ∀ t, reply.breach len t = none)
    (hreply : ∀ (u : State) (q : Context), q.cmdl.cmd = i → q.cmdl.bus = bus →
      u.ReadAnswered c q reply → Moves i u c P) :
    ∃ t k', runCommand answer c bus w (s, d) = serve answer c (t, d₁) ∧ t.ctx? c = some k' ∧
      P k' := by
  have hissued : s.Feeds (.command c bus w) c fun k' =>
      ∃ t, Sent k k' .rdWait ⟨i, bus, some t⟩ (.read bus dev (some reg) len t) :=
    feeds_command hc hp hd fun u hu => (moves_sendRead hu (hissue u)).mono fun _ hs => ⟨_, hs⟩
  obtain ⟨s₁, k₁, hfeed, hc₁, tm, hsent⟩ := hissued
  have hcmd : k₁.cmdl.cmd = i := by rw [hsent.cmdl]
  have hbus : k₁.cmdl.bus = bus := by rw [hsent.cmdl]
  have hreplied : s₁.Feeds (.readReply c reply) c P :=
    feeds_readReply hc₁ hsent.phase hsent.outstanding (hbreach tm) fun u hu =>
      hcmd ▸ hreply u k₁ hcmd hbus hu
  obtain ⟨s₂, k₂, hserve, hc₂, hP⟩ := serve_of_feeds hc₁ hsent.outstanding (hread tm) hreplied
  refine ⟨s₂, k₂, ?_, hc₂, hP⟩
  simp only [runCommand, hfeed, hserve, Option.bind_some]

/-- A command that the reply to its read ends. -/
theorem runsTo_of_read {p : ResponseWord}
    (hissue : ∀ u : State, (u.ruleOf i).issue c k bus =
      u.sendRead c k bus i dev (some reg) len u.defaultTimeout)
    (hread : ∀ t, answer d c (.read bus dev (some reg) len t) = (.readReply c reply, d₁))
    (hbreach : ∀ t, reply.breach len t = none)
    (hreply : ∀ (u : State) (q : Context), u.ReadAnswered c q reply →
      Moves i u c fun k' => Answered q k' p) : RunsTo answer c bus w (s, d) d₁ p := by
  obtain ⟨t, k', hrun, hk', q, hans⟩ := runCommand_of_read (P := fun k' => ∃ q, Answered q k' p)
    hc hp hd hissue hread hbreach fun u q _ _ hu => (hreply u q hu).mono fun _ ha => ⟨q, ha⟩
  exact ⟨t, k', hrun.trans (serve_of_none hk' hans.outstanding), hk', hans.phase, hans.resp⟩

/-! ### `Rmw_W` and field reads (41_field_access R140, R141) -/

variable {W : Width} {f : FieldSpec}

/-- A read that fails ends `Rmw_W`: nothing is written. -/
theorem runsTo_rmw_failed {v : Nat} (hi : ∀ u : State, u.ruleOf i = u.rmwRule i W dev reg f v)
    (hread : ∀ t, answer d c (.read bus dev (some reg) W.bytes t) = (.readReply c reply, d₁))
    (hbreach : ∀ t, reply.breach W.bytes t = none) (hu : reply.unit W = none) :
    RunsTo answer c bus w (s, d) d₁ 0 :=
  runsTo_of_read hc hp hd (fun u => by rw [hi]; rfl) hread hbreach fun u _ hR =>
    moves_modify_failed hR (congrArg CommandRule.readReply (hi u)) hu

/-- `Rmw_W` on a valid field reads the unit `r` and writes the unit with the field replaced. -/
theorem runsTo_rmw {v : Nat} {r x : Word16} (hi : ∀ u : State, u.ruleOf i = u.rmwRule i W dev reg f v)
    (hf : f.validFor W) (hr : r.toNat < 2 ^ W.bits)
    (hx : x = BitVec.ofNat 16 (injectW W.bits r.toNat f.bitStart f.length v))
    (hread : ∀ t, answer d c (.read bus dev (some reg) W.bytes t) =
      (.readReply c (.bytes (unitBytes W r)), d₁))
    (hwrite : answer d₁ c (.write bus dev reg (unitBytes W x)) = (.writeReply c .ok, d₂)) :
    RunsTo answer c bus w (s, d) d₂ 0x80000000 := by
  obtain ⟨t, k₁, hrun, hc₁, hcmd, q, hsent⟩ := runCommand_of_read
    (P := fun k' => k'.cmdl.cmd = i ∧
      ∃ q, SentBack q k' x (.write bus dev reg (unitBytes W x))) hc hp hd
    (fun u => by rw [hi]; rfl) hread (breach_unitBytes W r) fun u q hcmd hbus hR =>
      (moves_modify_definite hR (congrArg CommandRule.readReply (hi u)) (unit_unitBytes hr)
        (.inl hf) hx).mono fun _ hs => ⟨(congrArg Latched.cmd hs.cmdl).trans hcmd, q, hbus ▸ hs⟩
  have hended : t.Feeds (.writeReply c .ok) c fun k' => Answered k₁ k' 0x80000000 :=
    feeds_writeReply hc₁ hsent.phase hsent.outstanding fun u hW =>
      moves_reportWrite hW (hcmd ▸ congrArg CommandRule.writeReply (hi u))
  obtain ⟨t₂, k₂, hserve, hc₂, hans⟩ := serve_of_feeds hc₁ hsent.outstanding hwrite hended
  exact ⟨t₂, k₂, hrun.trans hserve, hc₂, hans.phase, hans.resp⟩

/-- A field read on a valid field answers the field of the unit `r`. -/
theorem runsTo_fieldRead {r : Word16} (hi : ∀ u : State, u.ruleOf i =
      u.unitReadRule i W dev reg none fun c r => u.extract c W f r.toNat)
    (hf : f.validFor W) (hr : r.toNat < 2 ^ W.bits)
    (hread : ∀ t, answer d c (.read bus dev (some reg) W.bytes t) =
      (.readReply c (.bytes (unitBytes W r)), d₁)) :
    RunsTo answer c bus w (s, d) d₁
      (BitVec.ofNat 32 (0x80000000 + extractW W.bits r.toNat f.bitStart f.length)) :=
  runsTo_of_read hc hp hd (fun u => by rw [hi]; rfl) hread (breach_unitBytes W r) fun u _ hR =>
    moves_reportRead_full hR (congrArg CommandRule.readReply (hi u)) (unit_unitBytes hr)
      (codecResult_toNat c (.inl hf) (extractW_lt ..))

end

/-! ### A device that stores a register -/

/-- Seen from context `c`, the environment keeps a register of `W` bits: `held d r` says that it holds
`r` in state `d`; a read delivers what it holds and a write replaces it (20_memory R73). -/
structure StoresUnit {D : Type} (answer : D → Nat → Request → Input × D) (W : Width) (c : Nat)
    (bus : BusId) (dev : DevAddr) (reg : RegAddr) (held : D → Word16 → Prop) : Prop where
  /-- What is held has `W` bits. -/
  fits : ∀ {d r}, held d r → r.toNat < 2 ^ W.bits
  /-- A read delivers it and keeps it. -/
  read : ∀ {d r}, held d r → ∃ d', (∀ t, answer d c (.read bus dev (some reg) W.bytes t) =
    (.readReply c (.bytes (unitBytes W r)), d')) ∧ held d' r
  /-- A write replaces it. -/
  write : ∀ {d r x}, held d r → x.toNat < 2 ^ W.bits → ∃ d',
    answer d c (.write bus dev reg (unitBytes W x)) = (.writeReply c .ok, d') ∧ held d' x

section
variable {D : Type} {answer : D → Nat → Request → Input × D} {W : Width} {c : Nat} {bus : BusId}
  {dev : DevAddr} {reg : RegAddr} {held : D → Word16 → Prop} {s : State} {k : Context} {d : D}
  {r : Word16} {iw ir : Instr} (hdev : StoresUnit answer W c bus dev reg held) (hheld : held d r)
  (hc : s.ctx? c = some k) (hp : k.phase = .idle)

include hdev hheld hc hp

/-- On such a device the field written is the field read (41_field_access R150 (a)): the write leaves
the injected word there, and extraction from it gives the value's low bits (40_codec R129 (a)). -/
theorem fieldRoundTrip {f : FieldSpec} {v : Nat} (hf : f.validFor W)
    (hiw : ∀ u : State, u.ruleOf iw = u.rmwRule iw W dev reg f v)
    (hir : ∀ u : State, u.ruleOf ir =
      u.unitReadRule ir W dev reg none fun c r => u.extract c W f r.toNat)
    (hwfw : iw.wf = true) (hwfr : ir.wf = true) :
    ∃ x y k', runCommand answer c bus (encode iw) (s, d) = some x ∧
      runCommand answer c bus (encode ir) x = some y ∧ y.1.ctx? c = some k' ∧ k'.phase = .idle ∧
      k'.resp = BitVec.ofNat 32 (0x80000000 + v % 2 ^ f.length) := by
  have hx : (BitVec.ofNat 16 (injectW W.bits r.toNat f.bitStart f.length v)).toNat =
      injectW W.bits r.toNat f.bitStart f.length v :=
    inject_eq_ofNat (s := s) c r.toNat v (.inl hf) ▸ inject_toNat c r.toNat v (.inl hf)
  obtain ⟨d₁, hread, hheld₁⟩ := hdev.read hheld
  obtain ⟨d₂, hwrite, hheld₂⟩ := hdev.write hheld₁ (hx ▸ injectW_lt ..)
  obtain ⟨d₃, hread₂, -⟩ := hdev.read hheld₂
  obtain ⟨s₂, k₂, hrunw, hc₂, hp₂, -⟩ :=
    runsTo_rmw hc hp (decode_encode hwfw) hiw hf (hdev.fits hheld) rfl hread hwrite
  obtain ⟨s₃, k₃, hrunr, hc₃, hp₃, hresp⟩ :=
    runsTo_fieldRead hc₂ hp₂ (decode_encode hwfr) hir hf (hdev.fits hheld₂) hread₂
  refine ⟨_, _, k₃, hrunw, hrunr, hc₃, hp₃, ?_⟩
  rw [hresp, hx, extractW_injectW, Nat.min_eq_left (Nat.le_sub_of_add_le' hf)]

/-- So is a bit, which is its own low bit. -/
theorem bitRoundTrip {b : Nat} {bit : BitVec 1} (hb : b < W.bits)
    (hiw : ∀ u : State, u.ruleOf iw = u.rmwRule iw W dev reg (FieldSpec.bit b) bit.toNat)
    (hir : ∀ u : State, u.ruleOf ir =
      u.unitReadRule ir W dev reg none fun c r => u.extract c W (FieldSpec.bit b) r.toNat)
    (hwfw : iw.wf = true) (hwfr : ir.wf = true) :
    ∃ x y k', runCommand answer c bus (encode iw) (s, d) = some x ∧
      runCommand answer c bus (encode ir) x = some y ∧ y.1.ctx? c = some k' ∧ k'.phase = .idle ∧
      k'.resp = BitVec.ofNat 32 (0x80000000 + bit.toNat) := by
  have hrun := fieldRoundTrip hdev hheld hc hp (f := FieldSpec.bit b) hb hiw hir hwfw hwfr
  rwa [FieldSpec.bit, Nat.mod_eq_of_lt bit.isLt] at hrun

end

/-! ### The reference devices -/

/-- `StoreDev8` in state `d` holds `r` in the register: `M8` there is `r`. -/
def StoreDev8.Holds (bus : BusId) (dev : DevAddr) (reg : RegAddr) (d : StoreDev8) (r : Word16) : Prop :=
  d.regs.wf = true ∧ r = (d.regs.read (registerKey bus dev reg)).setWidth 16

/-- `StoreDev16` in state `d` holds `r` in the register: `M16` there is `r`. -/
def StoreDev16.Holds (bus : BusId) (dev : DevAddr) (reg : RegAddr) (d : StoreDev16) (r : Word16) :
    Prop :=
  d.regs.wf = true ∧ r = wordOf (d.regs.read (2 * registerKey bus dev reg))
    (d.regs.read (2 * registerKey bus dev reg + 1))

theorem storeDev8_storesUnit (c : Nat) (bus : BusId) (dev : DevAddr) (reg : RegAddr) :
    StoresUnit StoreDev8.answer .w8 c bus dev reg (StoreDev8.Holds bus dev reg) where
  fits := by
    rintro d r ⟨-, rfl⟩
    rw [byte_setWidth_toNat]
    exact (d.regs.read _).isLt
  read := by
    rintro d r ⟨hwf, rfl⟩
    exact ⟨d.point bus dev (reg + 1), fun _ => by rw [unitBytes, lowByte_setWidth]; rfl, hwf, rfl⟩
  write := by
    rintro d r x ⟨hwf, -⟩ hx
    refine ⟨_, rfl, Memory.wf_write _ _ _ hwf, ?_⟩
    exact (setWidth_lowByte hx).symm.trans
      (congrArg _ (Memory.read_write_self _ _ _ hwf).symm)

theorem storeDev16_storesUnit (c : Nat) (bus : BusId) (dev : DevAddr) (reg : RegAddr) :
    StoresUnit StoreDev16.answer .w16 c bus dev reg (StoreDev16.Holds bus dev reg) where
  fits := fun {_ r} _ => r.isLt
  read := by
    rintro d r ⟨hwf, rfl⟩
    exact ⟨d, fun _ => by rw [unitBytes, highByte_wordOf, lowByte_wordOf]; rfl, hwf, rfl⟩
  write := by
    rintro d r x ⟨hwf, -⟩ -
    have hhigh : (storeWords d.regs bus dev reg (unitBytes .w16 x)).read
        (2 * registerKey bus dev reg) = highByte x :=
      (Memory.read_write_ne _ _ _ _ (by omega)).trans (Memory.read_write_self _ _ _ hwf)
    have hlow : (storeWords d.regs bus dev reg (unitBytes .w16 x)).read
        (2 * registerKey bus dev reg + 1) = lowByte x :=
      Memory.read_write_self _ _ _ (Memory.wf_write _ _ _ hwf)
    have heven : (unitBytes .w16 x).length % 2 = 0 := by
      rw [unitBytes_length]
      rfl
    refine ⟨{ regs := storeWords d.regs bus dev reg (unitBytes .w16 x) }, if_pos heven,
      storeWords_wf bus dev _ _ _ hwf, ?_⟩
    rw [hhigh, hlow, wordOf_highByte_lowByte]

/-! ### The statements -/

/-- Settles O57. -/
theorem fieldRoundTripOnStoreDev8 : Obligations.FieldRoundTripOnStoreDev8 := by
  intro s d c k bus dev reg hc hp hwf
  have hdev := storeDev8_storesUnit c bus dev reg
  refine ⟨fun f v henc hf => ?field, fun b bit hb => ?bit⟩
  case field =>
    exact fieldRoundTrip hdev ⟨hwf, rfl⟩ hc hp hf (fun _ => rfl) (fun _ => rfl)
      (decide_eq_true henc) (decide_eq_true henc)
  case bit =>
    have henc : encodableBit b := by omega
    exact bitRoundTrip hdev ⟨hwf, rfl⟩ hc hp hb (fun _ => rfl) (fun _ => rfl)
      (decide_eq_true henc) (decide_eq_true henc)

/-- Settles O58. -/
theorem fieldRoundTripOnStoreDev16 : Obligations.FieldRoundTripOnStoreDev16 := by
  intro s d c k bus dev reg hc hp hwf
  have hdev := storeDev16_storesUnit c bus dev reg
  refine ⟨fun f v henc hf => ?field, fun b bit hb => ?bit⟩
  case field =>
    exact fieldRoundTrip hdev ⟨hwf, rfl⟩ hc hp hf (fun _ => rfl) (fun _ => rfl)
      (decide_eq_true henc) (decide_eq_true henc)
  case bit =>
    have henc : encodableBit b := by omega
    exact bitRoundTrip hdev ⟨hwf, rfl⟩ hc hp hb (fun _ => rfl) (fun _ => rfl)
      (decide_eq_true henc) (decide_eq_true henc)

/-- Settles O60.  `FailRead` answers every read with `BusError`, which ends `Rmw_W` at its read. -/
theorem failReadSeesNoWrite : Obligations.FailReadSeesNoWrite := by
  refine ⟨rfl, fun s d c k bus w dev reg b f bit v8 v16 hc hp i hmem hd => ?_⟩
  have hrule : ∃ W g v, ∀ u : State, u.ruleOf i = u.rmwRule i W dev reg g v := by
    simp only [List.mem_cons, List.not_mem_nil, or_false] at hmem
    rcases hmem with rfl | rfl | rfl | rfl
    · exact ⟨_, _, _, fun _ => rfl⟩
    · exact ⟨_, _, _, fun _ => rfl⟩
    · exact ⟨_, _, _, fun _ => rfl⟩
    · exact ⟨_, _, _, fun _ => rfl⟩
  obtain ⟨W, g, v, hi⟩ := hrule
  obtain ⟨t, k', hrun, hk', hidle, hresp⟩ := runsTo_rmw_failed (answer := FailRead.answer) (d := d)
    (reply := .busError) hc hp hd hi (fun _ => rfl) (fun _ => rfl) rfl
  exact ⟨_, k', hrun, rfl, hk', hidle, hresp⟩

end Sys2Proof.Machine
end

section
/-! PROOFS. Unit and array access: each step of a plain write, of `ArrayRead_W` and of an array write
once, as a move of any command whose rule has that step (42_unit_array_access R160 to R170), and the
statements about single steps. -/

namespace Sys2Proof.Machine

/-! ### The bytes of a value -/

theorem lowByte_eq_ofNat (x : Word16) : lowByte x = BitVec.ofNat 8 x.toNat := by
  apply BitVec.eq_of_toNat_eq
  rw [lowByte_toNat, BitVec.toNat_ofNat]

theorem highByte_eq_ofNat (x : Word16) : highByte x = BitVec.ofNat 8 (x.toNat / 256) := by
  apply BitVec.eq_of_toNat_eq
  rw [highByte, BitVec.extractLsb'_toNat, Nat.shiftRight_eq_div_pow, BitVec.toNat_ofNat]

/-! ### The units of a run of bytes, and the bytes of a run of units -/

/-- Word `j` of a run of bytes is made of bytes `2j` and `2j + 1` (20_memory R54). -/
theorem wordsOfBytes_getElem? : ∀ (b : List Byte) (j : Nat) (h : 2 * j + 1 < b.length),
    (wordsOfBytes b)[j]? = some (b[2 * j] ++ b[2 * j + 1])
  | [], _, h => absurd h (Nat.not_lt_zero _)
  | [_], _, h => absurd h (by simp)
  | _ :: _ :: _, 0, _ => rfl
  | _ :: _ :: rest, j + 1, h => wordsOfBytes_getElem? rest j (by simp at h; omega)

/-- An array of bytes sends the low byte of each entry (42_unit_array_access R169). -/
theorem flatMap_unitBytes_w8 (xs : List Word16) : xs.flatMap (unitBytes .w8) = xs.map lowByte :=
  List.map_eq_flatMap.symm

/-- An array of words sends the high byte of entry `j` in place `2j` and its low byte in the next
(42_unit_array_access R170). -/
theorem flatMap_unitBytes_w16_getElem? (xs : List Word16) (j : Nat) :
    (xs.flatMap (unitBytes .w16))[2 * j]? = xs[j]?.map highByte ∧
    (xs.flatMap (unitBytes .w16))[2 * j + 1]? = xs[j]?.map lowByte := by
  induction xs generalizing j with
  | nil => exact ⟨rfl, rfl⟩
  | cons x xs ih =>
    cases j with
    | zero => exact ⟨rfl, rfl⟩
    | succ j => exact ih j

/-- Entry `j` of `BUF` is among its first `n` entries when `j < n`. -/
theorem entries_getElem? (k : Context) {n j : Nat} (hj : j < n) (h : j < 256) :
    (k.entries n)[j]? = some k.buf[j] := by
  rw [Context.entries, List.getElem?_take_of_lt hj, Vector.getElem?_toList,
    Vector.getElem?_eq_getElem h]

/-! ### `BUF` after an array read -/

/-- The units `us` stand from entry 0 of `BUF` on, and the entries from `n` on are as before
(42_unit_array_access R163). -/
structure BufFilled (old new : Vector Word16 256) (n : Nat) (us : List Word16) : Prop where
  /-- Each unit delivered is in its entry. -/
  delivered : ∀ j (h : j < 256) {u}, us[j]? = some u → new[j] = u
  /-- The entries from `n` on keep their value. -/
  later : ∀ j (h : j < 256), n ≤ j → new[j] = old[j]

/-- At most `n` delivered units fill `BUF`. -/
theorem fillBuf_filled (s : State) (c : Nat) (k : Context) {n : Nat} {us : List Word16}
    (hus : us.length ≤ n) : BufFilled k.buf (s.fillBuf c k n us) n us where
  delivered j h u hu := by rw [fillBuf_get _ _ _ _ _ _ h, hu, Option.getD_some]
  later j h hj := by
    rw [fillBuf_get _ _ _ _ _ _ h, List.getElem?_eq_none (hus.trans hj), Option.getD_none,
      if_neg (Nat.not_lt.2 hj)]

/-- The response of a count that fits its field, as a number (30_encoding R96). -/
theorem count_word {n : Nat} (hn : n ≤ 255) :
    (Response.count n).word = BitVec.ofNat 32 (0x80000000 + n * 0x10000) := by
  obtain ⟨-, -, -, -, hcount, -⟩ := responseWordsAreTheTable
  exact hcount n hn

/-! ### One step of a rule, as a move -/

section
variable {i : Instr} {s : State} {c : Nat} {k : Context} {bus : BusId} {W : Width} {dev : DevAddr}
  {n : Nat}

/-- The issue step that sends one write. -/
theorem moves_sendWrite {reg : RegAddr} {bytes : List Byte} (h : s.Issuing c bus k)
    (hi : (s.ruleOf i).issue c k bus = s.sendWrite c k bus i dev reg bytes) :
    Moves i s c fun k' => Sent k k' .wrWait ⟨i, bus, none⟩ (.write bus dev reg bytes) :=
  moves_of_run (run_issuing _ h) (hi ▸ sendWrite_spec bus i dev reg bytes h.ctx)

/-- An issue step that answers without a request. -/
theorem moves_respond {r : Response} (h : s.Issuing c bus k)
    (hi : (s.ruleOf i).issue c k bus = s.respond c k r) :
    Moves i s c fun k' => Answered k k' r.word :=
  moves_of_run (run_issuing _ h) (hi ▸ respond_spec k r h.ctx)

/-- An array read of at least one unit sends one read of all the bytes. -/
theorem arrayReadRule_issue {reg : Option RegAddr} {t : Option Millis} (hn : n ≠ 0) :
    (s.arrayReadRule i W dev reg n t).issue c k bus =
      s.sendRead c k bus i dev reg (n * W.bytes) (s.effectiveTimeout t) :=
  if_neg fun h => hn h.1

/-- An array write of at least one unit sends one write of its entries of `BUF`. -/
theorem arrayWriteRule_issue {reg : RegAddr} (hn : n ≠ 0) :
    (s.arrayWriteRule i W dev reg n).issue c k bus =
      s.sendWrite c k bus i dev reg (k.sendBytes W n) :=
  if_neg fun h => hn h.1

theorem moves_arrayRead_issue {reg : Option RegAddr} {t : Option Millis} {len : Nat}
    (h : s.Issuing c bus k) (hi : s.ruleOf i = s.arrayReadRule i W dev reg n t) (hn : n ≠ 0)
    (hlen : n * W.bytes = len) :
    Moves i s c fun k' => Sent k k' .rdWait ⟨i, bus, some (s.effectiveTimeout t)⟩
      (.read bus dev reg len (s.effectiveTimeout t)) := by
  have hissue : (s.ruleOf i).issue c k bus =
      s.sendRead c k bus i dev reg len (s.effectiveTimeout t) := by
    rw [hi, arrayReadRule_issue hn, hlen]
  exact moves_of_run (run_issuing _ h) (hissue ▸ sendRead_spec bus i dev reg len _ h.ctx)

theorem moves_arrayWrite_issue {reg : RegAddr} (h : s.Issuing c bus k)
    (hi : s.ruleOf i = s.arrayWriteRule i W dev reg n) (hn : n ≠ 0) :
    Moves i s c fun k' =>
      Sent k k' .wrWait ⟨i, bus, none⟩ (.write bus dev reg (k.sendBytes W n)) :=
  moves_sendWrite h (hi ▸ arrayWriteRule_issue hn)

/-- Delivered bytes end an array read with the count of their units, which fill `BUF`. -/
theorem moves_reportArray_bytes {b : List Byte} (h : s.ReadAnswered c k (.bytes b))
    (hi : (s.ruleOf i).readReply = some (s.reportArray W n))
    (hb : (unitsOfBytes W b).length ≤ n) (hn : n ≤ 255) :
    Moves i s c fun k' =>
      Ended k k' (BitVec.ofNat 32 (0x80000000 + (unitsOfBytes W b).length * 0x10000)) ∧
        BufFilled k.buf k'.buf n (unitsOfBytes W b) := by
  obtain ⟨k', honly, hended, hbuf⟩ := reportArray_bytes W n b h.ctx
  rw [count_word (hb.trans hn)] at hended
  exact moves_of_run (run_readAnswered h hi) ⟨k', honly, hended, hbuf ▸ fillBuf_filled s c k hb⟩

/-- A bus error ends an array read with sentinel A (60_exceptions R201). -/
theorem moves_reportArray_busError (h : s.ReadAnswered c k .busError)
    (hi : (s.ruleOf i).readReply = some (s.reportArray W n)) (hn : n ≠ 0) :
    Moves i s c fun k' => Ended k k' 0x20000000 ∧ BufFilled k.buf k'.buf n [] := by
  obtain ⟨k', honly, hended, hbuf⟩ := reportArray_busError W n h.ctx
  rw [if_neg hn] at hended
  exact moves_of_run (run_readAnswered h hi)
    ⟨k', honly, hended, hbuf ▸ fillBuf_filled s c k (Nat.zero_le n)⟩

/-- A timeout ends an array read with sentinel B (60_exceptions R202). -/
theorem moves_reportArray_timeout (h : s.ReadAnswered c k .timeout)
    (hi : (s.ruleOf i).readReply = some (s.reportArray W n)) (hn : n ≠ 0) :
    Moves i s c fun k' => Ended k k' 0x40000000 ∧ BufFilled k.buf k'.buf n [] := by
  obtain ⟨k', honly, hended, hbuf⟩ := reportArray_timeout W n h.ctx
  rw [if_neg hn] at hended
  exact moves_of_run (run_readAnswered h hi)
    ⟨k', honly, hended, hbuf ▸ fillBuf_filled s c k (Nat.zero_le n)⟩

end

/-! ### The statements about single units -/

/-- Settles O24. -/
theorem unitReadsSendOneRead : Obligations.UnitReadsSendOneRead := fun _ _ _ _ h _ _ _ =>
  ⟨moves_sendRead h rfl, moves_sendRead h rfl⟩

/-- Settles O25. -/
theorem unitReadsAnswerTheUnit : Obligations.UnitReadsAnswerTheUnit := fun _ _ _ _ _ _ =>
  ⟨fun b0 h => moves_reportRead_full h rfl rfl (byte_setWidth_toNat b0),
   fun b0 b1 h => moves_reportRead_full h rfl rfl (wordOf_toNat b0 b1)⟩

/-- Settles O32. -/
theorem unitWritesSendOneWrite : Obligations.UnitWritesSendOneWrite := by
  intro s c bus k h dev reg v8 v16
  have hlow : BitVec.ofNat 8 (v16.toNat % 256) = lowByte v16 := by
    rw [← lowByte_toNat, BitVec.ofNat_toNat, BitVec.setWidth_eq]
  rw [hlow, ← highByte_eq_ofNat]
  exact ⟨moves_sendWrite h rfl, moves_sendWrite h rfl⟩

/-! ### The statements about arrays -/

/-- Settles O26. -/
theorem arrayReadsSendOneRead : Obligations.ArrayReadsSendOneRead := fun _ _ _ _ h _ _ n _ hn =>
  ⟨moves_arrayRead_issue h rfl hn (Nat.mul_one n), moves_arrayRead_issue h rfl hn (Nat.mul_comm n 2),
   moves_arrayRead_issue h rfl hn (Nat.mul_one n)⟩

/-- Settles O27: under this policy the issue step of a count of 0 is a `respond`. -/
theorem zeroCountMakesNoRequest : Obligations.ZeroCountMakesNoRequest := by
  intro s c bus k h hz dev reg t
  have hzero : (0 = 0 ∧ s.policy.zeroCount = .noRequest) := ⟨rfl, hz⟩
  have hread {i : Instr} {W : Width} {r : Option RegAddr}
      (hi : s.ruleOf i = s.arrayReadRule i W dev r 0 t) :
      Moves i s c fun k' => Answered k k' 0x80000000 :=
    moves_respond (r := .count 0) h (hi ▸ if_pos hzero)
  have hwrite {i : Instr} {W : Width} (hi : s.ruleOf i = s.arrayWriteRule i W dev reg 0) :
      Moves i s c fun k' => Answered k k' 0x80000000 :=
    moves_respond (r := .write true) h (hi ▸ if_pos hzero)
  simp only [List.forall_mem_cons, List.not_mem_nil, false_implies, implies_true, and_true]
  exact ⟨hread rfl, hread rfl, hread rfl, hwrite rfl, hwrite rfl⟩

/-- Settles O29. -/
theorem byteArrayReadsFillBuffer : Obligations.ByteArrayReadsFillBuffer := by
  intro s c k b h dev reg n t hb hn
  have hread {i : Instr} (hi : (s.ruleOf i).readReply = some (s.reportArray .w8 n)) :
      Moves i s c fun k' =>
        Ended k k' (BitVec.ofNat 32 (0x80000000 + b.length * 0x10000)) ∧
        (∀ j (h : j < 256) (hj : j < b.length), k'.buf[j] = (b[j]).setWidth 16) ∧
        (∀ j (h : j < 256), n ≤ j → k'.buf[j] = k.buf[j]) := by
    have hlen : (unitsOfBytes .w8 b).length = b.length := List.length_map ..
    refine (moves_reportArray_bytes h hi (hlen ▸ hb) hn).mono fun k' ⟨hended, hfilled⟩ =>
      ⟨hlen ▸ hended, fun j h256 hj => hfilled.delivered j h256 ?_, hfilled.later⟩
    rw [unitsOfBytes, List.getElem?_map, List.getElem?_eq_getElem hj, Option.map_some]
  simp only [List.forall_mem_cons, List.not_mem_nil, false_implies, implies_true, and_true]
  exact ⟨hread rfl, hread rfl⟩

/-- Settles O30. -/
theorem wordArrayReadsFillBuffer : Obligations.WordArrayReadsFillBuffer := by
  intro s c k b h dev reg n t hb hn
  have hlen : (unitsOfBytes .w16 b).length = b.length / 2 := wordsOfBytes_length b
  refine (moves_reportArray_bytes h rfl (by omega) hn).mono fun k' ⟨hended, hfilled⟩ =>
    ⟨hlen ▸ hended, fun j h256 hj => hfilled.delivered j h256 ?_, hfilled.later⟩
  exact wordsOfBytes_getElem? b j hj

/-- Settles O31. -/
theorem failedArrayReadsTellTheCause : Obligations.FailedArrayReadsTellTheCause := by
  intro s c k dev reg n t hn
  have hfails {i : Instr} {W : Width} (hi : (s.ruleOf i).readReply = some (s.reportArray W n)) :
      (s.ReadAnswered c k .busError →
        Moves i s c fun k' => Ended k k' 0x20000000 ∧
          ∀ j (h : j < 256), n ≤ j → k'.buf[j] = k.buf[j]) ∧
      (s.ReadAnswered c k .timeout →
        Moves i s c fun k' => Ended k k' 0x40000000 ∧
          ∀ j (h : j < 256), n ≤ j → k'.buf[j] = k.buf[j]) :=
    ⟨fun h => (moves_reportArray_busError h hi hn).mono fun _ ⟨hended, hfilled⟩ =>
      ⟨hended, hfilled.later⟩,
     fun h => (moves_reportArray_timeout h hi hn).mono fun _ ⟨hended, hfilled⟩ =>
      ⟨hended, hfilled.later⟩⟩
  simp only [List.forall_mem_cons, List.not_mem_nil, false_implies, implies_true, and_true]
  exact ⟨hfails rfl, hfails rfl, hfails rfl⟩

/-- Settles O33. -/
theorem arrayWritesSendTheBuffer : Obligations.ArrayWritesSendTheBuffer := by
  intro s c bus k h dev reg n hn hn255
  have hlen (W : Width) : (k.sendBytes W n).length = n * W.bytes := sendBytes_length k W (by omega)
  refine ⟨(moves_arrayWrite_issue h rfl hn).mono fun _ hsent => ⟨_, hsent, ?_, fun j h256 hj => ?_⟩,
    (moves_arrayWrite_issue h rfl hn).mono fun _ hsent => ⟨_, hsent, ?_, fun j h256 hj => ?_⟩⟩
  · exact (hlen .w8).trans (Nat.mul_one n)
  · rw [Context.sendBytes, flatMap_unitBytes_w8, List.getElem?_map, entries_getElem? k hj h256,
      Option.map_some, lowByte_eq_ofNat]
  · exact (hlen .w16).trans (Nat.mul_comm n 2)
  · obtain ⟨hhigh, hlow⟩ := flatMap_unitBytes_w16_getElem? (k.entries n) j
    rw [Context.sendBytes, hhigh, hlow, entries_getElem? k hj h256, Option.map_some,
      Option.map_some, highByte_eq_ofNat, lowByte_eq_ofNat]
    exact ⟨rfl, rfl⟩

end Sys2Proof.Machine
end

section
/-! PROOFS. Units and arrays written to the reference devices are read back (42_unit_array_access
R171 (c), 20_memory R73): a command with one request beside an environment, what a device holds in a run
of registers, and the two together. -/

namespace Sys2Proof.Machine

/-! ### A command with one request -/

/-- The whole command of word `w` ends, with the environment in `d'`, the response `p` and a `BUF` that
has `B`. -/
def RunsToBuf {D : Type} (answer : D → Nat → Request → Input × D) (c : Nat) (bus : BusId)
    (w : CommandWord) (x : State × D) (d' : D) (p : ResponseWord) (B : Vector Word16 256 → Prop) :
    Prop :=
  ∃ t k', runCommand answer c bus w x = some (t, d') ∧ t.ctx? c = some k' ∧ k'.phase = .idle ∧
    k'.resp = p ∧ B k'.buf

section
variable {D : Type} {answer : D → Nat → Request → Input × D} {s : State} {c : Nat} {k : Context}
  {d d₁ : D} {bus : BusId} {w : CommandWord} {i : Instr} {dev : DevAddr} {reg : RegAddr}
  {p : ResponseWord} {B : Vector Word16 256 → Prop}
  (hc : s.ctx? c = some k) (hp : k.phase = .idle) (hd : decode w = .ok i)

include hc hp hd

/-- A command whose issue step leaves its context with `Q`, and whose request is then answered by a move
that ends it. -/
theorem runsToBuf_of_request {Q : Context → Prop}
    (hissue : ∀ u : State, u.Issuing c bus k → Moves i u c Q)
    (hanswer : ∀ (t : State) (q : Context), t.ctx? c = some q → Q q →
      ∃ req move q₀, q.outstanding = some req ∧ answer d c req = (move, d₁) ∧
        t.Feeds move c fun k' => Ended q₀ k' p ∧ B k'.buf) :
    RunsToBuf answer c bus w (s, d) d₁ p B := by
  obtain ⟨s₁, k₁, hfeed, hc₁, hQ⟩ := feeds_command hc hp hd hissue
  obtain ⟨req, move, q₀, hreq, hans, hfeeds⟩ := hanswer s₁ k₁ hc₁ hQ
  obtain ⟨s₂, k₂, hserve, hc₂, hended, hB⟩ := serve_of_feeds hc₁ hreq hans hfeeds
  refine ⟨s₂, k₂, ?_, hc₂, hended.phase, hended.resp, hB⟩
  simp only [runCommand, hfeed, hserve, Option.bind_some, serve_of_none hc₂ hended.outstanding]

/-- A plain or array write that the environment accepts answers success and keeps `BUF`. -/
theorem runsToBuf_write {bytes : List Byte}
    (hissue : ∀ u : State, (u.ruleOf i).issue c k bus = u.sendWrite c k bus i dev reg bytes)
    (hreply : ∀ u : State, (u.ruleOf i).writeReply = some u.reportWrite)
    (hwrite : answer d c (.write bus dev reg bytes) = (.writeReply c .ok, d₁)) :
    RunsToBuf answer c bus w (s, d) d₁ 0x80000000 (· = k.buf) := by
  refine runsToBuf_of_request hc hp hd (fun u hu => moves_sendWrite hu (hissue u))
    fun t q hq hsent => ⟨_, _, q, hsent.outstanding, hwrite, ?_⟩
  have hcmd : q.cmdl.cmd = i := by rw [hsent.cmdl]
  refine feeds_writeReply hq hsent.phase hsent.outstanding fun u hW => ?_
  exact (moves_reportWrite hW (hcmd ▸ hreply u)).mono fun _ ha =>
    ⟨ha.toEnded, ha.buf.trans hsent.buf⟩

/-- A read whose reply the environment gives ends as its read-reply step does, run in a context with the
`BUF` of the start. -/
theorem runsToBuf_read {len : Nat} {reply : ReadReply}
    (hissue : ∀ u : State, (u.ruleOf i).issue c k bus =
      u.sendRead c k bus i dev (some reg) len u.defaultTimeout)
    (hread : ∀ t, answer d c (.read bus dev (some reg) len t) = (.readReply c reply, d₁))
    (hbreach : ∀ t, reply.breach len t = none)
    (hreply : ∀ (u : State) (q : Context), q.buf = k.buf → u.ReadAnswered c q reply →
      Moves i u c fun k' => Ended q k' p ∧ B k'.buf) :
    RunsToBuf answer c bus w (s, d) d₁ p B := by
  refine runsToBuf_of_request (Q := fun q => ∃ t, Sent k q .rdWait ⟨i, bus, some t⟩
      (.read bus dev (some reg) len t)) hc hp hd
    (fun u hu => (moves_sendRead hu (hissue u)).mono fun _ hs => ⟨_, hs⟩)
    fun t q hq ⟨tm, hsent⟩ => ⟨_, _, q, hsent.outstanding, hread tm, ?_⟩
  have hcmd : q.cmdl.cmd = i := by rw [hsent.cmdl]
  exact feeds_readReply hq hsent.phase hsent.outstanding (hbreach tm) fun u hR =>
    hcmd ▸ hreply u q hsent.buf hR

end

/-! ### The bytes of a run of units -/

theorem flatMap_unitBytes_length (W : Width) (xs : List Word16) :
    (xs.flatMap (unitBytes W)).length = xs.length * W.bytes := by
  simp [List.length_flatMap, unitBytes_length]

/-- The bytes of a run of words are those words. -/
theorem wordsOfBytes_flatMap (xs : List Word16) : wordsOfBytes (xs.flatMap (unitBytes .w16)) = xs := by
  induction xs with
  | nil => rfl
  | cons x xs ih => exact congrArg₂ List.cons (wordOf_highByte_lowByte x) ih

/-- The bytes of a run of units are as many units. -/
theorem unitsOfBytes_flatMap_length (W : Width) (xs : List Word16) :
    (unitsOfBytes W (xs.flatMap (unitBytes W))).length = xs.length := by
  rw [unitsOfBytes_length, flatMap_unitBytes_length, Nat.mul_div_cancel _ W.bytes_pos]

/-! ### A device that is written and read -/

/-- Seen from context `c`, the environment in state `d` accepts the units `xs` from register `reg` on and
then delivers them from there. -/
def ReadsBack {D : Type} (answer : D → Nat → Request → Input × D) (W : Width) (c : Nat) (bus : BusId)
    (dev : DevAddr) (reg : RegAddr) (d : D) (xs : List Word16) : Prop :=
  ∃ d₁ d₂, answer d c (.write bus dev reg (xs.flatMap (unitBytes W))) = (.writeReply c .ok, d₁) ∧
    ∀ t, answer d₁ c (.read bus dev (some reg) (xs.length * W.bytes) t) =
      (.readReply c (.bytes (xs.flatMap (unitBytes W))), d₂)

section
variable {D : Type} {answer : D → Nat → Request → Input × D} {W : Width} {c : Nat} {bus : BusId}
  {dev : DevAddr} {reg : RegAddr} {s : State} {k : Context} {d : D} {iw ir : Instr}
  (hc : s.ctx? c = some k) (hp : k.phase = .idle)

include hc hp

/-- The unit written is the unit read (42_unit_array_access R171 (c)). -/
theorem unitRoundTrip {x : Word16} (hdev : ReadsBack answer W c bus dev reg d [x])
    (hx : x.toNat < 2 ^ W.bits)
    (hiw : ∀ u : State, u.ruleOf iw = u.unitWriteRule iw dev reg (unitBytes W x))
    (hir : ∀ u : State, u.ruleOf ir = u.unitReadRule ir W dev reg none fun _ r => r)
    (hwfw : iw.wf = true) (hwfr : ir.wf = true) :
    ∃ y z k', runCommand answer c bus (encode iw) (s, d) = some y ∧
      runCommand answer c bus (encode ir) y = some z ∧ z.1.ctx? c = some k' ∧ k'.phase = .idle ∧
      k'.resp = BitVec.ofNat 32 (0x80000000 + x.toNat) ∧ k'.buf = k.buf := by
  obtain ⟨d₁, d₂, hwrite, hread⟩ := hdev
  simp only [List.flatMap_singleton, List.length_singleton, Nat.one_mul] at hwrite hread
  obtain ⟨s₁, k₁, hrunw, hc₁, hp₁, -, hbuf₁⟩ := runsToBuf_write hc hp (decode_encode hwfw)
    (fun u => by rw [hiw]; rfl) (fun u => by rw [hiw]; rfl) hwrite
  obtain ⟨s₂, k₂, hrunr, hc₂, hp₂, hresp, hbuf₂⟩ := runsToBuf_read (B := (· = k.buf)) hc₁ hp₁
    (decode_encode hwfr) (fun u => by rw [hir]; rfl) hread (breach_unitBytes W x) fun u q hq hR =>
      (moves_reportRead_full hR (congrArg CommandRule.readReply (hir u)) (unit_unitBytes hx)
        rfl).mono fun _ ha => ⟨ha.toEnded, ha.buf.trans (hq.trans hbuf₁)⟩
  exact ⟨_, _, k₂, hrunw, hrunr, hc₂, hp₂, hresp, hbuf₂⟩

/-- The array written is the array read: the units of the bytes sent fill `BUF`. -/
theorem arrayRoundTrip {n : Nat} (hdev : ReadsBack answer W c bus dev reg d (k.entries n))
    (hn : n ≠ 0) (hn255 : n ≤ 255)
    (hiw : ∀ u : State, u.ruleOf iw = u.arrayWriteRule iw W dev reg n)
    (hir : ∀ u : State, u.ruleOf ir = u.arrayReadRule ir W dev (some reg) n none)
    (hwfw : iw.wf = true) (hwfr : ir.wf = true) :
    ∃ y z k', runCommand answer c bus (encode iw) (s, d) = some y ∧
      runCommand answer c bus (encode ir) y = some z ∧ z.1.ctx? c = some k' ∧ k'.phase = .idle ∧
      k'.resp = BitVec.ofNat 32 (0x80000000 + n * 0x10000) ∧
      BufFilled k.buf k'.buf n (unitsOfBytes W (k.sendBytes W n)) := by
  have hentries : (k.entries n).length = n := entries_length k (by omega)
  have hunits : (unitsOfBytes W (k.sendBytes W n)).length = n :=
    (unitsOfBytes_flatMap_length W _).trans hentries
  have hbreach (t : Millis) : (ReadReply.bytes (k.sendBytes W n)).breach (n * W.bytes) t = none :=
    if_neg (by rw [sendBytes_length k W (by omega)]; exact lt_irrefl _)
  obtain ⟨d₁, d₂, hwrite, hread⟩ := hdev
  rw [hentries] at hread
  obtain ⟨s₁, k₁, hrunw, hc₁, hp₁, -, hbuf₁⟩ := runsToBuf_write hc hp (decode_encode hwfw)
    (fun u => by rw [hiw]; exact arrayWriteRule_issue hn) (fun u => by rw [hiw]; rfl) hwrite
  obtain ⟨s₂, k₂, hrunr, hc₂, hp₂, hresp, hfilled⟩ := runsToBuf_read
    (reply := .bytes (k.sendBytes W n))
    (B := fun b => BufFilled k.buf b n (unitsOfBytes W (k.sendBytes W n))) hc₁ hp₁
    (decode_encode hwfr) (fun u => by rw [hir]; exact arrayReadRule_issue hn) hread hbreach
    fun u q hq hR => by
      have hmoves := moves_reportArray_bytes hR (congrArg CommandRule.readReply (hir u))
        hunits.le hn255
      rwa [hq, hbuf₁, hunits] at hmoves
  exact ⟨_, _, k₂, hrunw, hrunr, hc₂, hp₂, hresp, hfilled⟩

end

/-! ### Units in the memory of a device -/

/-- The memory with the unit of one register replaced. -/
def putUnit (W : Width) (bus : BusId) (dev : DevAddr) (m : Memory) (r : RegAddr) (x : Word16) : Memory :=
  match W with
  | .w8 => m.write (registerKey bus dev r) (lowByte x)
  | .w16 =>
    (m.write (2 * registerKey bus dev r) (highByte x)).write (2 * registerKey bus dev r + 1)
      (lowByte x)

/-- The bytes of the unit of one register. -/
def unitAt (W : Width) (bus : BusId) (dev : DevAddr) (m : Memory) (r : RegAddr) : List Byte :=
  match W with
  | .w8 => [m.read (registerKey bus dev r)]
  | .w16 => [m.read (2 * registerKey bus dev r), m.read (2 * registerKey bus dev r + 1)]

/-- Units stored from register `r` on, modulo 256, in order. -/
def putUnits (W : Width) (bus : BusId) (dev : DevAddr) (m : Memory) (r : RegAddr) :
    List Word16 → Memory
  | [] => m
  | x :: xs => putUnits W bus dev (putUnit W bus dev m r x) (r + 1) xs

/-- The bytes of `n` units from register `r` on, modulo 256. -/
def unitsAt (W : Width) (bus : BusId) (dev : DevAddr) (m : Memory) (r : RegAddr) : Nat → List Byte
  | 0 => []
  | n + 1 => unitAt W bus dev m r ++ unitsAt W bus dev m (r + 1) n

section
variable (W : Width) (bus : BusId) (dev : DevAddr)

theorem registerKey_ne {r q : RegAddr} (h : r ≠ q) : registerKey bus dev r ≠ registerKey bus dev q := by
  rw [← BitVec.toNat_ne_iff_ne] at h
  simp only [registerKey]
  omega

theorem putUnit_wf {m : Memory} (hm : m.wf = true) (r : RegAddr) (x : Word16) :
    (putUnit W bus dev m r x).wf = true := by
  cases W with
  | w8 => exact Memory.wf_write _ _ _ hm
  | w16 => exact Memory.wf_write _ _ _ (Memory.wf_write _ _ _ hm)

/-- The unit put into a register is there. -/
theorem unitAt_putUnit_self {m : Memory} (hm : m.wf = true) (r : RegAddr) (x : Word16) :
    unitAt W bus dev (putUnit W bus dev m r x) r = unitBytes W x := by
  cases W with
  | w8 => exact congrArg ([·]) (Memory.read_write_self _ _ _ hm)
  | w16 =>
    have hhigh : (putUnit .w16 bus dev m r x).read (2 * registerKey bus dev r) = highByte x :=
      (Memory.read_write_ne _ _ _ _ (by omega)).trans (Memory.read_write_self _ _ _ hm)
    have hlow : (putUnit .w16 bus dev m r x).read (2 * registerKey bus dev r + 1) = lowByte x :=
      Memory.read_write_self _ _ _ (Memory.wf_write _ _ _ hm)
    rw [unitAt, hhigh, hlow, unitBytes]

/-- The unit of every other register stays. -/
theorem unitAt_putUnit_ne (m : Memory) {r q : RegAddr} (h : q ≠ r) (x : Word16) :
    unitAt W bus dev (putUnit W bus dev m r x) q = unitAt W bus dev m q := by
  have hkey := registerKey_ne bus dev h
  cases W with
  | w8 => exact congrArg ([·]) (Memory.read_write_ne _ _ _ _ hkey)
  | w16 =>
    have hread {a : Nat} (h0 : a ≠ 2 * registerKey bus dev r) (h1 : a ≠ 2 * registerKey bus dev r + 1) :
        (putUnit .w16 bus dev m r x).read a = m.read a :=
      (Memory.read_write_ne _ _ _ _ h1).trans (Memory.read_write_ne _ _ _ _ h0)
    rw [unitAt, unitAt, hread (by omega) (by omega), hread (by omega) (by omega)]

/-- A run of at most 255 units from the register after `r` on does not come round to `r`. -/
theorem unitAt_putUnits_before (xs : List Word16) : ∀ (m : Memory) (r : RegAddr) (j : Nat), 1 ≤ j →
    j + xs.length ≤ 256 →
    unitAt W bus dev (putUnits W bus dev m (r + BitVec.ofNat 8 j) xs) r = unitAt W bus dev m r := by
  induction xs with
  | nil => intro m r j _ _; rfl
  | cons x xs ih =>
    intro m r j hj hlen
    rw [List.length_cons] at hlen
    have hne : r ≠ r + BitVec.ofNat 8 j := by
      rw [← BitVec.toNat_ne_iff_ne, BitVec.toNat_add, BitVec.toNat_ofNat]
      have := r.isLt
      omega
    have hnext : r + BitVec.ofNat 8 j + 1 = r + BitVec.ofNat 8 (j + 1) := by
      rw [BitVec.ofNat_add, BitVec.add_assoc]; rfl
    rw [putUnits, hnext, ih _ _ (j + 1) (by omega) (by omega), unitAt_putUnit_ne W bus dev m hne]

/-- A run of at most 256 units is read back as it was stored. -/
theorem unitsAt_putUnits (xs : List Word16) : ∀ (m : Memory) (r : RegAddr), m.wf = true →
    xs.length ≤ 256 →
    unitsAt W bus dev (putUnits W bus dev m r xs) r xs.length = xs.flatMap (unitBytes W) := by
  induction xs with
  | nil => intro m r _ _; rfl
  | cons x xs ih =>
    intro m r hm hlen
    rw [List.length_cons] at hlen
    have hhead : unitAt W bus dev (putUnits W bus dev m r (x :: xs)) r = unitBytes W x :=
      (unitAt_putUnits_before W bus dev xs _ r 1 (le_refl 1) (by omega)).trans
        (unitAt_putUnit_self W bus dev hm r x)
    have htail := ih (putUnit W bus dev m r x) (r + 1) (putUnit_wf W bus dev hm r x) (by omega)
    rw [List.length_cons, unitsAt, hhead, List.flatMap_cons]
    exact congrArg _ htail

/-! ### The reference devices store and load units -/

theorem storeBytes_eq_putUnits (xs : List Word16) : ∀ (m : Memory) (r : RegAddr),
    storeBytes m bus dev r (xs.flatMap (unitBytes .w8)) = putUnits .w8 bus dev m r xs := by
  induction xs with
  | nil => intro _ _; rfl
  | cons x xs ih => intro m r; exact ih _ _

theorem storeWords_eq_putUnits (xs : List Word16) : ∀ (m : Memory) (r : RegAddr),
    storeWords m bus dev r (xs.flatMap (unitBytes .w16)) = putUnits .w16 bus dev m r xs := by
  induction xs with
  | nil => intro _ _; rfl
  | cons x xs ih => intro m r; exact ih _ _

theorem storeDev8_load_eq_unitsAt (d : StoreDev8) (n : Nat) : ∀ r : RegAddr,
    d.load bus dev r n = unitsAt .w8 bus dev d.regs r n := by
  induction n with
  | zero => intro _; rfl
  | succ n ih => intro r; exact congrArg (_ :: ·) (ih (r + 1))

theorem storeDev16_load_eq_unitsAt (d : StoreDev16) (n : Nat) : ∀ r : RegAddr,
    d.load bus dev r n = unitsAt .w16 bus dev d.regs r n := by
  induction n with
  | zero => intro _; rfl
  | succ n ih => intro r; exact congrArg (_ :: _ :: ·) (ih (r + 1))

end

section
variable (c : Nat) (bus : BusId) (dev : DevAddr) (reg : RegAddr) {xs : List Word16}

theorem storeDev8_readsBack {d : StoreDev8} (hwf : d.regs.wf = true) (hlen : xs.length ≤ 256) :
    ReadsBack StoreDev8.answer .w8 c bus dev reg d xs := by
  refine ⟨_, _, rfl, fun t => Prod.ext ?_ rfl⟩
  have hload := unitsAt_putUnits .w8 bus dev xs d.regs reg hwf hlen
  rw [← storeBytes_eq_putUnits, ← Nat.mul_one xs.length] at hload
  exact congrArg (fun b => Input.readReply c (.bytes b))
    ((storeDev8_load_eq_unitsAt bus dev _ _ reg).trans hload)

theorem storeDev16_readsBack {d : StoreDev16} (hwf : d.regs.wf = true) (hlen : xs.length ≤ 256) :
    ReadsBack StoreDev16.answer .w16 c bus dev reg d xs := by
  have heven : (xs.flatMap (unitBytes .w16)).length % 2 = 0 := by
    rw [flatMap_unitBytes_length]
    exact Nat.mul_mod_left ..
  have hload := unitsAt_putUnits .w16 bus dev xs d.regs reg hwf hlen
  rw [← storeWords_eq_putUnits, ← Nat.mul_div_cancel xs.length Nat.two_pos] at hload
  refine ⟨_, { regs := storeWords d.regs bus dev reg (xs.flatMap (unitBytes .w16)) }, if_pos heven,
    fun t => (if_pos (Nat.mul_mod_left ..)).trans ?_⟩
  exact congrArg (fun b => (Input.readReply c (.bytes b), _))
    ((storeDev16_load_eq_unitsAt bus dev _ _ reg).trans hload)

end

/-! ### `BUF` after the round trip -/

/-- Bytes sent and delivered restore bits 7:0 of their entries. -/
theorem BufFilled.toNat_of_bytes {k : Context} {b : Vector Word16 256} {n j : Nat}
    (hfilled : BufFilled k.buf b n (unitsOfBytes .w8 (k.sendBytes .w8 n))) (h : j < 256) (hj : j < n) :
    b[j].toNat = k.buf[j].toNat % 256 := by
  have hunit : (unitsOfBytes .w8 (k.sendBytes .w8 n))[j]? =
      some ((lowByte k.buf[j]).setWidth 16) := by
    rw [Context.sendBytes, flatMap_unitBytes_w8, unitsOfBytes, List.getElem?_map, List.getElem?_map,
      entries_getElem? k hj h, Option.map_some, Option.map_some]
  rw [hfilled.delivered j h hunit, byte_setWidth_toNat, lowByte_toNat]

/-- Words sent and delivered restore `BUF`. -/
theorem BufFilled.eq_of_words {k : Context} {b : Vector Word16 256} {n : Nat}
    (hfilled : BufFilled k.buf b n (unitsOfBytes .w16 (k.sendBytes .w16 n))) : b = k.buf := by
  refine Vector.ext fun j h => ?_
  rcases Nat.lt_or_ge j n with hj | hj
  · refine hfilled.delivered j h ?_
    rw [Context.sendBytes, unitsOfBytes, wordsOfBytes_flatMap, entries_getElem? k hj h]
  · exact hfilled.later j h hj

/-! ### The statement -/

/-- Settles O59. -/
theorem unitAndArrayRoundTripsOnStoreDevs : Obligations.UnitAndArrayRoundTripsOnStoreDevs := by
  intro s c k bus dev reg hc hp
  have hentries {n : Nat} (hn : n ≤ 255) : (k.entries n).length ≤ 256 := by
    rw [entries_length k (by omega)]
    omega
  refine ⟨fun d hwf => ⟨fun v => ?byte, fun n hn hn255 => ?bytes⟩,
    fun d hwf => ⟨fun v => ?word, fun n hn hn255 => ?words⟩⟩
  case byte =>
    have hv : (v.setWidth 16).toNat < 2 ^ 8 := byte_setWidth_toNat v ▸ v.isLt
    rw [← byte_setWidth_toNat v]
    exact unitRoundTrip hc hp (storeDev8_readsBack c bus dev reg hwf (by simp)) hv
      (fun u => by rw [unitBytes, lowByte_setWidth]; rfl) (fun _ => rfl) rfl rfl
  case bytes =>
    have hwfn : decide (encodableCount n) = true := decide_eq_true hn255
    obtain ⟨y, z, k', hrunw, hrunr, hc', hp', hresp, hfilled⟩ := arrayRoundTrip hc hp
      (storeDev8_readsBack c bus dev reg hwf (hentries hn255)) hn hn255
      (iw := .writeBytes dev reg n) (ir := .readBytes dev reg n none) (fun _ => rfl) (fun _ => rfl)
      hwfn hwfn
    exact ⟨y, z, k', hrunw, hrunr, hc', hp', hresp, fun j h hj => hfilled.toNat_of_bytes h hj,
      hfilled.later⟩
  case word =>
    exact unitRoundTrip hc hp (storeDev16_readsBack c bus dev reg hwf (by simp)) v.isLt
      (fun _ => rfl) (fun _ => rfl) rfl rfl
  case words =>
    have hwfn : decide (encodableCount n) = true := decide_eq_true hn255
    obtain ⟨y, z, k', hrunw, hrunr, hc', hp', hresp, hfilled⟩ := arrayRoundTrip hc hp
      (storeDev16_readsBack c bus dev reg hwf (hentries hn255)) hn hn255
      (iw := .writeWords dev reg n) (ir := .readWords dev reg n none) (fun _ => rfl) (fun _ => rfl)
      hwfn hwfn
    exact ⟨y, z, k', hrunw, hrunr, hc', hp', hresp, hfilled.eq_of_words⟩

end Sys2Proof.Machine
end

section
/-! PROOFS. The configuration commands: the write and the read of `DEFAULT_TIMEOUT` (43_config R190,
R191). -/

namespace Sys2Proof.Machine

/-- The issue step of `setDefaultTimeout` answers `Value(0)` in a block whose `DEFAULT_TIMEOUT` is
already the new one, and changes nothing else of that block (43_config R190). -/
theorem setDefaultTimeout_issue_spec {s : State} {c : Nat} {k : Context} (bus : BusId) (ms : Millis)
    (h : s.ctx? c = some k) :
    ∃ k', OnlyContext { s with defaultTimeout := ms }
        ((s.ruleOf (.setDefaultTimeout ms)).issue c k bus) c k' ∧ Answered k k' 0x80000000 :=
  respond_spec k (.value 0) ((State.ctx?_with_defaultTimeout s ms c).trans h)

/-! ### The statements -/

/-- Settles O34. -/
theorem setDefaultTimeoutWritesIt : Obligations.SetDefaultTimeoutWritesIt := by
  intro s c bus k h ms
  obtain ⟨k', honly, hans⟩ := setDefaultTimeout_issue_spec bus ms h.ctx
  have hexec := (exec_eq_run (.setDefaultTimeout ms) s).trans (run_issuing _ h)
  exact ⟨_, k', hexec, honly.defaultTimeout, honly, hans⟩

/-- Settles O35. -/
theorem getDefaultTimeoutAnswersIt : Obligations.GetDefaultTimeoutAnswersIt :=
  fun s _ _ _ h => moves_of_valueRule (f := fun _ => s.defaultTimeout) h rfl

end Sys2Proof.Machine
end

section
/-! PROOFS. Contexts do not influence each other (60_exceptions R215): a command reads of the block its
own context, `DEFAULT_TIMEOUT`, the policy and the draws, so it makes the same move in two blocks that
agree on these. -/

namespace Sys2Proof.Machine

section
variable {c : Nat} {u s : State} {k : Context}

/-! ### What a command reads of the block -/

theorem AgreeOn.draw (h : AgreeOn c u s) (d lane : Nat) : u.draw d lane = s.draw d lane := by
  simp only [State.draw, h.tick]

theorem AgreeOn.effectiveTimeout (h : AgreeOn c u s) (t : Option Millis) :
    u.effectiveTimeout t = s.effectiveTimeout t := by
  simp only [State.effectiveTimeout, h.defaultTimeout]

theorem AgreeOn.codecResult (h : AgreeOn c u s) (d : Nat) (W : Width) (f : FieldSpec) (r : Nat) :
    u.codecResult d W f r = s.codecResult d W f r := by
  simp only [State.codecResult, h.policy, h.tick]

theorem AgreeOn.extract (h : AgreeOn c u s) (d : Nat) (W : Width) (f : FieldSpec) (r : Nat) :
    u.extract d W f r = s.extract d W f r :=
  h.codecResult d W f _

theorem AgreeOn.inject (h : AgreeOn c u s) (d : Nat) (W : Width) (f : FieldSpec) (r v : Nat) :
    u.inject d W f r v = s.inject d W f r v :=
  h.codecResult d W f _

theorem AgreeOn.fillBuf (h : AgreeOn c u s) (d : Nat) (q : Context) (n : Nat) (us : List Word16) :
    u.fillBuf d q n us = s.fillBuf d q n us := by
  simp only [State.fillBuf, h.draw]

/-! ### The same change in both blocks -/

theorem AgreeOn.withDefaultTimeout (h : AgreeOn c u s) (t : Millis) :
    AgreeOn c { u with defaultTimeout := t } { s with defaultTimeout := t } where
  ctx := by simpa using h.ctx
  defaultTimeout := rfl
  inputs := h.inputs
  policy := h.policy
  tick := h.tick
  hostData := h.hostData

theorem AgreeOn.withHostData (h : AgreeOn c u s) (x : Option (BitVec 32)) :
    AgreeOn c { u with hostData := x } { s with hostData := x } where
  ctx := by simpa using h.ctx
  defaultTimeout := h.defaultTimeout
  inputs := h.inputs
  policy := h.policy
  tick := h.tick
  hostData := rfl

/-- Ending a command of context `c`, whatever it leaves in the context, is the same change. -/
theorem AgreeOn.respond (h : AgreeOn c u s) (hc : s.ctx? c = some k) (q : Context) (r : Response) :
    AgreeOn c (u.respond c q r) (s.respond c q r) :=
  h.setCtx _ hc

/-- Sending a read request from context `c` is the same change. -/
theorem AgreeOn.sendRead (h : AgreeOn c u s) (hc : s.ctx? c = some k) (q : Context) (bus : BusId)
    (i : Instr) (dev : DevAddr) (reg : Option RegAddr) (len : Nat) (t : Millis) :
    AgreeOn c (u.sendRead c q bus i dev reg len t) (s.sendRead c q bus i dev reg len t) :=
  h.setCtx _ hc

/-- Sending a changed unit back from context `c` is the same change. -/
theorem AgreeOn.sendBack (h : AgreeOn c u s) (hc : s.ctx? c = some k) (q : Context) (W : Width)
    (dev : DevAddr) (reg : RegAddr) (x : Word16) :
    AgreeOn c (u.sendBack c q W dev reg x) (s.sendBack c q W dev reg x) :=
  h.setCtx _ hc

/-! ### The reply steps in both blocks -/

theorem AgreeOn.reportRead (h : AgreeOn c u s) (hc : s.ctx? c = some k) {f g : Nat → Word16 → Word16}
    (hfg : ∀ r, f c r = g c r) (W : Width) (reply : ReadReply) :
    AgreeOn c (u.reportRead W f c k reply) (s.reportRead W g c k reply) := by
  unfold State.reportRead
  cases reply.unit W with
  | none => simpa only [h.draw] using h.respond hc k _
  | some r => simpa only [hfg] using h.respond hc k _

theorem AgreeOn.modify (h : AgreeOn c u s) (hc : s.ctx? c = some k) (W : Width) (dev : DevAddr)
    (reg : RegAddr) (f : FieldSpec) (v : Nat) (reply : ReadReply) :
    AgreeOn c (u.modify W dev reg f v c k reply) (s.modify W dev reg f v c k reply) := by
  unfold State.modify
  cases reply.unit W with
  | none => exact h.respond hc k _
  | some r => simpa only [h.inject] using h.sendBack hc k W dev reg _

theorem AgreeOn.reportArray (h : AgreeOn c u s) (hc : s.ctx? c = some k) (W : Width) (n : Nat)
    (reply : ReadReply) : AgreeOn c (u.reportArray W n c k reply) (s.reportArray W n c k reply) := by
  cases reply <;> simpa only [State.reportArray, h.fillBuf] using h.respond hc _ _

theorem AgreeOn.reportWrite (h : AgreeOn c u s) (hc : s.ctx? c = some k) (reply : WriteReply) :
    AgreeOn c (u.reportWrite c k reply) (s.reportWrite c k reply) :=
  h.respond hc k _

end

/-! ### The rules in both blocks -/

/-- Two rules that have the same steps and lead from context `c`, which is `k`, to blocks that agree on
it. -/
structure AgreeingRules (c : Nat) (k : Context) (ρ σ : CommandRule) : Prop where
  /-- The issue steps. -/
  issue : ∀ bus, AgreeOn c (ρ.issue c k bus) (σ.issue c k bus)
  /-- The read-reply steps, if there are any. -/
  readReply : Option.Rel (fun f g => ∀ reply, AgreeOn c (f c k reply) (g c k reply))
    ρ.readReply σ.readReply
  /-- The write-reply steps, if there are any. -/
  writeReply : Option.Rel (fun f g => ∀ reply, AgreeOn c (f c k reply) (g c k reply))
    ρ.writeReply σ.writeReply

section
variable {c : Nat} {u s : State} {k : Context}

theorem immediateRule_agree {f g : Nat → Context → BusId → State}
    (h : ∀ bus, AgreeOn c (f c k bus) (g c k bus)) :
    AgreeingRules c k (immediateRule f) (immediateRule g) :=
  ⟨h, .none, .none⟩

theorem valueRule_agree (h : AgreeOn c u s) (hc : s.ctx? c = some k) {f g : Nat → Word16}
    (hfg : f c = g c) : AgreeingRules c k (u.valueRule f) (s.valueRule g) :=
  immediateRule_agree fun _ => by simpa only [hfg] using h.respond hc k (.value (g c))

theorem unitReadRule_agree (h : AgreeOn c u s) (hc : s.ctx? c = some k) (i : Instr) (W : Width)
    (dev : DevAddr) (reg : RegAddr) (t : Option Millis) {f g : Nat → Word16 → Word16}
    (hfg : ∀ r, f c r = g c r) :
    AgreeingRules c k (u.unitReadRule i W dev reg t f) (s.unitReadRule i W dev reg t g) where
  issue := fun _ => by
    simpa only [State.unitReadRule, h.effectiveTimeout] using h.sendRead hc ..
  readReply := .some fun reply => h.reportRead hc hfg W reply
  writeReply := .none

theorem rmwRule_agree (h : AgreeOn c u s) (hc : s.ctx? c = some k) (i : Instr) (W : Width)
    (dev : DevAddr) (reg : RegAddr) (f : FieldSpec) (v : Nat) :
    AgreeingRules c k (u.rmwRule i W dev reg f v) (s.rmwRule i W dev reg f v) where
  issue := fun _ => by
    simpa only [State.rmwRule, h.effectiveTimeout] using h.sendRead hc ..
  readReply := .some fun reply => h.modify hc W dev reg f v reply
  writeReply := .some fun reply => h.reportWrite hc reply

theorem arrayReadRule_agree (h : AgreeOn c u s) (hc : s.ctx? c = some k) (i : Instr) (W : Width)
    (dev : DevAddr) (reg : Option RegAddr) (n : Nat) (t : Option Millis) :
    AgreeingRules c k (u.arrayReadRule i W dev reg n t) (s.arrayReadRule i W dev reg n t) where
  issue := fun _ => by
    simp only [State.arrayReadRule, h.effectiveTimeout, h.policy]
    split
    · exact h.respond hc k _
    · exact h.sendRead hc ..
  readReply := .some fun reply => h.reportArray hc W n reply
  writeReply := .none

theorem unitWriteRule_agree (h : AgreeOn c u s) (hc : s.ctx? c = some k) (i : Instr) (dev : DevAddr)
    (reg : RegAddr) (bytes : List Byte) :
    AgreeingRules c k (u.unitWriteRule i dev reg bytes) (s.unitWriteRule i dev reg bytes) where
  issue := fun _ => h.setCtx _ hc
  readReply := .none
  writeReply := .some fun reply => h.reportWrite hc reply

theorem arrayWriteRule_agree (h : AgreeOn c u s) (hc : s.ctx? c = some k) (i : Instr) (W : Width)
    (dev : DevAddr) (reg : RegAddr) (n : Nat) :
    AgreeingRules c k (u.arrayWriteRule i W dev reg n) (s.arrayWriteRule i W dev reg n) where
  issue := fun _ => by
    simp only [State.arrayWriteRule, h.policy]
    split
    · exact h.respond hc k _
    · exact h.setCtx _ hc
  readReply := .none
  writeReply := .some fun reply => h.reportWrite hc reply

/-- The rules of every command agree. -/
theorem ruleOf_agree (h : AgreeOn c u s) (hc : s.ctx? c = some k) (i : Instr) :
    AgreeingRules c k (u.ruleOf i) (s.ruleOf i) := by
  cases i with
  | readBit => exact unitReadRule_agree h hc _ _ _ _ _ fun _ => h.extract ..
  | readBitW => exact unitReadRule_agree h hc _ _ _ _ _ fun _ => h.extract ..
  | readBits => exact unitReadRule_agree h hc _ _ _ _ _ fun _ => h.extract ..
  | readBitsW => exact unitReadRule_agree h hc _ _ _ _ _ fun _ => h.extract ..
  | readByte => exact unitReadRule_agree h hc _ _ _ _ _ fun _ => rfl
  | readWord => exact unitReadRule_agree h hc _ _ _ _ _ fun _ => rfl
  | readBytes => exact arrayReadRule_agree h hc ..
  | readWords => exact arrayReadRule_agree h hc ..
  | readBytesNoRegAddress => exact arrayReadRule_agree h hc ..
  | writeBit => exact rmwRule_agree h hc ..
  | writeBitW => exact rmwRule_agree h hc ..
  | writeBits => exact rmwRule_agree h hc ..
  | writeBitsW => exact rmwRule_agree h hc ..
  | writeByte => exact unitWriteRule_agree h hc ..
  | writeWord => exact unitWriteRule_agree h hc ..
  | writeBytes => exact arrayWriteRule_agree h hc ..
  | writeWords => exact arrayWriteRule_agree h hc ..
  | extractField8 => exact valueRule_agree h hc (h.extract ..)
  | extractField16 => exact valueRule_agree h hc (h.extract ..)
  | injectField8 => exact valueRule_agree h hc (h.inject ..)
  | injectField16 => exact valueRule_agree h hc (h.inject ..)
  | setDefaultTimeout ms =>
    exact immediateRule_agree fun _ =>
      (h.withDefaultTimeout ms).respond ((State.ctx?_with_defaultTimeout s ms c).trans hc) k _
  | getDefaultTimeout => exact valueRule_agree h hc h.defaultTimeout

/-! ### Moves in both blocks -/

/-- Agreeing rules take a command alike. -/
theorem run_command_agree {bus : BusId} {w : CommandWord} {rest : List Input} {ρ σ : CommandRule}
    (h : AgreeOn c u s) (hin : s.inputs = .command c bus w :: rest)
    (hrule : ∀ k, s.ctx? c = some k → AgreeingRules c k ρ σ) :
    SameOutcome (AgreeOn c) (u.run ρ) (s.run σ) := by
  simp only [State.run, h.inputs, hin, List.head?_cons, h.ctx]
  cases hc : s.ctx? c with
  | none => rfl
  | some k =>
    cases hp : k.phase with
    | idle => simpa only [hp, SameOutcome] using (hrule k hc).issue bus
    | rdWait => simp only [hp, SameOutcome]
    | wrWait => simp only [hp, SameOutcome]

/-- Agreeing rules take a read reply alike. -/
theorem run_readReply_agree {reply : ReadReply} {rest : List Input} {ρ σ : CommandRule}
    (h : AgreeOn c u s) (hin : s.inputs = .readReply c reply :: rest) (hc : s.ctx? c = some k)
    (hrule : AgreeingRules c k ρ σ) : SameOutcome (AgreeOn c) (u.run ρ) (s.run σ) := by
  have hrel := hrule.readReply
  simp only [State.run, h.inputs, hin, List.head?_cons, h.ctx, hc]
  generalize ρ.readReply = f, σ.readReply = g at hrel ⊢
  cases k.phase with
  | idle => rfl
  | wrWait => rfl
  | rdWait =>
    rcases k.outstanding with _ | ⟨bus, dev, reg, len, t⟩ | _
    · rfl
    · cases hrel with
      | none => rfl
      | some hfg =>
        cases hb : reply.breach len t with
        | none => simpa only [hb, SameOutcome] using hfg reply
        | some e => simp only [hb, SameOutcome]
    · rfl

/-- Agreeing rules take a write reply alike. -/
theorem run_writeReply_agree {reply : WriteReply} {rest : List Input} {ρ σ : CommandRule}
    (h : AgreeOn c u s) (hin : s.inputs = .writeReply c reply :: rest) (hc : s.ctx? c = some k)
    (hrule : AgreeingRules c k ρ σ) : SameOutcome (AgreeOn c) (u.run ρ) (s.run σ) := by
  have hrel := hrule.writeReply
  simp only [State.run, h.inputs, hin, List.head?_cons, h.ctx, hc]
  generalize ρ.writeReply = f, σ.writeReply = g at hrel ⊢
  cases k.phase with
  | idle => rfl
  | rdWait => rfl
  | wrWait =>
    rcases k.outstanding with _ | _ | _
    · rfl
    · rfl
    · cases hrel with
      | none => rfl
      | some hfg => exact hfg reply

/-- The issue step has the same outcome in both blocks. -/
theorem stepCommand_agree {bus : BusId} {w : CommandWord} {rest : List Input} (h : AgreeOn c u s)
    (hin : s.inputs = .command c bus w :: rest) :
    SameOutcome (AgreeOn c) (stepCommand w u) (stepCommand w s) := by
  unfold stepCommand
  cases decode w with
  | ok i =>
    simp only [exec_eq_run]
    exact run_command_agree h hin fun k hc => ruleOf_agree h hc i
  | error e =>
    exact run_command_agree h hin fun k hc =>
      immediateRule_agree fun _ => h.respond hc k .illegal

/-- A reply step has the same outcome in both blocks if the rule of the latched command has. -/
theorem stepReply_agree (h : AgreeOn c u s)
    (hrun : ∀ k i, s.ctx? c = some k →
      SameOutcome (AgreeOn c) (u.run (u.ruleOf i)) (s.run (s.ruleOf i))) :
    SameOutcome (AgreeOn c) (stepReply c u) (stepReply c s) := by
  cases hc : s.ctx? c with
  | none => simp only [stepReply, h.ctx, hc, SameOutcome]
  | some k =>
    by_cases hp : k.phase = .idle
    · simp only [stepReply, h.ctx, hc, hp, SameOutcome]
    · rw [stepReply_of_waiting (h.ctx.trans hc) hp, stepReply_of_waiting hc hp, exec_eq_run,
        exec_eq_run]
      exact hrun k _ hc

theorem hostWriteBuf_agree (h : AgreeOn c u s) (j : BitVec 8) (v : Word16) :
    SameOutcome (AgreeOn c) (u.hostWriteBuf c j v) (s.hostWriteBuf c j v) := by
  unfold State.hostWriteBuf
  rw [h.ctx]
  cases hc : s.ctx? c with
  | none => rfl
  | some k =>
    by_cases hp : k.phase = .idle
    · simpa only [if_pos hp, SameOutcome] using h.setCtx _ hc
    · simp only [if_neg hp, SameOutcome]

theorem hostReadBuf_agree (h : AgreeOn c u s) (j : BitVec 8) :
    SameOutcome (AgreeOn c) (u.hostReadBuf c j) (s.hostReadBuf c j) := by
  unfold State.hostReadBuf
  rw [h.ctx]
  cases s.ctx? c with
  | none => rfl
  | some k =>
    by_cases hp : k.phase = .idle
    · simpa only [if_pos hp, SameOutcome] using h.withHostData _
    · simp only [if_neg hp, SameOutcome]

theorem hostReadResp_agree (h : AgreeOn c u s) :
    SameOutcome (AgreeOn c) (u.hostReadResp c) (s.hostReadResp c) := by
  unfold State.hostReadResp
  rw [h.ctx]
  cases s.ctx? c with
  | none => rfl
  | some k => exact h.withHostData _

end

/-! ### The statement -/

/-- Settles O45, by the kind of the move. -/
theorem contextsDoNotInfluenceEachOther : Obligations.ContextsDoNotInfluenceEachOther := by
  intro s u c i rest hin ht h
  have hfinish {x y : Result} (hxy : SameOutcome (AgreeOn c) x y) :
      SameOutcome (AgreeOn c) (finish x) (finish y) :=
    sameOutcome_finish (hxy.mono fun _ _ hab => hab.advance)
  unfold step
  rw [h.inputs, hin]
  cases i with
  | command d bus w => cases ht; exact hfinish (stepCommand_agree h hin)
  | readReply d reply =>
    cases ht
    exact hfinish (stepReply_agree h fun _ _ hc => run_readReply_agree h hin hc (ruleOf_agree h hc _))
  | writeReply d reply =>
    cases ht
    exact hfinish (stepReply_agree h fun _ _ hc => run_writeReply_agree h hin hc (ruleOf_agree h hc _))
  | hostWriteBuf d j v => cases ht; exact hfinish (hostWriteBuf_agree h j v)
  | hostReadBuf d j => cases ht; exact hfinish (hostReadBuf_agree h j)
  | hostReadResp d => cases ht; exact hfinish (hostReadResp_agree h)
  | reset => cases ht
  | abandonedReply j => cases ht

end Sys2Proof.Machine
end

section
/-! PROOFS. A command word at an idle and at a busy context, and what a move leaves alone
(60_exceptions R205, R215, R217). -/

namespace Sys2Proof.Machine

/-! ### A command word -/

/-- Settles O37. -/
theorem illegalWordIsAnsweredOnly : Obligations.IllegalWordIsAnsweredOnly := by
  intro s c bus k w rest hin hc hp hw
  obtain ⟨e, hd⟩ := (illegalWordsAreTheReservedOnes.1 w).2 hw
  obtain ⟨k', honly, ha⟩ := respond_spec k .illegal hc
  have hword : k'.resp = 0x60000000 := ha.resp
  exact ⟨_, k', step_command_error hin hc hp hd, honly.advance hin, ha, by rw [hword]; rfl,
    by rw [hword]; rfl⟩

/-- No rule starts in a busy context. -/
theorem run_command_busy {s : State} {c : Nat} {bus : BusId} {w : CommandWord} {rest : List Input}
    {k : Context} (rule : CommandRule) (hin : s.inputs = .command c bus w :: rest)
    (hc : s.ctx? c = some k) (hp : k.phase ≠ .idle) : s.run rule = .refused .hostWhileBusy := by
  simp only [State.run, hin, hc, List.head?_cons]
  split
  · rename_i hidle
    exact absurd hidle hp
  · rfl
  · rfl

/-- Settles O43: a legal and an illegal word both run a rule. -/
theorem busyContextTakesNoCommand : Obligations.BusyContextTakesNoCommand := by
  intro s c bus k w rest hin hc hp
  have hrun (rule : CommandRule) := run_command_busy rule hin hc hp
  cases hd : decode w with
  | ok i => simp only [step, hin, stepCommand, hd, exec_eq_run, hrun, finish]
  | error e => simp only [step, hin, stepCommand, hd, State.answerIllegal, hrun, finish]

/-! ### What a move leaves alone -/

/-- A move addressed to context `c` changes `hostData` only, or nothing but context `c` and
`DEFAULT_TIMEOUT`. -/
theorem step_of_target {s t : State} {c : Nat} {i : Input} {rest : List Input}
    (hin : s.inputs = i :: rest) (ht : i.target = some c) (h : step s = .next t) :
    (∃ y, t = { s with hostData := y }.advance) ∨
      ∃ dt u k', OnlyContext { s with defaultTimeout := dt } u c k' ∧ t = u.advance := by
  rcases step_next h with ⟨hnil, -⟩ | ⟨d, bus, w, rest', k, u, hm, hc, -, rfl, hu⟩ |
    ⟨d, r, rest', k, f, hm, hR, hf, rfl⟩ | ⟨d, r, rest', k, f, hm, hW, hf, rfl⟩ |
    ⟨d, j, v, rest', k, hm, hc, -, rfl⟩ | ⟨d, j, rest', k, x, hm, -, -, -, rfl⟩ |
    ⟨d, rest', k, hm, -, rfl⟩ | ⟨rest', hm, -⟩ | ⟨j, rest', hm, -, -⟩
  · rw [hin] at hnil
    cases hnil
  all_goals
    rw [hin] at hm
    cases hm
    cases ht
  · rcases hu with ⟨i, hd, rfl⟩ | ⟨e, -, rfl⟩
    · obtain ⟨dt, k', honly, -, -⟩ := issue_effect bus hc (decode_wf hd)
      exact .inr ⟨dt, _, k', honly, rfl⟩
    · exact .inr ⟨_, _, _, onlyContext_setCtx _ hc, rfl⟩
  · obtain ⟨k', honly, -⟩ := readReply_effect r hR.ctx hf
    exact .inr ⟨_, _, k', honly, rfl⟩
  · obtain rfl := ruleOf_writeReply hf
    exact .inr ⟨_, _, _, onlyContext_setCtx _ hW.ctx, rfl⟩
  · exact .inr ⟨_, _, _, onlyContext_setCtx _ hc, rfl⟩
  · exact .inl ⟨_, rfl⟩
  · exact .inl ⟨_, rfl⟩

/-- Settles O44. -/
theorem movesTouchOnlyTheirContext : Obligations.MovesTouchOnlyTheirContext := by
  intro s t c d i rest hin ht h hdc
  rcases step_of_target hin ht h with ⟨y, rfl⟩ | ⟨dt, u, k', honly, rfl⟩
  · exact ⟨by simp, rfl, rfl⟩
  · exact ⟨by simpa using honly.others d hdc, honly.abandoned, honly.policy⟩

end Sys2Proof.Machine
end

section
/-! PROOFS. The reset event and the replies it leaves to be discarded (70_reset R230, R231). -/

namespace Sys2Proof.Machine

/-! ### The contexts after a reset -/

/-- A reset makes no context where there was none. -/
theorem resetEvent_ctx?_of_none {s : State} {c : Nat} (hc : s.ctx? c = none) :
    s.resetEvent.ctx? c = none := by
  rw [ctx?_of_afterReset (n := s.more.length) rfl rfl, if_neg]
  cases c with
  | zero => cases hc
  | succ j =>
    have hj : s.more.length ≤ j := List.getElem?_eq_none_iff.1 hc
    omega

/-- A reset puts exactly the contexts that exist into their state after reset. -/
theorem resetEvent_ctx? (s : State) (c : Nat) :
    s.resetEvent.ctx? c = (s.ctx? c).map fun _ => Context.afterReset s.tick c := by
  cases hc : s.ctx? c with
  | none => exact resetEvent_ctx?_of_none hc
  | some k => exact resetEvent_ctx?_of_some hc

/-! ### The statements -/

/-- Settles O53, from what a reset makes of each context. -/
theorem resetAbandonsWhatWasOutstanding : Obligations.ResetAbandonsWhatWasOutstanding := by
  intro s rest hin
  refine ⟨_, step_of_reset hin, rfl, congrArg List.tail hin, fun c => ?sameContexts,
    fun c k hk => ?idle, rfl⟩
  case sameContexts => rw [State.advance_ctx?, resetEvent_ctx?, Option.isSome_map]
  case idle =>
    rw [State.advance_ctx?, resetEvent_ctx?] at hk
    obtain ⟨-, -, rfl⟩ := Option.map_eq_some_iff.1 hk
    exact ⟨rfl, rfl⟩

/-- Settles O54: the move only takes one entry off the list of abandoned requests. -/
theorem abandonedRepliesAreDiscarded : Obligations.AbandonedRepliesAreDiscarded := by
  intro s j rest hin hj
  refine ⟨_, step_abandonedReply hin hj, fun c => ?_, rfl, rfl, List.length_eraseIdx_add_one hj⟩
  rw [State.advance_ctx?, State.ctx?_with_abandoned]

end Sys2Proof.Machine
end

section
/-! PROOFS. The words of 95_test_vectors 7.3: each is the encoding of its command. -/

namespace Sys2Proof

/-- Settles O5: each word is what the encoder writes for its well-formed command, so that
decoding the word gives the command back. -/
theorem specWordsDecode : Obligations.SpecWordsDecode := by
  have hdecode {i : Instr} {w : CommandWord} (hwf : i.wf = true) (hw : encode i = w) :
      decode w = .ok i := hw ▸ decodeOfEncodeIsIdentity i hwf
  exact ⟨hdecode rfl rfl, hdecode rfl rfl, hdecode rfl rfl, hdecode rfl rfl, hdecode rfl rfl,
    hdecode rfl rfl, hdecode rfl rfl, hdecode rfl rfl, hdecode rfl rfl⟩

end Sys2Proof
end

section
/-! PROOFS. Arrays of no units under the other setting of 93 U4 (log 12): the request of length 0,
and the reply that ends it. -/

namespace Sys2Proof.Machine

/-! ### Nothing delivered into no entries -/

theorem unitsOfBytes_nil : ∀ W : Width, unitsOfBytes W [] = []
  | .w8 => rfl
  | .w16 => rfl

/-- An array read of no units that delivers nothing leaves `BUF` as it is. -/
theorem fillBuf_zero_nil (s : State) (c : Nat) (k : Context) : s.fillBuf c k 0 [] = k.buf :=
  Vector.ext fun j hj => (fillBuf_filled s c k (Nat.zero_le 0)).later j hj (Nat.zero_le j)

/-- A failed or empty reply to an array read of no units only answers `Count(0)`. -/
theorem reportArray_zero (s : State) (W : Width) (c : Nat) (k : Context) {reply : ReadReply}
    (hempty : ∀ b, reply = .bytes b → b = []) :
    s.reportArray W 0 c k reply = s.respond c k (.count 0) := by
  cases reply with
  | bytes b =>
    rw [hempty b rfl, State.reportArray, unitsOfBytes_nil, fillBuf_zero_nil, List.length_nil]
  | busError => rw [State.reportArray, fillBuf_zero_nil, if_pos rfl]
  | timeout => rw [State.reportArray, fillBuf_zero_nil, if_pos rfl]

/-! ### One step of a rule, as a move -/

section
variable {i : Instr} {s : State} {c : Nat} {k : Context} {bus : BusId} {W : Width} {dev : DevAddr}

/-- The setting that makes an empty request is not the one that makes none. -/
theorem not_noRequest_of_emptyRequest {n : Nat} (hz : s.policy.zeroCount = .emptyRequest) :
    ¬ (n = 0 ∧ s.policy.zeroCount = .noRequest) := by
  rw [hz]
  exact fun h => nomatch h.2

/-- An array read of no units sends a read of length 0. -/
theorem moves_emptyArrayRead_issue {reg : Option RegAddr} {t : Option Millis}
    (h : s.Issuing c bus k) (hz : s.policy.zeroCount = .emptyRequest)
    (hi : s.ruleOf i = s.arrayReadRule i W dev reg 0 t) :
    Moves i s c fun k' => Sent k k' .rdWait ⟨i, bus, some (s.effectiveTimeout t)⟩
      (.read bus dev reg 0 (s.effectiveTimeout t)) := by
  have hissue : (s.ruleOf i).issue c k bus =
      s.sendRead c k bus i dev reg (0 * W.bytes) (s.effectiveTimeout t) :=
    hi ▸ if_neg (not_noRequest_of_emptyRequest hz)
  rw [Nat.zero_mul] at hissue
  exact moves_of_run (run_issuing _ h) (hissue ▸ sendRead_spec bus i dev reg 0 _ h.ctx)

/-- An array write of no units sends a write of no bytes. -/
theorem moves_emptyArrayWrite_issue {reg : RegAddr} (h : s.Issuing c bus k)
    (hz : s.policy.zeroCount = .emptyRequest) (hi : s.ruleOf i = s.arrayWriteRule i W dev reg 0) :
    Moves i s c fun k' => Sent k k' .wrWait ⟨i, bus, none⟩ (.write bus dev reg []) :=
  moves_sendWrite h (hi ▸ if_neg (not_noRequest_of_emptyRequest hz))

/-- A failed or empty reply ends an array read of no units with `Count(0)`. -/
theorem moves_reportArray_zero {reply : ReadReply} (h : s.ReadAnswered c k reply)
    (hempty : ∀ b, reply = .bytes b → b = [])
    (hi : (s.ruleOf i).readReply = some (s.reportArray W 0)) :
    Moves i s c fun k' => Answered k k' 0x80000000 :=
  moves_of_run (run_readAnswered h hi)
    (reportArray_zero s W c k hempty ▸ respond_spec k (.count 0) h.ctx)

end

/-! ### The statement -/

/-- Settles O28; the replies to writes are a case of O22. -/
theorem zeroCountUnderOtherSetting : Obligations.ZeroCountUnderOtherSetting := by
  refine ⟨fun s c bus k h hz dev reg t => ?issue,
    fun s c k reply h hempty dev reg t => ?readReply,
    fun s c k reply h dev reg i hi => ?writeReply⟩
  case issue =>
    simp only [List.forall_mem_cons, List.not_mem_nil, false_implies, implies_true, and_true]
    exact ⟨⟨moves_emptyArrayRead_issue h hz rfl, moves_emptyArrayRead_issue h hz rfl⟩,
      moves_emptyArrayRead_issue h hz rfl,
      moves_emptyArrayWrite_issue h hz rfl, moves_emptyArrayWrite_issue h hz rfl⟩
  case readReply =>
    simp only [List.forall_mem_cons, List.not_mem_nil, false_implies, implies_true, and_true]
    exact ⟨moves_reportArray_zero h hempty rfl, moves_reportArray_zero h hempty rfl,
      moves_reportArray_zero h hempty rfl⟩
  case writeReply =>
    exact writeRepliesEndTheWrites s c k reply h dev reg 0 0 ⟨0, 1⟩ 0 0 0 i
      (List.mem_of_mem_drop (i := 6) hi)

end Sys2Proof.Machine
end
